-- ==== Sys2Proof/Word.lean ====
section
/-! DEFINITION. The widths the spec gives the block (00_scope.md R11): a register and a command word have 32 bits, a
host address 17, a checksum word 16, a MEM byte 8. -/

namespace Sys2Proof

/-- One byte of MEM or of the wire (00_scope.md R13). -/
abbrev Byte := BitVec 8

/-- A 16-bit word: a checksum word, a port, an EtherType (00_scope.md R11). -/
abbrev Half := BitVec 16

/-- A host-visible register, a command word, a 32-bit bus word (00_scope.md R11). -/
abbrev Word := BitVec 32

/-- A host address (00_scope.md R11; 20_memory.md R80). -/
abbrev HostAddr := BitVec 17

end Sys2Proof
end

