-- ==== Sys2Proof/Config.lean ====
section
/-! DEFINITION. What an implementation of the block fixes (00_scope.md R9, R10), and the free values the spec leaves open. -/

namespace Sys2Proof

/-- The parameters of one block. MEM_SIZE is a power of two from 64 to 65536 (00_scope.md R9), so a block is told by its exponent:
MEM_SIZE = 2 ^ (6 + sizeExp), with sizeExp from 0 to 10, and no illegal size can be written down. A State carries its Config and no step
writes it; DESIGN CHOICE (log 1). -/
structure Config where
  sizeExp : Fin 11
deriving DecidableEq, Repr

/-- MEM_SIZE, the number of bytes of MEM (00_scope.md R9). -/
def Config.memSize (c : Config) : Nat := 2 ^ (6 + c.sizeExp.val)

/-- The block of the spec's examples, MEM_SIZE = 4096 (00_scope.md R9); DESIGN CHOICE for `State.reset` (log 1). -/
def Config.examples : Config := { sizeExp := 6 }

/-- The largest block the spec allows, MEM_SIZE = 65536 (00_scope.md R9). -/
def Config.largest : Config := { sizeExp := 10 }

/-- FREE VALUE (00_scope.md R10; 70_reset_and_hazards.md R284; log 2). LATENCY is finite and at least 1: the cycles a command needs
beyond the first, drawn afresh for every accepted command. -/
opaque Config.extraLatency (cmd : Word) (draw : Nat) : Nat

/-- FREE VALUE (70_reset_and_hazards.md R281; log 9). What a host read of anything but ID, STATUS and CMD returns while a command runs. -/
opaque Config.busyRead (draw : Nat) : Word

end Sys2Proof
end

