-- ==== Sys2Proof/Syntax.lean ====
section
/-! DEFINITION. The commands of the block, one constructor for each row of the opcode table (30_encoding.md R112), the raw fields of a
command word, the names of the host-visible registers, and the accesses a host makes. -/

namespace Sys2Proof

/-- The commands (30_encoding.md R112). Every operand but CSUM_ADDI's IMM16 is an implicit register (R111, R113). -/
inductive Instr where
  | ethParse
  | ethBuild
  | ip4Parse
  | ip4Build
  | ip4Csum
  | tcpParse
  | tcpBuild
  | tcpBuildCsum
  | csumClr
  | csumAddi (imm : Half)
  | csumAddmem
  | csumFin
deriving DecidableEq, Repr

/-- The three fields of the one command format CMD32 (30_encoding.md R110). -/
structure CmdFields where
  opc   : BitVec 8
  rsv   : BitVec 8
  imm16 : Half
deriving DecidableEq, Repr

/-- The host-visible registers, in the order of the register map (10_state.md R33). -/
inductive Reg where
  | id | cmd | status | viewstat
  | inOff | inLen | outOff | payOff | payLen | outLen
  | ethDstHi | ethDstLo | ethSrcHi | ethSrcLo | ethType | ethPoff | ethPlen
  | ip4Src | ip4Dst | ip4Proto | ip4Hlen | ip4Poff | ip4Plen | ip4Csum
  | tcpSport | tcpDport | tcpSeq | tcpAck | tcpFlags | tcpWin | tcpHlen | tcpPoff | tcpPlen
  | tcpPhSrc | tcpPhDst | tcpCsum
  | csumAcc | csumRes
deriving DecidableEq, Repr

/-- The width of a host access (20_memory.md R82, R83). -/
inductive Width where
  | w8 | w16 | w32
deriving DecidableEq, Repr

/-- The bits of an access of this width. -/
def Width.bits : Width → Nat
  | .w8 => 8
  | .w16 => 16
  | .w32 => 32

/-- What the outside does to the block in one cycle: nothing, one bus access (20_memory.md R80 to R83), one pass of the polling
loop `wait` (30_encoding.md R124), or an edge of the reset input (70_reset_and_hazards.md R270). -/
inductive HostEvent where
  | idle
  | read (width : Width) (addr : HostAddr)
  | write (width : Width) (addr : HostAddr) (data : Word)
  | poll
  | assertReset
  | deassertReset
deriving DecidableEq, Repr

/-- The statements of a host program (30_encoding.md R122). MEM offsets are those of the window, whose addresses have 17 bits. -/
inductive HostStmt where
  | wr (r : Reg) (v : Word)
  | rd (r : Reg)
  | wrb (m : Half) (b : Byte)
  | rdb (m : Half)
  | wrw (m : Half) (v : Word)
  | rdw (m : Half)
  | cmd (i : Instr)
  | cmdWord (w : Word)
  | wait
deriving DecidableEq, Repr

end Sys2Proof
end

