-- ==== Sys2Proof/Machine/State.lean ====
section
/-! DEFINITION. The state of the block (10_state.md R30): the register file, MEM, the engine's busy bit and accepted word, and the level
of the reset input; with them the model's own fields, each said to be so. A register field is held at the width its field table gives
(10_state.md R34): the reserved bits have no home and read 0. Why a step can stop stands here too. -/

namespace Sys2Proof.Machine

/-- The result codes of STATUS.ERR (60_exceptions.md R241). Codes 6 to 15 are never produced (10_state.md R36), so they have no name. -/
inductive ResultCode where
  | ok
  | notEnoughBytes
  | unsupportedVersion
  | regionRange
  | illegalCommand
  | segmentTooLong
deriving DecidableEq, Repr

/-- The VIEWSTAT bits (10_state.md R38). -/
structure ViewStat where
  ethValid : Bool
  ip4Valid : Bool
  tcpValid : Bool
  ip4Poor  : Bool
  tcpPoor  : Bool
deriving DecidableEq, Repr

/-- The operand registers (10_state.md R39, R40). -/
structure OperandRegs where
  inOff  : Word
  inLen  : Word
  outOff : Word
  payOff : Word
  payLen : Word
deriving DecidableEq, Repr

/-- The Ethernet field and view registers (10_state.md R42 to R44). ETH_TYPE.CLASS is derived from `etype` and holds nothing. -/
structure EthRegs where
  dstHi : Half
  dstLo : Word
  srcHi : Half
  srcLo : Word
  etype : Half
  poff  : Word
  plen  : Word
deriving DecidableEq, Repr

/-- The IPv4 field, view and result registers (10_state.md R45 to R49). IP4_PROTO.CLASS is derived from `proto` and holds nothing. -/
structure Ip4Regs where
  src   : Word
  dst   : Word
  proto : Byte
  hlen  : BitVec 6
  poff  : Word
  plen  : Word
  csum  : Half
deriving DecidableEq, Repr

/-- The four flags TCP_FLAGS can hold (10_state.md R53): bits 0, 1, 2 and 4. -/
structure TcpFlags where
  fin : Bool
  syn : Bool
  rst : Bool
  ack : Bool
deriving DecidableEq, Repr

/-- The TCP field, view and result registers (10_state.md R51 to R56). -/
structure TcpRegs where
  sport : Half
  dport : Half
  seq   : Word
  ack   : Word
  flags : TcpFlags
  win   : Half
  hlen  : BitVec 6
  poff  : Word
  plen  : Word
  phSrc : Word
  phDst : Word
  csum  : Half
deriving DecidableEq, Repr

/-- The accumulator unit's registers CSUM_ACC and CSUM_RES (10_state.md R57, R58). -/
structure AccRegs where
  acc : Half
  res : Half
deriving DecidableEq, Repr

/-- The engine's own state (10_state.md R30, R61, R70). -/
structure Engine where
  busy : Bool
  cmd  : Word
deriving DecidableEq, Repr

/-- MEM (10_state.md R60): the bytes written since reset, by rising offset. -/
abbrev Memory := List Host.Cell

/-- What an offset that is not listed reads as: no value, since a byte that nothing has written since reset is unspecified and a
model must not give it one (70_reset_and_hazards.md R272; log 4). -/
def Memory.unlisted : Option Byte := none

/-- The one canonical form of MEM: offsets strictly rising. An unlisted offset reads as no value and a listed one as a byte, so no entry
can equal what its offset reads as unlisted. -/
abbrev Memory.wf (m : Memory) : Prop := m.Pairwise (fun x y => x.1 < y.1)

/-- The state of the block. `config`, `bus`, `lastRead`, `wait` and `draws` are the MODEL's own fields (INVENTORY.md, State). -/
structure State where
  /-- The parameter MEM_SIZE (00_scope.md R9; log 1): never written. -/
  config   : Config
  eng      : Engine
  /-- STATUS.ERR (10_state.md R36). -/
  err      : ResultCode
  /-- STATUS.HAZ (10_state.md R36). -/
  haz      : Bool
  view     : ViewStat
  opnd     : OperandRegs
  /-- OUT_LEN (10_state.md R41). -/
  outLen   : Word
  eth      : EthRegs
  ip4      : Ip4Regs
  tcp      : TcpRegs
  acc      : AccRegs
  mem      : Memory
  /-- The level of the reset input: true while reset is asserted (70_reset_and_hazards.md R270). -/
  resetPin : Bool
  /-- What the outside still does, the next first (log 7). -/
  bus      : List HostEvent
  /-- What the host's most recent read returned (log 10). -/
  lastRead : Option Word
  /-- Cycles that still pass before the running command completes (00_scope.md R10; log 2). -/
  wait     : Nat
  /-- How many free values have been drawn (log 9). -/
  draws    : Nat
deriving DecidableEq, Repr

/-- Why the machine stops. Every one is a stop the spec itself asks of a model, so each is safe: nothing is claimed of what follows. -/
inductive Fault where
  /-- Raised by a host access with a disallowed address, width or alignment: a bus error, which "A model treats … as a host fault"
  (60_exceptions.md R247). Safe. -/
  | busError
  /-- Raised by a host read or by a command that reads a MEM byte not written since reset (70_reset_and_hazards.md R272: "is a fault in
  the model"). Safe. -/
  | unwrittenRead
  /-- Raised by a host access while reset is asserted (70_reset_and_hazards.md R270: "a model treats an access during reset as a host
  fault"). Safe. -/
  | accessDuringReset
deriving DecidableEq, Repr

/-- Why an instruction has no meaning in the model. -/
inductive Refusal where
  /-- Raised by an arm of `exec` whose instruction has no meaning yet; no arm does. Safe: the machine stops. -/
  | notModelled (mnemonic : String)
deriving DecidableEq, Repr

/-- What a step or a meaning answers. -/
abbrev Result := Host.Outcome State Fault Refusal

/-- The registers as reset leaves them (70_reset_and_hazards.md R271), on a block of parameters `c` with MEM `m`, nothing placed by the
host. `eng.cmd` is unspecified after reset and cannot be observed: 0 is a DESIGN CHOICE (log 3). -/
def State.resetWith (c : Config) (m : Memory) : State where
  config   := c
  eng      := { busy := false, cmd := 0#32 }
  err      := .ok
  haz      := false
  view     := { ethValid := false, ip4Valid := false, tcpValid := false, ip4Poor := false, tcpPoor := false }
  opnd     := { inOff := 0#32, inLen := 0#32, outOff := 0#32, payOff := 0#32, payLen := 0#32 }
  outLen   := 0#32
  eth      := { dstHi := 0#16, dstLo := 0#32, srcHi := 0#16, srcLo := 0#32, etype := 0#16, poff := 0#32, plen := 0#32 }
  ip4      := { src := 0#32, dst := 0#32, proto := 0#8, hlen := 0#6, poff := 0#32, plen := 0#32, csum := 0#16 }
  tcp      :=
    { sport := 0#16, dport := 0#16, seq := 0#32, ack := 0#32,
      flags := { fin := false, syn := false, rst := false, ack := false },
      win := 0#16, hlen := 0#6, poff := 0#32, plen := 0#32, phSrc := 0#32, phDst := 0#32, csum := 0#16 }
  acc      := { acc := 0#16, res := 0#16 }
  mem      := m
  resetPin := false
  bus      := []
  lastRead := none
  wait     := 0
  draws    := 0

/-- The machine right after reset (70_reset_and_hazards.md R270 to R272): every register at its reset value, no MEM byte written, reset
deasserted, and nothing yet to come from the host. MEM_SIZE is the examples' (log 1). -/
def State.reset : State := State.resetWith Config.examples []

end Sys2Proof.Machine
end

