-- ==== Sys2Proof/Machine/Flags.lean ====
section
/-! DEFINITION. The status-like values (10_state.md R59): result codes, STATUS and VIEWSTAT as words, the CLASS fields, the TCP flags. -/

namespace Sys2Proof.Machine

/-- The four bits of STATUS.ERR (60_exceptions.md R241). -/
def ResultCode.code : ResultCode → BitVec 4
  | .ok => 0#4
  | .notEnoughBytes => 1#4
  | .unsupportedVersion => 2#4
  | .regionRange => 3#4
  | .illegalCommand => 4#4
  | .segmentTooLong => 5#4

/-- One bit as a number. -/
def bit (b : Bool) : BitVec 1 := BitVec.ofBool b

/-- STATUS as the host reads it (10_state.md R36): BUSY at 0, ERR at 11:8, HAZ at 16, every other bit 0. -/
def State.statusWord (s : State) : Word :=
  0#15 ++ bit s.haz ++ 0#4 ++ s.err.code ++ 0#7 ++ bit s.eng.busy

/-- VIEWSTAT as the host reads it (10_state.md R38): the VALID bits at 2:0, the POOR bits at 9:8. -/
def ViewStat.word (v : ViewStat) : Word :=
  0#22 ++ bit v.tcpPoor ++ bit v.ip4Poor ++ 0#5 ++ bit v.tcpValid ++ bit v.ip4Valid ++ bit v.ethValid

/-- `classify_ethertype`: the CLASS of ETH_TYPE (10_state.md R43). -/
def classifyEtherType (v : Half) : BitVec 2 :=
  if v = 0x0800#16 then 1#2 else if v = 0x0806#16 then 2#2 else 0#2

/-- `classify_protocol`: the CLASS of IP4_PROTO (10_state.md R46). -/
def classifyProtocol (v : Byte) : BitVec 3 :=
  if v = 1#8 then 1#3 else if v = 6#8 then 2#3 else if v = 17#8 then 3#3 else 0#3

/-- The flags a byte 13, or a host write's low byte, stores: bits 0, 1, 2 and 4, every other bit dropped (10_state.md R53; 42_tcp.md R192). -/
def TcpFlags.ofByte (b : Byte) : TcpFlags :=
  { fin := b.getLsbD 0, syn := b.getLsbD 1, rst := b.getLsbD 2, ack := b.getLsbD 4 }

/-- The flags at their wire positions (10_state.md R53); bits 3 and 5 to 7 are 0. -/
def TcpFlags.toByte (f : TcpFlags) : Byte :=
  0#3 ++ bit f.ack ++ 0#1 ++ bit f.rst ++ bit f.syn ++ bit f.fin

/-- STATUS bit 16 of a written word: writing 1 clears HAZ, writing 0 leaves it (10_state.md R36). -/
def clearHaz (haz : Bool) (w : Word) : Bool := haz && !(w.getLsbD 16)

end Sys2Proof.Machine
end

