-- ==== Sys2Proof/Machine/Bytes.lean ====
section
/-! DEFINITION. Big-endian conversion (00_scope.md R15; 20_memory.md R85): every multi-byte wire field has its most significant byte
first. -/

namespace Sys2Proof.Machine

/-- `be_N(bs)` as a natural number: the unsigned value of the bytes, the first the most significant (00_scope.md R15). -/
def beNat (bs : List Byte) : Nat := bs.foldl (fun v b => v * 256 + b.toNat) 0

/-- `to_be_(8n)(v)`: the `n` bytes of `v mod 2^(8n)`, the most significant first (00_scope.md R15). -/
def toBe : (n : Nat) → (v : Nat) → List Byte
  | 0, _ => []
  | n + 1, v => BitVec.ofNat 8 (v >>> (8 * n)) :: toBe n v

/-- `to_be_16` of a 16-bit value. -/
def be16 (v : Half) : List Byte := toBe 2 v.toNat

/-- `to_be_32` of a 32-bit value. -/
def be32 (v : Word) : List Byte := toBe 4 v.toNat

/-- `to_be_48` of a MAC held as HI and LO: HI || LO is `be_48` of the address (10_state.md R42). -/
def beMac (hi : Half) (lo : Word) : List Byte := toBe 6 (hi.toNat <<< 32 + lo.toNat)

end Sys2Proof.Machine
end

