-- ==== Sys2Proof/Machine/Ops.lean ====
section
/-! DEFINITION. The named operations over MEM and over the state: the memory primitives of 00_scope.md R17, the region check of
20_memory.md R86, and completion with a result code (00_scope.md R18), which is what the block has in place of taking an exception
(60_exceptions.md R240, R245: there is no trap entry, so there is no return from one). -/

namespace Sys2Proof.Machine

/-- Read one byte of MEM; no value where nothing has written it (log 4). -/
def Memory.read : Memory → Nat → Option Byte
  | [], _ => Memory.unlisted
  | (x, b) :: m, a => if x = a then some b else Memory.read m a

/-- Write one byte of MEM, keeping the offsets rising. -/
def Memory.write : Memory → Nat → Byte → Memory
  | [], a, b => [(a, b)]
  | (x, c) :: m, a, b =>
    if a < x then (a, b) :: (x, c) :: m
    else if a = x then (a, b) :: m
    else (x, c) :: Memory.write m a b

/-- Make the `n` bytes from `a` unspecified again (70_reset_and_hazards.md R272, R273): they read as unlisted. -/
def Memory.erase (m : Memory) (a n : Nat) : Memory := m.filter (fun c => !(decide (a ≤ c.1) && decide (c.1 < a + n)))

/-- `MemReadBytes(a, n)` (00_scope.md R17): the bytes from `a` on in order, if every one of them has been written. -/
def Memory.readBytes (m : Memory) : (a n : Nat) → Option (List Byte)
  | _, 0 => some []
  | a, n + 1 =>
    match m.read a, Memory.readBytes m (a + 1) n with
    | some b, some bs => some (b :: bs)
    | _, _ => none

/-- `MemRead(a, n)` (00_scope.md R17): the big-endian value of the `n` bytes from `a`. -/
def Memory.readBE (m : Memory) (a n : Nat) : Option Nat := (m.readBytes a n).map beNat

/-- `MemWriteBytes(a, bs)` (00_scope.md R17): MEM[a+i] <- bs[i]. -/
def Memory.writeBytes : Memory → Nat → List Byte → Memory
  | m, _, [] => m
  | m, a, b :: bs => Memory.writeBytes (m.write a b) (a + 1) bs

/-- A region of `n` bytes at offset `o` is admitted iff o + n <= MEM_SIZE, on unbounded naturals (20_memory.md R86). -/
def regionAdmitted (c : Config) (o n : Nat) : Bool := decide (o + n ≤ c.memSize)

/-- End the running command with a result code: STATUS.ERR takes the code and `eng.busy` goes to 0 (00_scope.md R18; 10_state.md R70).
STATUS.HAZ, and everything the caller has not written, stays (10_state.md R36; 60_exceptions.md R244), the accepted word among it (log 14). -/
def finish (s : State) (c : ResultCode) : Result :=
  .next { s with err := c, eng := { s.eng with busy := false } }

/-- `complete`: the command ends successfully (00_scope.md R18). -/
def complete (s : State) : Result := finish s .ok

/-- `raise <Error>`: the command ends at once with the error's code (00_scope.md R18; 60_exceptions.md R240). -/
def raiseError (s : State) (c : ResultCode) : Result := finish s c

/-- Go on with what was read from MEM; a byte read that nothing has written is a fault of the model (70_reset_and_hazards.md R272). -/
def withRead {α : Type} (r : Option α) (k : α → Result) : Result :=
  match r with
  | some v => k v
  | none => .fault .unwrittenRead

end Sys2Proof.Machine
end

