-- ==== Sys2Proof/Machine/Operands.lean ====
section
/-! DEFINITION. The operands of the commands: the regions the operand registers name (10_state.md R39, R40), the region checks and the
payload snapshot that every build shares (20_memory.md R86, R90), and the payload window that the IPv4 and TCP parses share
(41_ipv4.md R161). -/

namespace Sys2Proof.Machine

/-- The offset of the input region (10_state.md R39). -/
def State.inStart (s : State) : Nat := s.opnd.inOff.toNat

/-- The length of the input region (10_state.md R39). -/
def State.inSize (s : State) : Nat := s.opnd.inLen.toNat

/-- The offset a build writes its first byte at (10_state.md R40). -/
def State.outStart (s : State) : Nat := s.opnd.outOff.toNat

/-- The offset of the payload source (10_state.md R40). -/
def State.payStart (s : State) : Nat := s.opnd.payOff.toNat

/-- The length of the payload source (10_state.md R40). -/
def State.paySize (s : State) : Nat := s.opnd.payLen.toNat

/-- The input region is inside MEM (20_memory.md R86). -/
def State.inputOk (s : State) : Bool := regionAdmitted s.config s.inStart s.inSize

/-- Both regions of a build with a header of `h` bytes are inside MEM: the payload, and the header with the payload behind it
(20_memory.md R86; 40_ethernet.md R142). -/
def State.buildOk (s : State) (h : Nat) : Bool :=
  regionAdmitted s.config s.payStart s.paySize && regionAdmitted s.config s.outStart (h + s.paySize)

/-- The payload snapshot of a build, read before any write (20_memory.md R90). -/
def State.payload (s : State) : Option (List Byte) := s.mem.readBytes s.payStart s.paySize

/-- The bytes of the input region, which the checksum commands sum (10_state.md R39). -/
def State.inputBytes (s : State) : Option (List Byte) := s.mem.readBytes s.inStart s.inSize

/-- Write a built frame at OUT_OFF and its length to OUT_LEN (10_state.md R41; 40_ethernet.md R142). -/
def State.emit (s : State) (frame : List Byte) : State :=
  { s with mem := s.mem.writeBytes s.outStart frame, outLen := BitVec.ofNat 32 frame.length }

/-- A build without a checksum: check the regions, take the payload snapshot, write the frame (40_ethernet.md R142; 41_ipv4.md R163;
42_tcp.md R193). `h` is the header's length and `frame` puts the header before the payload. -/
def buildFrame (s : State) (h : Nat) (frame : List Byte → List Byte) : Result :=
  if s.buildOk h then withRead s.payload fun pay => complete (s.emit (frame pay))
  else raiseError s .regionRange

/-- `PayloadWindow(o, n, h)` (41_ipv4.md R161): the payload's offset and length, and POOR. -/
def payloadWindow (o n h : Nat) : Nat × Nat × Bool :=
  if h ≤ n then (o + h, n - h, false) else (o + h, 0, true)

end Sys2Proof.Machine
end

