-- ==== Sys2Proof/Machine/Registers.lean ====
section
/-! DEFINITION. The register file as the host sees it (10_state.md R33 to R58): each register's address, the value a read returns, and
what a host write does while the engine is idle. -/

namespace Sys2Proof.Machine

/-- The address of a register (10_state.md R33). -/
def regAddr : Reg → Nat
  | .id => 0x000 | .cmd => 0x004 | .status => 0x008 | .viewstat => 0x00C
  | .inOff => 0x010 | .inLen => 0x014 | .outOff => 0x018 | .payOff => 0x01C | .payLen => 0x020 | .outLen => 0x024
  | .ethDstHi => 0x040 | .ethDstLo => 0x044 | .ethSrcHi => 0x048 | .ethSrcLo => 0x04C
  | .ethType => 0x050 | .ethPoff => 0x054 | .ethPlen => 0x058
  | .ip4Src => 0x080 | .ip4Dst => 0x084 | .ip4Proto => 0x088 | .ip4Hlen => 0x08C
  | .ip4Poff => 0x090 | .ip4Plen => 0x094 | .ip4Csum => 0x098
  | .tcpSport => 0x0C0 | .tcpDport => 0x0C4 | .tcpSeq => 0x0C8 | .tcpAck => 0x0CC | .tcpFlags => 0x0D0 | .tcpWin => 0x0D4
  | .tcpHlen => 0x0D8 | .tcpPoff => 0x0DC | .tcpPlen => 0x0E0 | .tcpPhSrc => 0x0E4 | .tcpPhDst => 0x0E8 | .tcpCsum => 0x0EC
  | .csumAcc => 0x100 | .csumRes => 0x104

/-- Every register, in the order of the map (10_state.md R33). -/
def allRegs : List Reg :=
  [.id, .cmd, .status, .viewstat, .inOff, .inLen, .outOff, .payOff, .payLen, .outLen,
   .ethDstHi, .ethDstLo, .ethSrcHi, .ethSrcLo, .ethType, .ethPoff, .ethPlen,
   .ip4Src, .ip4Dst, .ip4Proto, .ip4Hlen, .ip4Poff, .ip4Plen, .ip4Csum,
   .tcpSport, .tcpDport, .tcpSeq, .tcpAck, .tcpFlags, .tcpWin, .tcpHlen, .tcpPoff, .tcpPlen, .tcpPhSrc, .tcpPhDst, .tcpCsum,
   .csumAcc, .csumRes]

/-- The register at an address, if the map lists one there (10_state.md R33). -/
def regAt (a : Nat) : Option Reg := allRegs.find? (fun r => regAddr r == a)

/-- The constant ID reads (10_state.md R37). -/
def idValue : Word := 0x434C4231#32

/-- The true value of a register as a 32-bit read returns it: a field zero-extended, reserved bits 0 (10_state.md R33 to R58). -/
def State.readReg (s : State) : Reg → Word
  | .id => idValue
  | .cmd => 0#32
  | .status => s.statusWord
  | .viewstat => s.view.word
  | .inOff => s.opnd.inOff
  | .inLen => s.opnd.inLen
  | .outOff => s.opnd.outOff
  | .payOff => s.opnd.payOff
  | .payLen => s.opnd.payLen
  | .outLen => s.outLen
  | .ethDstHi => s.eth.dstHi.zeroExtend 32
  | .ethDstLo => s.eth.dstLo
  | .ethSrcHi => s.eth.srcHi.zeroExtend 32
  | .ethSrcLo => s.eth.srcLo
  | .ethType => 0#14 ++ classifyEtherType s.eth.etype ++ s.eth.etype
  | .ethPoff => s.eth.poff
  | .ethPlen => s.eth.plen
  | .ip4Src => s.ip4.src
  | .ip4Dst => s.ip4.dst
  | .ip4Proto => 0#21 ++ classifyProtocol s.ip4.proto ++ s.ip4.proto
  | .ip4Hlen => s.ip4.hlen.zeroExtend 32
  | .ip4Poff => s.ip4.poff
  | .ip4Plen => s.ip4.plen
  | .ip4Csum => s.ip4.csum.zeroExtend 32
  | .tcpSport => s.tcp.sport.zeroExtend 32
  | .tcpDport => s.tcp.dport.zeroExtend 32
  | .tcpSeq => s.tcp.seq
  | .tcpAck => s.tcp.ack
  | .tcpFlags => s.tcp.flags.toByte.zeroExtend 32
  | .tcpWin => s.tcp.win.zeroExtend 32
  | .tcpHlen => s.tcp.hlen.zeroExtend 32
  | .tcpPoff => s.tcp.poff
  | .tcpPlen => s.tcp.plen
  | .tcpPhSrc => s.tcp.phSrc
  | .tcpPhDst => s.tcp.phDst
  | .tcpCsum => s.tcp.csum.zeroExtend 32
  | .csumAcc => s.acc.acc.zeroExtend 32
  | .csumRes => s.acc.res.zeroExtend 32

/-- The engine, idle, accepts a command word: `eng.cmd` takes it and `eng.busy` goes to 1, the word unchecked (10_state.md R70, R71). LATENCY
is drawn here (log 2). -/
def acceptCommand (s : State) (w : Word) : State :=
  { s with eng := { busy := true, cmd := w }, wait := Config.extraLatency w s.draws, draws := s.draws + 1 }

/-- A host write to STATUS, busy or not: bit 16 is write-1-to-clear, every other bit is read-only (10_state.md R36; 70 R280). -/
def State.writeStatus (s : State) (w : Word) : State := { s with haz := clearHaz s.haz w }

/-- A host write to a register while the engine is idle (10_state.md R33 to R58): a write to a read-only register is ignored
(20_memory.md R89), and so are the reserved bits of any other (10_state.md R34). -/
def State.writeReg (s : State) (r : Reg) (w : Word) : State :=
  match r with
  | .cmd => acceptCommand s w
  | .status => s.writeStatus w
  | .inOff => { s with opnd := { s.opnd with inOff := w } }
  | .inLen => { s with opnd := { s.opnd with inLen := w } }
  | .outOff => { s with opnd := { s.opnd with outOff := w } }
  | .payOff => { s with opnd := { s.opnd with payOff := w } }
  | .payLen => { s with opnd := { s.opnd with payLen := w } }
  | .ethDstHi => { s with eth := { s.eth with dstHi := w.extractLsb' 0 16 } }
  | .ethDstLo => { s with eth := { s.eth with dstLo := w } }
  | .ethSrcHi => { s with eth := { s.eth with srcHi := w.extractLsb' 0 16 } }
  | .ethSrcLo => { s with eth := { s.eth with srcLo := w } }
  | .ethType => { s with eth := { s.eth with etype := w.extractLsb' 0 16 } }
  | .ip4Src => { s with ip4 := { s.ip4 with src := w } }
  | .ip4Dst => { s with ip4 := { s.ip4 with dst := w } }
  | .ip4Proto => { s with ip4 := { s.ip4 with proto := w.extractLsb' 0 8 } }
  | .tcpSport => { s with tcp := { s.tcp with sport := w.extractLsb' 0 16 } }
  | .tcpDport => { s with tcp := { s.tcp with dport := w.extractLsb' 0 16 } }
  | .tcpSeq => { s with tcp := { s.tcp with seq := w } }
  | .tcpAck => { s with tcp := { s.tcp with ack := w } }
  | .tcpFlags => { s with tcp := { s.tcp with flags := TcpFlags.ofByte (w.extractLsb' 0 8) } }
  | .tcpWin => { s with tcp := { s.tcp with win := w.extractLsb' 0 16 } }
  | .tcpPhSrc => { s with tcp := { s.tcp with phSrc := w } }
  | .tcpPhDst => { s with tcp := { s.tcp with phDst := w } }
  | .csumAcc => { s with acc := { s.acc with acc := w.extractLsb' 0 16 } }
  | .id | .viewstat | .outLen | .ethPoff | .ethPlen | .ip4Hlen | .ip4Poff | .ip4Plen | .ip4Csum
  | .tcpHlen | .tcpPoff | .tcpPlen | .tcpCsum | .csumRes => s

end Sys2Proof.Machine
end

