-- ==== Sys2Proof/Machine/Bus.lean ====
section
/-! DEFINITION. The host's bus accesses (20_memory.md R80 to R89; 70_reset_and_hazards.md R280, R281). -/

namespace Sys2Proof.Machine

/-- What an allowed access reaches: a register, one byte of MEM, or an aligned word of MEM (20_memory.md R82, R83). -/
inductive BusTarget where
  | reg (r : Reg)
  | memByte (i : Nat)
  | memWord (i : Nat)
deriving DecidableEq, Repr

/-- What an access of a width at an address reaches; none is a bus error (20_memory.md R80, R82, R83; 60_exceptions.md R247). -/
def busTarget (c : Config) (w : Width) (a : HostAddr) : Option BusTarget :=
  let n := a.toNat
  if n < 0x1000 then
    if w = .w32 then (regAt n).map .reg else none
  else if n < 0x10000 then none
  else
    let i := n - 0x10000
    if i < c.memSize then
      match w with
      | .w8 => some (.memByte i)
      | .w16 => none
      | .w32 => if i % 4 = 0 then some (.memWord i) else none
    else none

/-- The host receives the data of its read (log 10). -/
def State.answer (s : State) (v : Word) : State := { s with lastRead := some v }

/-- A read while the engine is idle: the defined value, with no side effect (20_memory.md R83, R89). -/
def readIdle (s : State) : BusTarget → Result
  | .reg r => .next (s.answer (s.readReg r))
  | .memByte i => withRead (s.mem.read i) fun b => .next (s.answer (b.zeroExtend 32))
  | .memWord i => withRead (s.mem.readBE i 4) fun v => .next (s.answer (BitVec.ofNat 32 v))

/-- The host receives a free value of the access width (70_reset_and_hazards.md R281; log 9), for an unwritten byte too (log 18). -/
def State.answerFree (s : State) (width : Nat) : State :=
  { s with lastRead := some (((Config.busyRead s.draws).setWidth width).setWidth 32), draws := s.draws + 1 }

/-- A read while a command runs: ID and STATUS read true, CMD reads 0, everything else is a free value (70_reset_and_hazards.md R281). -/
def readBusy (s : State) : BusTarget → State
  | .reg .id => s.answer idValue
  | .reg .status => s.answer s.statusWord
  | .reg .cmd => s.answer 0#32
  | .reg _ => s.answerFree 32
  | .memByte _ => s.answerFree 8
  | .memWord _ => s.answerFree 32

/-- A host read (20_memory.md R80 to R83). -/
def busRead (s : State) (w : Width) (a : HostAddr) : Result :=
  match busTarget s.config w a with
  | none => .fault .busError
  | some t => if s.eng.busy then .next (readBusy s t) else readIdle s t

/-- The four bytes of a 32-bit write to MEM, the one for the lowest offset from bits 31:24 (20_memory.md R83). -/
def wordBytes (d : Word) : List Byte :=
  [d.extractLsb' 24 8, d.extractLsb' 16 8, d.extractLsb' 8 8, d.extractLsb' 0 8]

/-- A write while the engine is idle takes effect (20_memory.md R83, R89); a byte write uses the low byte of its data (log 12). -/
def writeIdle (s : State) (d : Word) : BusTarget → State
  | .reg r => s.writeReg r d
  | .memByte i => { s with mem := s.mem.write i (d.extractLsb' 0 8) }
  | .memWord i => { s with mem := s.mem.writeBytes i (wordBytes d) }

/-- A write while a command runs: to STATUS it is performed, to anything else it is dropped and HAZ is set (70_reset_and_hazards.md R280). -/
def writeBusy (s : State) (d : Word) : BusTarget → State
  | .reg .status => s.writeStatus d
  | _ => { s with haz := true }

/-- A host write (20_memory.md R80 to R83; 70_reset_and_hazards.md R280). -/
def busWrite (s : State) (w : Width) (a : HostAddr) (d : Word) : Result :=
  match busTarget s.config w a with
  | none => .fault .busError
  | some t => if s.eng.busy then .next (writeBusy s d t) else .next (writeIdle s d t)

end Sys2Proof.Machine
end

