-- ==== Sys2Proof/Machine/Checksum.lean ====
section
/-! DEFINITION. The checksum arithmetic of the three engines: ones-complement addition and folding (00_scope.md R19), word formation
(43_checksum.md R220) and the Internet checksum (43_checksum.md R222). -/

namespace Sys2Proof.Machine

/-- `a +' w`: 16-bit addition with end-around carry (00_scope.md R19). -/
def onesAdd (a w : Half) : Half :=
  let s := a.toNat + w.toNat
  if s ≥ 0x10000 then BitVec.ofNat 16 (s - 0xFFFF) else BitVec.ofNat 16 s

/-- One round of folding, `(x & 0xFFFF) + (x >> 16)` (00_scope.md R19). -/
def foldOnce (x : Nat) : Nat := (x &&& 0xFFFF) + (x >>> 16)

/-- At most `fuel` rounds of folding, stopping as soon as no carry is left. -/
def foldFuel : (fuel : Nat) → (x : Nat) → Nat
  | 0, x => x
  | fuel + 1, x => if x > 0xFFFF then foldFuel fuel (foldOnce x) else x

/-- `fold(x)` (00_scope.md R19): fold the carries beyond bit 16 back in until none remains. A round makes a value above 0xFFFF smaller, so
`x` rounds are always enough. -/
def fold (x : Nat) : Nat := foldFuel x x

/-- `words(bs)`: the big-endian 16-bit words of a byte sequence, an odd last byte in the high half (43_checksum.md R220). -/
def words : List Byte → List Half
  | [] => []
  | [b] => [b ++ 0x00#8]
  | hi :: lo :: bs => (hi ++ lo) :: words bs

/-- The plain sum of 16-bit words, on unbounded naturals. -/
def sumWords (ws : List Half) : Nat := (ws.map BitVec.toNat).sum

/-- `inet_checksum(bs)` (43_checksum.md R222): sum the words, fold, complement. -/
def inetChecksum (bs : List Byte) : Half := ~~~(BitVec.ofNat 16 (fold (sumWords (words bs))))

/-- Add a list of words to an accumulator, one after another (43_checksum.md R225). -/
def accumulate (a : Half) (ws : List Half) : Half := ws.foldl onesAdd a

end Sys2Proof.Machine
end

