-- ==== Sys2Proof/Machine/Accumulator.lean ====
section
/-! DEFINITION. The generic checksum accumulator: CSUM_CLR, CSUM_ADDI, CSUM_ADDMEM and CSUM_FIN (43_checksum.md). -/

namespace Sys2Proof.Machine

/-- Write CSUM_ACC. -/
def State.setAcc (s : State) (a : Half) : State := { s with acc := { s.acc with acc := a } }

/-- Write CSUM_RES. -/
def State.setRes (s : State) (r : Half) : State := { s with acc := { s.acc with res := r } }

/-- CSUM_CLR (43_checksum.md R223). -/
def execCsumClr (s : State) : Result := complete (s.setAcc 0x0000#16)

/-- CSUM_ADDI (43_checksum.md R224): the immediate is used as it stands (30_encoding.md R111). -/
def execCsumAddi (k : Half) (s : State) : Result := complete (s.setAcc (onesAdd s.acc.acc k))

/-- CSUM_ADDMEM (43_checksum.md R225): the region's own odd last byte is padded. -/
def execCsumAddmem (s : State) : Result :=
  if s.inputOk then withRead s.inputBytes fun bs => complete (s.setAcc (accumulate s.acc.acc (words bs)))
  else raiseError s .regionRange

/-- CSUM_FIN (43_checksum.md R226): the accumulator keeps its value. -/
def execCsumFin (s : State) : Result := complete (s.setRes (~~~s.acc.acc))

end Sys2Proof.Machine
end

