-- ==== Sys2Proof/Machine/Ethernet.lean ====
section
/-! DEFINITION. The Ethernet unit: ETH_PARSE and ETH_BUILD (40_ethernet.md). -/

namespace Sys2Proof.Machine

/-- The decoded fields of an Ethernet II header (30_encoding.md R118), as big-endian values. -/
structure EthHeader where
  dst   : Nat
  src   : Nat
  etype : Nat
deriving DecidableEq, Repr

/-- Read the header bytes 0 to 13 at offset `o` (40_ethernet.md R140). -/
def readEthHeader (m : Memory) (o : Nat) : Option EthHeader :=
  match m.readBE o 6, m.readBE (o + 6) 6, m.readBE (o + 12) 2 with
  | some d, some s, some t => some { dst := d, src := s, etype := t }
  | _, _, _ => none

/-- Set VIEWSTAT.ETH_VALID. -/
def State.setEthValid (s : State) (v : Bool) : State := { s with view := { s.view with ethValid := v } }

/-- What a successful ETH_PARSE latches (40_ethernet.md R140). -/
def State.latchEth (s : State) (h : EthHeader) : State :=
  { s with
    eth :=
      { dstHi := BitVec.ofNat 16 (h.dst >>> 32), dstLo := BitVec.ofNat 32 h.dst
        srcHi := BitVec.ofNat 16 (h.src >>> 32), srcLo := BitVec.ofNat 32 h.src
        etype := BitVec.ofNat 16 h.etype
        poff := BitVec.ofNat 32 (s.inStart + 14), plen := BitVec.ofNat 32 (s.inSize - 14) } }

/-- ETH_PARSE (40_ethernet.md R140). -/
def execEthParse (s : State) : Result :=
  if !s.inputOk then raiseError (s.setEthValid false) .regionRange
  else if s.inSize < 14 then raiseError (s.setEthValid false) .notEnoughBytes
  else withRead (readEthHeader s.mem s.inStart) fun h => complete ((s.latchEth h).setEthValid true)

/-- The 14 header bytes ETH_BUILD writes (40_ethernet.md R142). -/
def ethHeaderBytes (r : EthRegs) : List Byte :=
  beMac r.dstHi r.dstLo ++ beMac r.srcHi r.srcLo ++ be16 r.etype

/-- ETH_BUILD (40_ethernet.md R142). -/
def execEthBuild (s : State) : Result :=
  buildFrame s 14 fun pay => ethHeaderBytes s.eth ++ pay

end Sys2Proof.Machine
end

