-- ==== Sys2Proof/Machine/Ipv4.lean ====
section
/-! DEFINITION. The IPv4 unit: IP4_PARSE, IP4_BUILD and IP4_CSUM (41_ipv4.md). -/

namespace Sys2Proof.Machine

/-- The decoded fields of an IPv4 header behind byte 0 (30_encoding.md R119), as big-endian values. -/
structure Ip4Header where
  proto : Nat
  src   : Nat
  dst   : Nat
deriving DecidableEq, Repr

/-- Read the bytes 9 and 12 to 19 of the header at offset `o`; the others are not read (41_ipv4.md R160). -/
def readIp4Header (m : Memory) (o : Nat) : Option Ip4Header :=
  match m.readBE (o + 9) 1, m.readBE (o + 12) 4, m.readBE (o + 16) 4 with
  | some p, some s, some d => some { proto := p, src := s, dst := d }
  | _, _, _ => none

/-- The version, the high nibble of byte 0 (30_encoding.md R119). -/
def ip4Version (b0 : Byte) : BitVec 4 := b0.extractLsb' 4 4

/-- The header length in bytes, 4 times the low nibble of byte 0 (41_ipv4.md R160, R162): decoded, not validated. -/
def ip4HeaderLen (b0 : Byte) : Nat := 4 * (b0.extractLsb' 0 4).toNat

/-- Set VIEWSTAT.IP4_VALID. -/
def State.setIp4Valid (s : State) (v : Bool) : State := { s with view := { s.view with ip4Valid := v } }

/-- What a successful IP4_PARSE latches (41_ipv4.md R160), given byte 0 and the fields behind it. -/
def State.latchIp4 (s : State) (b0 : Byte) (h : Ip4Header) : State :=
  let len := ip4HeaderLen b0
  let w := payloadWindow s.inStart s.inSize len
  { s with
    ip4 :=
      { s.ip4 with
        proto := BitVec.ofNat 8 h.proto, src := BitVec.ofNat 32 h.src, dst := BitVec.ofNat 32 h.dst
        hlen := BitVec.ofNat 6 len, poff := BitVec.ofNat 32 w.1, plen := BitVec.ofNat 32 w.2.1 }
    view := { s.view with ip4Poor := w.2.2 } }

/-- IP4_PARSE (41_ipv4.md R160): the checks in the order of 60_exceptions.md R243, byte 0 read only behind the length check. -/
def execIp4Parse (s : State) : Result :=
  if !s.inputOk then raiseError (s.setIp4Valid false) .regionRange
  else if s.inSize < 20 then raiseError (s.setIp4Valid false) .notEnoughBytes
  else withRead (s.mem.read s.inStart) fun b0 =>
    if ip4Version b0 ≠ 4#4 then raiseError (s.setIp4Valid false) .unsupportedVersion
    else withRead (readIp4Header s.mem s.inStart) fun h => complete ((s.latchIp4 b0 h).setIp4Valid true)

/-- The 20 header bytes IP4_BUILD writes (41_ipv4.md R163): version 4, IHL 5, and 0 in every byte the builder does not model. -/
def ip4HeaderBytes (r : Ip4Regs) : List Byte :=
  [0x45#8, 0x00#8, 0x00#8, 0x00#8, 0x00#8, 0x00#8, 0x00#8, 0x00#8, 0x00#8, r.proto, 0x00#8, 0x00#8] ++ be32 r.src ++ be32 r.dst

/-- IP4_BUILD (41_ipv4.md R163). -/
def execIp4Build (s : State) : Result :=
  buildFrame s 20 fun pay => ip4HeaderBytes s.ip4 ++ pay

/-- IP4_CSUM (41_ipv4.md R165). -/
def execIp4Csum (s : State) : Result :=
  if s.inputOk then withRead s.inputBytes fun bs => complete { s with ip4 := { s.ip4 with csum := inetChecksum bs } }
  else raiseError s .regionRange

end Sys2Proof.Machine
end

