-- ==== Sys2Proof/Machine/Tcp.lean ====
section
/-! DEFINITION. The TCP unit: TCP_PARSE, TCP_BUILD and TCP_BUILD_CSUM (42_tcp.md). -/

namespace Sys2Proof.Machine

/-- The decoded fields of a TCP header (30_encoding.md R120), as big-endian values; bytes 12 and 13 as they stand. -/
structure TcpHeader where
  sport : Nat
  dport : Nat
  seq   : Nat
  ack   : Nat
  b12   : Byte
  b13   : Byte
  win   : Nat
deriving DecidableEq, Repr

/-- Read the header bytes 0 to 15 at offset `o`; bytes 16 to 19 are not read (42_tcp.md R190). -/
def readTcpHeader (m : Memory) (o : Nat) : Option TcpHeader :=
  match m.readBE o 2, m.readBE (o + 2) 2, m.readBE (o + 4) 4, m.readBE (o + 8) 4, m.read (o + 12), m.read (o + 13),
    m.readBE (o + 14) 2 with
  | some sp, some dp, some sq, some ak, some b12, some b13, some w =>
    some { sport := sp, dport := dp, seq := sq, ack := ak, b12 := b12, b13 := b13, win := w }
  | _, _, _, _, _, _, _ => none

/-- The header length in bytes, 4 times the high nibble of byte 12 (42_tcp.md R190, R191): decoded, not validated. -/
def tcpHeaderLen (b12 : Byte) : Nat := 4 * (b12.extractLsb' 4 4).toNat

/-- Set VIEWSTAT.TCP_VALID. -/
def State.setTcpValid (s : State) (v : Bool) : State := { s with view := { s.view with tcpValid := v } }

/-- What a successful TCP_PARSE latches (42_tcp.md R190 to R192). -/
def State.latchTcp (s : State) (h : TcpHeader) : State :=
  let len := tcpHeaderLen h.b12
  let w := payloadWindow s.inStart s.inSize len
  { s with
    tcp :=
      { s.tcp with
        sport := BitVec.ofNat 16 h.sport, dport := BitVec.ofNat 16 h.dport
        seq := BitVec.ofNat 32 h.seq, ack := BitVec.ofNat 32 h.ack
        flags := TcpFlags.ofByte h.b13, win := BitVec.ofNat 16 h.win
        hlen := BitVec.ofNat 6 len, poff := BitVec.ofNat 32 w.1, plen := BitVec.ofNat 32 w.2.1 }
    view := { s.view with tcpPoor := w.2.2 } }

/-- TCP_PARSE (42_tcp.md R190). -/
def execTcpParse (s : State) : Result :=
  if !s.inputOk then raiseError (s.setTcpValid false) .regionRange
  else if s.inSize < 20 then raiseError (s.setTcpValid false) .notEnoughBytes
  else withRead (readTcpHeader s.mem s.inStart) fun h => complete ((s.latchTcp h).setTcpValid true)

/-- `TcpSegment(pay)` (42_tcp.md R193): the 20 header bytes, checksum field and bytes 18 to 19 zero, and the payload behind them. -/
def tcpSegment (r : TcpRegs) (pay : List Byte) : List Byte :=
  be16 r.sport ++ be16 r.dport ++ be32 r.seq ++ be32 r.ack ++ [0x50#8, r.flags.toByte &&& 0x17#8] ++ be16 r.win ++
    [0x00#8, 0x00#8] ++ [0x00#8, 0x00#8] ++ pay

/-- TCP_BUILD (42_tcp.md R193). -/
def execTcpBuild (s : State) : Result :=
  buildFrame s 20 fun pay => tcpSegment s.tcp pay

/-- `PseudoHeader(S, D, L)` (42_tcp.md R194). -/
def pseudoHeader (src dst : Word) (len : Nat) : List Byte :=
  be32 src ++ be32 dst ++ [0x00#8, 0x06#8] ++ toBe 2 len

/-- The checksum TCP_BUILD_CSUM computes over a segment whose checksum field is 0 (42_tcp.md R195). -/
def tcpChecksum (r : TcpRegs) (seg : List Byte) : Half :=
  inetChecksum (pseudoHeader r.phSrc r.phDst seg.length ++ seg)

/-- Put a checksum into bytes 16 and 17 of a segment, the high byte first (42_tcp.md R195). -/
def insertTcpChecksum (seg : List Byte) (c : Half) : List Byte :=
  (seg.set 16 (c.extractLsb' 8 8)).set 17 (c.extractLsb' 0 8)

/-- TCP_BUILD_CSUM (42_tcp.md R195): REGION_RANGE before SEGMENT_TOO_LONG (60_exceptions.md R243). -/
def execTcpBuildCsum (s : State) : Result :=
  if !s.buildOk 20 then raiseError s .regionRange
  else if 20 + s.paySize > 0xFFFF then raiseError s .segmentTooLong
  else withRead s.payload fun pay =>
    let seg := tcpSegment s.tcp pay
    let c := tcpChecksum s.tcp seg
    let t := s.emit (insertTcpChecksum seg c)
    complete { t with tcp := { t.tcp with csum := c } }

end Sys2Proof.Machine
end

