-- ==== Sys2Proof/Machine/Dispatch.lean ====
section
/-! DEFINITION. The dispatch of a legal command to its meaning (30_encoding.md R116). -/

namespace Sys2Proof.Machine

def exec (i : Instr) (s : State) : Host.Outcome State Fault Refusal :=
  match i with
  | .ethParse => Sys2Proof.Machine.execEthParse s
  | .ethBuild => Sys2Proof.Machine.execEthBuild s
  | .ip4Parse => Sys2Proof.Machine.execIp4Parse s
  | .ip4Build => Sys2Proof.Machine.execIp4Build s
  | .ip4Csum => Sys2Proof.Machine.execIp4Csum s
  | .tcpParse => Sys2Proof.Machine.execTcpParse s
  | .tcpBuild => Sys2Proof.Machine.execTcpBuild s
  | .tcpBuildCsum => Sys2Proof.Machine.execTcpBuildCsum s
  | .csumClr => Sys2Proof.Machine.execCsumClr s
  | .csumAddi k => Sys2Proof.Machine.execCsumAddi k s
  | .csumAddmem => Sys2Proof.Machine.execCsumAddmem s
  | .csumFin => Sys2Proof.Machine.execCsumFin s

end Sys2Proof.Machine
end

