-- ==== Sys2Proof/WellFormed.lean ====
section
/-! DEFINITION. When a command word is legal (30_encoding.md R114), when an instruction is well formed, and when a host access is.
An instruction's only operand, IMM16, is held at its own width, so every `Instr` is well formed; the checks that can fail are those
of R114 on the raw fields of a word, of R122 on the data of a narrow write, and of R122 on the alignment of `wrw` and `rdw`. -/

namespace Sys2Proof

/-- The operation codes of the opcode map (30_encoding.md R112). -/
def opcodeMap : List (BitVec 8) :=
  [0x10#8, 0x11#8, 0x20#8, 0x21#8, 0x22#8, 0x30#8, 0x31#8, 0x32#8, 0x40#8, 0x41#8, 0x42#8, 0x43#8]

/-- A command word is legal when none of the three conditions of 30_encoding.md R114 holds. -/
def CmdFields.legal (f : CmdFields) : Bool :=
  opcodeMap.contains f.opc && f.rsv == 0#8 && (f.opc == 0x41#8 || f.imm16 == 0#16)

/-- The raw fields an instruction stands for: its opcode, RSV = 0, and IMM16, which only CSUM_ADDI uses (30_encoding.md R110 to R112). -/
def Instr.fields : Instr → CmdFields
  | .ethParse => ⟨0x10#8, 0#8, 0#16⟩
  | .ethBuild => ⟨0x11#8, 0#8, 0#16⟩
  | .ip4Parse => ⟨0x20#8, 0#8, 0#16⟩
  | .ip4Build => ⟨0x21#8, 0#8, 0#16⟩
  | .ip4Csum => ⟨0x22#8, 0#8, 0#16⟩
  | .tcpParse => ⟨0x30#8, 0#8, 0#16⟩
  | .tcpBuild => ⟨0x31#8, 0#8, 0#16⟩
  | .tcpBuildCsum => ⟨0x32#8, 0#8, 0#16⟩
  | .csumClr => ⟨0x40#8, 0#8, 0#16⟩
  | .csumAddi k => ⟨0x41#8, 0#8, k⟩
  | .csumAddmem => ⟨0x42#8, 0#8, 0#16⟩
  | .csumFin => ⟨0x43#8, 0#8, 0#16⟩

/-- An instruction is well formed when its fields are a legal command (30_encoding.md R114). -/
def Instr.wellFormed (i : Instr) : Bool := i.fields.legal

/-- A host access is well formed when the data of a write fits the access (30_encoding.md R122: `wrb` carries a byte). The machine does
not rely on it: a narrow write uses the low bits of its data (log 12). -/
def HostEvent.wellFormed : HostEvent → Bool
  | .write w _ d => decide (d.toNat < 2 ^ w.bits)
  | _ => true

/-- A host statement is well formed when a word access to MEM names a multiple of 4 (30_encoding.md R122). -/
def HostStmt.wellFormed : HostStmt → Bool
  | .wrw m _ => m.toNat % 4 == 0
  | .rdw m => m.toNat % 4 == 0
  | _ => true

end Sys2Proof
end

