-- ==== Sys2Proof/Decode.lean ====
section
/-! DEFINITION. Decoding of command words (30_encoding.md R110 to R116), total on 32-bit words and refusing by name, and the encoder. -/

namespace Sys2Proof

/-- Why a word is no command: the three conditions of 30_encoding.md R114, in the rule's order. -/
inductive DecodeError where
  /-- Condition 1: w[7:0] is not an OPC of R112. -/
  | unlistedOpc (opc : BitVec 8)
  /-- Condition 2: w[15:8] is not 0. -/
  | reservedNonzero (rsv : BitVec 8)
  /-- Condition 3: w[7:0] is not 0x41 and w[31:16] is not 0. -/
  | immediateNonzero (imm : Half)
deriving DecidableEq, Repr

/-- The command an operation code names (30_encoding.md R112, R116); CSUM_ADDI takes the word's IMM16. -/
def opcodeInstr (opc : BitVec 8) (imm : Half) : Option Instr :=
  match opc.toNat with
  | 0x10 => some .ethParse
  | 0x11 => some .ethBuild
  | 0x20 => some .ip4Parse
  | 0x21 => some .ip4Build
  | 0x22 => some .ip4Csum
  | 0x30 => some .tcpParse
  | 0x31 => some .tcpBuild
  | 0x32 => some .tcpBuildCsum
  | 0x40 => some .csumClr
  | 0x41 => some (.csumAddi imm)
  | 0x42 => some .csumAddmem
  | 0x43 => some .csumFin
  | _ => none

/-- Split a command word into its fields (30_encoding.md R110). -/
def CmdFields.ofWord (w : Word) : CmdFields :=
  { opc := w.extractLsb' 0 8, rsv := w.extractLsb' 8 8, imm16 := w.extractLsb' 16 16 }

/-- Decode the fields of a command word (30_encoding.md R114, R116). -/
def decodeFields (f : CmdFields) : Except DecodeError Instr :=
  match opcodeInstr f.opc f.imm16 with
  | none => .error (.unlistedOpc f.opc)
  | some i =>
    if f.rsv ≠ 0#8 then .error (.reservedNonzero f.rsv)
    else if f.opc ≠ 0x41#8 ∧ f.imm16 ≠ 0#16 then .error (.immediateNonzero f.imm16)
    else .ok i

/-- Decode a command word (30_encoding.md R115: every word is either legal or illegal). -/
def decodeWord (w : Word) : Except DecodeError Instr := decodeFields (CmdFields.ofWord w)

/-- The instruction the decoder reads from a row's bits: bit 0 of `w` is bit 0 of the command word, and the bits at and above `nbits`
are 0. No command has more than 32 bits (30_encoding.md R110). -/
def decodeTableWord (nbits w : Nat) : Option Instr :=
  if nbits ≤ 32 then (decodeWord (BitVec.ofNat 32 (w % 2 ^ nbits))).toOption else none

/-- Join the fields of CMD32 into a word (30_encoding.md R110). -/
def CmdFields.toWord (f : CmdFields) : Word := f.imm16 ++ f.rsv ++ f.opc

/-- The word of an instruction (30_encoding.md R110 to R112; opcode_table.json). -/
def encode : Instr → Word
  | .ethParse => 0x00000010#32
  | .ethBuild => 0x00000011#32
  | .ip4Parse => 0x00000020#32
  | .ip4Build => 0x00000021#32
  | .ip4Csum => 0x00000022#32
  | .tcpParse => 0x00000030#32
  | .tcpBuild => 0x00000031#32
  | .tcpBuildCsum => 0x00000032#32
  | .csumClr => 0x00000040#32
  | .csumAddi k => k ++ 0x0041#16
  | .csumAddmem => 0x00000042#32
  | .csumFin => 0x00000043#32

end Sys2Proof
end

