-- ==== Sys2Proof/Machine/ResetInput.lean ====
section
/-! DEFINITION. The reset input (70_reset_and_hazards.md R270 to R273). -/

namespace Sys2Proof.Machine

/-- How many bytes from OUT_OFF on a command writes (30_encoding.md R113): its write region; 0 for a command that writes no MEM. -/
def writeSize (i : Instr) (s : State) : Nat :=
  match i with
  | .ethBuild => 14 + s.paySize
  | .ip4Build => 20 + s.paySize
  | .tcpBuild => 20 + s.paySize
  | .tcpBuildCsum => 20 + s.paySize
  | .ethParse | .ip4Parse | .ip4Csum | .tcpParse | .csumClr | .csumAddi _ | .csumAddmem | .csumFin => 0

/-- MEM after reset is asserted. While a command runs, the bytes of its write region become unspecified and every other keeps its value
(70_reset_and_hazards.md R273; log 6); otherwise every byte is unspecified (R272; log 5). -/
def State.memAfterReset (s : State) : Memory :=
  if s.eng.busy then
    match decodeWord s.eng.cmd with
    | .ok i => s.mem.erase s.outStart (writeSize i s)
    | .error _ => s.mem
  else []

/-- Reset is asserted: the registers take their reset values, a running command is abandoned, and the level holds until reset is deasserted
(70_reset_and_hazards.md R270 to R273). Asserting it again changes nothing. What the host still does, and what it has read, is the host's (log 15). -/
def assertReset (s : State) : State :=
  if s.resetPin then s
  else
    { State.resetWith s.config s.memAfterReset with
      resetPin := true, bus := s.bus, lastRead := s.lastRead, draws := s.draws }

/-- Reset is deasserted: the reset state stands (70_reset_and_hazards.md R270). -/
def deassertReset (s : State) : State := { s with resetPin := false }

end Sys2Proof.Machine
end

