-- ==== Sys2Proof/Machine/Cycle.lean ====
section
/-! DEFINITION. One cycle of the block: the engine's completion of a command (10_state.md R70; 30_encoding.md R116), or one input from
outside (20_memory.md R94; 70_reset_and_hazards.md R270). -/

namespace Sys2Proof.Machine

/-- `Exec(eng.cmd)` (30_encoding.md R116): the whole effect of the accepted word, an illegal one completing with ILLEGAL_COMMAND (R114). -/
def runCommand (s : State) : Result :=
  match decodeWord s.eng.cmd with
  | .ok i => exec i s
  | .error _ => raiseError s .illegalCommand

/-- One pass of the polling loop `wait` (30_encoding.md R124): a read of STATUS, and again from the next cycle on while BUSY is 1
(log 16). -/
def pollStatus (s : State) : State :=
  let t := s.answer s.statusWord
  if s.eng.busy then { t with bus := .poll :: s.bus } else t

/-- What one event from outside does while reset is not asserted. -/
def hostEvent (s : State) : HostEvent → Result
  | .idle => .next s
  | .read w a => busRead s w a
  | .write w a d => busWrite s w a d
  | .poll => .next (pollStatus s)
  | .assertReset => .next (assertReset s)
  | .deassertReset => .next (deassertReset s)

/-- What one event from outside does while reset is asserted: a host access is a host fault (70_reset_and_hazards.md R270). -/
def eventInReset (s : State) : HostEvent → Result
  | .idle => .next s
  | .assertReset => .next (assertReset s)
  | .deassertReset => .next (deassertReset s)
  | .read _ _ | .write _ _ _ | .poll => .fault .accessDuringReset

/-- One cycle of a running command's latency passes (00_scope.md R10). -/
def State.tick (s : State) : State := { s with wait := s.wait - 1 }

/-- A cycle in which no command completes: the next event from outside happens, or nothing does (60_exceptions.md R255: an idle block keeps
its state). -/
def outsideCycle (s : State) : Result :=
  match s.bus with
  | [] => .next s.tick
  | e :: rest =>
    let t := { s.tick with bus := rest }
    if s.resetPin then eventInReset t e else hostEvent t e

/-- The running command completes in this cycle (10_state.md R70): reset is not asserted and its latency has passed. -/
def State.due (s : State) : Bool := !s.resetPin && s.eng.busy && s.wait == 0

/-- One cycle: the engine completes its command when it is due, and otherwise the outside may act (20_memory.md R94). -/
def cycle (s : State) : Result := if s.due then runCommand s else outsideCycle s

/-- A command word put where the next cycle runs it: accepted, its latency passed, reset not asserted. -/
def placeCommand (s : State) (w : Word) : State :=
  { s with eng := { busy := true, cmd := w }, wait := 0, resetPin := false }

end Sys2Proof.Machine
end

