-- ==== Sys2Proof/Machine/Step.lean ====
section
/-! DEFINITION. The step of the machine, and the placing of a command word as the host's own questions need it. -/

namespace Sys2Proof.Machine

/-- One step: one cycle of the block (10_state.md R70; 20_memory.md R94). -/
def step (s : State) : Host.Outcome State Fault Refusal := cycle s

/-- The block with the command of bits `w` (the bits at and above `nbits` being 0) accepted and due, so that the very next step runs it. It
stands for the host's write of the word to CMD and the passing of its latency (log 8). -/
def State.withFetchWord (s : State) (nbits w : Nat) : State :=
  placeCommand s (BitVec.ofNat 32 (w % 2 ^ nbits))

end Sys2Proof.Machine
end

