-- ==== Sys2Proof/Machine/HostAsm.lean ====
section
/-! DEFINITION. The host's side as the spec writes it down: the statements of a host program and their bus accesses, the named constants,
and the pseudo-instructions (30_encoding.md R122 to R125). A host program is the list of its events, placed in `State.bus`. -/

namespace Sys2Proof.Machine

/-- The host address of a register (30_encoding.md R122). -/
def hostAddr (r : Reg) : HostAddr := BitVec.ofNat 17 (regAddr r)

/-- The host address of MEM[m] (20_memory.md R80). -/
def memAddr (m : Half) : HostAddr := BitVec.ofNat 17 (0x10000 + m.toNat)

/-- The bus access of a statement (30_encoding.md R122); `wait` is the polling loop of R124. -/
def stmtEvent : HostStmt → HostEvent
  | .wr r v => .write .w32 (hostAddr r) v
  | .rd r => .read .w32 (hostAddr r)
  | .wrb m b => .write .w8 (memAddr m) (b.zeroExtend 32)
  | .rdb m => .read .w8 (memAddr m)
  | .wrw m v => .write .w32 (memAddr m) v
  | .rdw m => .read .w32 (memAddr m)
  | .cmd i => .write .w32 (hostAddr .cmd) (encode i)
  | .cmdWord w => .write .w32 (hostAddr .cmd) w
  | .wait => .poll

/-- The events of a host program. -/
def hostProgram (p : List HostStmt) : List HostEvent := p.map stmtEvent

/-- A MAC address, its first wire byte first (00_scope.md R20, R21). -/
structure MacAddress where
  b0 : Byte
  b1 : Byte
  b2 : Byte
  b3 : Byte
  b4 : Byte
  b5 : Byte
deriving DecidableEq, Repr

/-! The named constants (30_encoding.md R123). -/

/-- BROADCAST (30_encoding.md R123). -/
def macBroadcast : MacAddress := ⟨0xff#8, 0xff#8, 0xff#8, 0xff#8, 0xff#8, 0xff#8⟩
/-- ETYPE_IPV4 (30_encoding.md R123). -/
def etypeIpv4 : Word := 0x0800#32
/-- ETYPE_ARP (30_encoding.md R123). -/
def etypeArp : Word := 0x0806#32
/-- PROTO_ICMP (30_encoding.md R123). -/
def protoIcmp : Word := 1#32
/-- PROTO_TCP (30_encoding.md R123). -/
def protoTcp : Word := 6#32
/-- PROTO_UDP (30_encoding.md R123). -/
def protoUdp : Word := 17#32
/-- FIN (30_encoding.md R123). -/
def flagFin : Word := 0x01#32
/-- SYN (30_encoding.md R123). -/
def flagSyn : Word := 0x02#32
/-- RST (30_encoding.md R123). -/
def flagRst : Word := 0x04#32
/-- ACK (30_encoding.md R123). -/
def flagAck : Word := 0x10#32
/-- FLAGS_SYN (30_encoding.md R123). -/
def flagsSyn : Word := 0x02#32
/-- FLAGS_SYN_ACK (30_encoding.md R123). -/
def flagsSynAck : Word := 0x12#32
/-- FLAGS_ACK (30_encoding.md R123). -/
def flagsAck : Word := 0x10#32
/-- FLAGS_FIN_ACK (30_encoding.md R123). -/
def flagsFinAck : Word := 0x11#32

/-- The register value of an IPv4 address a.b.c.d (00_scope.md R20). -/
def ipValue (a b c d : Byte) : Word := a ++ b ++ c ++ d

/-- `run OP` (30_encoding.md R124). -/
def asmRun (i : Instr) : List HostStmt := [.cmd i, .wait]

/-- `wr.mac` with the registers of the destination or of the source (30_encoding.md R124). -/
def asmWrMac (hi lo : Reg) (m : MacAddress) : List HostStmt :=
  [.wr hi ((m.b0 ++ m.b1).zeroExtend 32), .wr lo (m.b2 ++ m.b3 ++ m.b4 ++ m.b5)]

/-- `wr.mac ETH_DST, m` (30_encoding.md R124). -/
def asmWrMacDst (m : MacAddress) : List HostStmt := asmWrMac .ethDstHi .ethDstLo m

/-- `wr.mac ETH_SRC, m` (30_encoding.md R124). -/
def asmWrMacSrc (m : MacAddress) : List HostStmt := asmWrMac .ethSrcHi .ethSrcLo m

/-- `wr.ip NAME, a.b.c.d` (30_encoding.md R124). -/
def asmWrIp (r : Reg) (a b c d : Byte) : List HostStmt := [.wr r (ipValue a b c d)]

/-- `wrbytes m, b0 b1 ... bk` (30_encoding.md R124). Where an offset passes 0xFFFF the spec names no address; DESIGN CHOICE: the offset is
added in 16 bits, so it goes on from 0 (log 19). -/
def asmWrBytes : (m : Half) → List Byte → List HostStmt
  | _, [] => []
  | m, b :: bs => .wrb m b :: asmWrBytes (m + 1) bs

/-- The words `csum.ph S, D, L` adds (30_encoding.md R124). -/
def pseudoWords (src dst : Word) (len : Half) : List Half :=
  [src.extractLsb' 16 16, src.extractLsb' 0 16, dst.extractLsb' 16 16, dst.extractLsb' 0 16, 0x0006#16, len]

/-- `csum.ph S, D, L` (30_encoding.md R124): the TCP pseudo-header words, one CSUM_ADDI each. -/
def asmCsumPh (src dst : Word) (len : Half) : List HostStmt :=
  (pseudoWords src dst len).flatMap fun k => asmRun (.csumAddi k)

/-- `ins.ipcsum m` (30_encoding.md R124; 41_ipv4.md R166), the value `c` being what its read of IP4_CSUM returned: the host computes the two
bytes itself. That the checksum stands at bytes 10 and 11 is general knowledge, as the spec marks it (log 13). DESIGN CHOICE: m + 10 and
m + 11 are added in 16 bits, as in `asmWrBytes` (log 19). -/
def asmInsIpCsum (m : Half) (c : Half) : List HostStmt :=
  [.rd .ip4Csum, .wrb (m + 10) (c.extractLsb' 8 8), .wrb (m + 11) (c.extractLsb' 0 8)]

end Sys2Proof.Machine
end

