-- ==== Sys2Proof/Safety.lean ====
section
/-! DEFINITION. The terms claims are stated in: the state a completed command leaves, the MEM a command reads and writes, the invariant
every step keeps, and what a well-behaved host owes (70_reset_and_hazards.md R283). -/

namespace Sys2Proof.Machine

/-- The state a command leaves by ending with a result code and writing nothing else (00_scope.md R18). -/
def State.finished (s : State) (c : ResultCode) : State :=
  { s with err := c, eng := { s.eng with busy := false } }

/-- The MEM regions a command reads once its checks have passed, each as offset and length (30_encoding.md R113). -/
def readRegions (i : Instr) (s : State) : List (Nat × Nat) :=
  match i with
  | .ethParse => [(s.inStart, 14)]
  | .ip4Parse => [(s.inStart, 1), (s.inStart + 9, 1), (s.inStart + 12, 8)]
  | .tcpParse => [(s.inStart, 16)]
  | .ethBuild | .ip4Build | .tcpBuild | .tcpBuildCsum => [(s.payStart, s.paySize)]
  | .ip4Csum | .csumAddmem => [(s.inStart, s.inSize)]
  | .csumClr | .csumAddi _ | .csumFin => []

/-- The offset `a` lies in a region of `n` bytes at `o`. -/
def inRegion (a o n : Nat) : Prop := o ≤ a ∧ a < o + n

/-- The offset `a` is one the command reads (30_encoding.md R113). -/
def State.reads (s : State) (i : Instr) (a : Nat) : Prop := ∃ r ∈ readRegions i s, inRegion a r.1 r.2

/-- The offset `a` is in the command's write region (30_encoding.md R113). -/
def State.writes (s : State) (i : Instr) (a : Nat) : Prop := inRegion a s.outStart (writeSize i s)

/-- The host has written every MEM byte the command reads (70_reset_and_hazards.md R274, R283). -/
def State.inputsWritten (s : State) (i : Instr) : Prop := ∀ a, s.reads i a → (s.mem.read a).isSome

/-- Apply a change of state to an answer that has a next state. -/
def mapNext (f : State → State) : Result → Result
  | .next s => .next (f s)
  | .fault x => .fault x
  | .refused x => .refused x

/-- The engine is idle and reset is not asserted: the host may act (60_exceptions.md R250). -/
def State.idle (s : State) : Prop := s.resetPin = false ∧ s.eng.busy = false

/-- A command runs and this cycle does not complete it (10_state.md R70). -/
def State.running (s : State) : Prop := s.resetPin = false ∧ s.eng.busy = true ∧ 0 < s.wait

/-- The next step completes the running command (10_state.md R70). -/
def State.completing (s : State) : Prop := s.resetPin = false ∧ s.eng.busy = true ∧ s.wait = 0

/-- An event from outside that neither resets the block nor is a bus error (70_reset_and_hazards.md R283). -/
def orderly (c : Config) : HostEvent → Prop
  | .read w a => busTarget c w a ≠ none
  | .write w a _ => busTarget c w a ≠ none
  | .assertReset => False
  | .idle | .poll | .deassertReset => True

/-- The Ethernet II frame of 30_encoding.md R118: destination, source, EtherType, payload, each byte written out. -/
def wireEth (r : EthRegs) (pay : List Byte) : List Byte :=
  [r.dstHi.extractLsb' 8 8, r.dstHi.extractLsb' 0 8,
   r.dstLo.extractLsb' 24 8, r.dstLo.extractLsb' 16 8, r.dstLo.extractLsb' 8 8, r.dstLo.extractLsb' 0 8,
   r.srcHi.extractLsb' 8 8, r.srcHi.extractLsb' 0 8,
   r.srcLo.extractLsb' 24 8, r.srcLo.extractLsb' 16 8, r.srcLo.extractLsb' 8 8, r.srcLo.extractLsb' 0 8,
   r.etype.extractLsb' 8 8, r.etype.extractLsb' 0 8] ++ pay

/-- The IPv4 packet a build writes (30_encoding.md R119), each byte written out. -/
def wireIp4 (r : Ip4Regs) (pay : List Byte) : List Byte :=
  [0x45#8, 0x00#8, 0x00#8, 0x00#8, 0x00#8, 0x00#8, 0x00#8, 0x00#8, 0x00#8, r.proto, 0x00#8, 0x00#8,
   r.src.extractLsb' 24 8, r.src.extractLsb' 16 8, r.src.extractLsb' 8 8, r.src.extractLsb' 0 8,
   r.dst.extractLsb' 24 8, r.dst.extractLsb' 16 8, r.dst.extractLsb' 8 8, r.dst.extractLsb' 0 8] ++ pay

/-- The flags byte: the bitwise OR of the set flags' wire values (10_state.md R53). -/
def wireFlags (f : TcpFlags) : Byte :=
  (if f.fin then 0x01#8 else 0x00#8) ||| (if f.syn then 0x02#8 else 0x00#8) |||
    (if f.rst then 0x04#8 else 0x00#8) ||| (if f.ack then 0x10#8 else 0x00#8)

/-- The TCP segment a build writes with checksum `c` (30_encoding.md R120), each byte written out. -/
def wireTcp (r : TcpRegs) (c : Half) (pay : List Byte) : List Byte :=
  [r.sport.extractLsb' 8 8, r.sport.extractLsb' 0 8, r.dport.extractLsb' 8 8, r.dport.extractLsb' 0 8,
   r.seq.extractLsb' 24 8, r.seq.extractLsb' 16 8, r.seq.extractLsb' 8 8, r.seq.extractLsb' 0 8,
   r.ack.extractLsb' 24 8, r.ack.extractLsb' 16 8, r.ack.extractLsb' 8 8, r.ack.extractLsb' 0 8,
   0x50#8, wireFlags r.flags, r.win.extractLsb' 8 8, r.win.extractLsb' 0 8,
   c.extractLsb' 8 8, c.extractLsb' 0 8, 0x00#8, 0x00#8] ++ pay

/-- The pseudo-header of a segment of `len` bytes (42_tcp.md R194), each byte written out. -/
def wirePseudo (src dst : Word) (len : Half) : List Byte :=
  [src.extractLsb' 24 8, src.extractLsb' 16 8, src.extractLsb' 8 8, src.extractLsb' 0 8,
   dst.extractLsb' 24 8, dst.extractLsb' 16 8, dst.extractLsb' 8 8, dst.extractLsb' 0 8,
   0x00#8, 0x06#8, len.extractLsb' 8 8, len.extractLsb' 0 8]

/-- `N(x)` of 43_checksum.md R221: 0 for 0, and otherwise the value in 1..0xFFFF congruent to x modulo 0xFFFF. -/
def onesResidue (x : Nat) : Nat := if x = 0 then 0 else 1 + (x - 1) % 0xFFFF

/-- A region of the command is not admitted (20_memory.md R86). -/
def State.badRegion (s : State) : Instr → Prop
  | .ethParse | .ip4Parse | .tcpParse | .ip4Csum | .csumAddmem => s.config.memSize < s.inStart + s.inSize
  | .ethBuild => s.config.memSize < s.payStart + s.paySize ∨ s.config.memSize < s.outStart + 14 + s.paySize
  | .ip4Build | .tcpBuild | .tcpBuildCsum =>
    s.config.memSize < s.payStart + s.paySize ∨ s.config.memSize < s.outStart + 20 + s.paySize
  | .csumClr | .csumAddi _ | .csumFin => False

/-- A parse with IN_LEN below the layer's fixed header size (60_exceptions.md R241). -/
def State.tooShort (s : State) : Instr → Prop
  | .ethParse => s.inSize < 14
  | .ip4Parse | .tcpParse => s.inSize < 20
  | .ethBuild | .ip4Build | .ip4Csum | .tcpBuild | .tcpBuildCsum | .csumClr | .csumAddi _ | .csumAddmem | .csumFin => False

/-- TCP_BUILD_CSUM with 20 + PAY_LEN > 0xFFFF (60_exceptions.md R241). -/
def State.tooLong (s : State) (i : Instr) : Prop := i = .tcpBuildCsum ∧ 0xFFFF < 20 + s.paySize

/-- IP4_PARSE with the high nibble of byte 0 not 4 (60_exceptions.md R241). -/
def State.wrongVersion (s : State) (i : Instr) : Prop :=
  i = .ip4Parse ∧ ∃ b, s.mem.read s.inStart = some b ∧ b.toNat / 16 ≠ 4

/-- The bits of a register its field table names (10_state.md R33 to R58); every other bit is reserved (R34). -/
def namedBits : Reg → Word
  | .cmd => 0x00000000#32
  | .status => 0x00010F01#32
  | .viewstat => 0x00000307#32
  | .ethDstHi | .ethSrcHi | .tcpSport | .tcpDport | .tcpWin | .ip4Csum | .tcpCsum | .csumAcc | .csumRes => 0x0000FFFF#32
  | .ethType => 0x0003FFFF#32
  | .ip4Proto => 0x000007FF#32
  | .ip4Hlen | .tcpHlen => 0x0000003F#32
  | .tcpFlags => 0x00000017#32
  | .id | .inOff | .inLen | .outOff | .payOff | .payLen | .outLen | .ethDstLo | .ethSrcLo | .ethPoff | .ethPlen
  | .ip4Src | .ip4Dst | .ip4Poff | .ip4Plen | .tcpSeq | .tcpAck | .tcpPoff | .tcpPlen | .tcpPhSrc | .tcpPhDst => 0xFFFFFFFF#32

/-- The bits of a register the host may write and read back (10_state.md R33): its RW bits. -/
def writableBits : Reg → Word
  | .inOff | .inLen | .outOff | .payOff | .payLen | .ethDstLo | .ethSrcLo
  | .ip4Src | .ip4Dst | .tcpSeq | .tcpAck | .tcpPhSrc | .tcpPhDst => 0xFFFFFFFF#32
  | .ethDstHi | .ethSrcHi | .ethType | .tcpSport | .tcpDport | .tcpWin | .csumAcc => 0x0000FFFF#32
  | .ip4Proto => 0x000000FF#32
  | .tcpFlags => 0x00000017#32
  | .id | .cmd | .status | .viewstat | .outLen | .ethPoff | .ethPlen | .ip4Hlen | .ip4Poff | .ip4Plen | .ip4Csum
  | .tcpHlen | .tcpPoff | .tcpPlen | .tcpCsum | .csumRes => 0x00000000#32

/-- The host address of each register, as the map of 10_state.md R33 lists it: written out a second time, not taken from `regAddr`. -/
def mapAddress : Reg → HostAddr
  | .id => 0x00000#17
  | .cmd => 0x00004#17
  | .status => 0x00008#17
  | .viewstat => 0x0000C#17
  | .inOff => 0x00010#17
  | .inLen => 0x00014#17
  | .outOff => 0x00018#17
  | .payOff => 0x0001C#17
  | .payLen => 0x00020#17
  | .outLen => 0x00024#17
  | .ethDstHi => 0x00040#17
  | .ethDstLo => 0x00044#17
  | .ethSrcHi => 0x00048#17
  | .ethSrcLo => 0x0004C#17
  | .ethType => 0x00050#17
  | .ethPoff => 0x00054#17
  | .ethPlen => 0x00058#17
  | .ip4Src => 0x00080#17
  | .ip4Dst => 0x00084#17
  | .ip4Proto => 0x00088#17
  | .ip4Hlen => 0x0008C#17
  | .ip4Poff => 0x00090#17
  | .ip4Plen => 0x00094#17
  | .ip4Csum => 0x00098#17
  | .tcpSport => 0x000C0#17
  | .tcpDport => 0x000C4#17
  | .tcpSeq => 0x000C8#17
  | .tcpAck => 0x000CC#17
  | .tcpFlags => 0x000D0#17
  | .tcpWin => 0x000D4#17
  | .tcpHlen => 0x000D8#17
  | .tcpPoff => 0x000DC#17
  | .tcpPlen => 0x000E0#17
  | .tcpPhSrc => 0x000E4#17
  | .tcpPhDst => 0x000E8#17
  | .tcpCsum => 0x000EC#17
  | .csumAcc => 0x00100#17
  | .csumRes => 0x00104#17

/-- The number of a result code in the table of 60_exceptions.md R241. -/
def errNumber : ResultCode → Nat
  | .ok => 0
  | .notEnoughBytes => 1
  | .unsupportedVersion => 2
  | .regionRange => 3
  | .illegalCommand => 4
  | .segmentTooLong => 5

/-- The weight of a register's bit where it is set. -/
def bitWeight (b : Bool) (weight : Nat) : Nat := if b then weight else 0

/-- What each register holds, field by field with the weights of its field table (10_state.md R35 to R58): written out a second time in
numbers, not taken from `readReg`. -/
def State.held (s : State) : Reg → Nat
  | .id => 0x434C4231
  | .cmd => 0
  | .status => bitWeight s.eng.busy 0x1 + 0x100 * errNumber s.err + bitWeight s.haz 0x10000
  | .viewstat =>
    bitWeight s.view.ethValid 0x1 + bitWeight s.view.ip4Valid 0x2 + bitWeight s.view.tcpValid 0x4 +
      bitWeight s.view.ip4Poor 0x100 + bitWeight s.view.tcpPoor 0x200
  | .inOff => s.opnd.inOff.toNat
  | .inLen => s.opnd.inLen.toNat
  | .outOff => s.opnd.outOff.toNat
  | .payOff => s.opnd.payOff.toNat
  | .payLen => s.opnd.payLen.toNat
  | .outLen => s.outLen.toNat
  | .ethDstHi => s.eth.dstHi.toNat
  | .ethDstLo => s.eth.dstLo.toNat
  | .ethSrcHi => s.eth.srcHi.toNat
  | .ethSrcLo => s.eth.srcLo.toNat
  | .ethType =>
    s.eth.etype.toNat + 0x10000 * (if s.eth.etype.toNat = 0x0800 then 1 else if s.eth.etype.toNat = 0x0806 then 2 else 0)
  | .ethPoff => s.eth.poff.toNat
  | .ethPlen => s.eth.plen.toNat
  | .ip4Src => s.ip4.src.toNat
  | .ip4Dst => s.ip4.dst.toNat
  | .ip4Proto =>
    s.ip4.proto.toNat +
      0x100 * (if s.ip4.proto.toNat = 1 then 1 else if s.ip4.proto.toNat = 6 then 2 else if s.ip4.proto.toNat = 17 then 3 else 0)
  | .ip4Hlen => s.ip4.hlen.toNat
  | .ip4Poff => s.ip4.poff.toNat
  | .ip4Plen => s.ip4.plen.toNat
  | .ip4Csum => s.ip4.csum.toNat
  | .tcpSport => s.tcp.sport.toNat
  | .tcpDport => s.tcp.dport.toNat
  | .tcpSeq => s.tcp.seq.toNat
  | .tcpAck => s.tcp.ack.toNat
  | .tcpFlags =>
    bitWeight s.tcp.flags.fin 0x01 + bitWeight s.tcp.flags.syn 0x02 + bitWeight s.tcp.flags.rst 0x04 + bitWeight s.tcp.flags.ack 0x10
  | .tcpWin => s.tcp.win.toNat
  | .tcpHlen => s.tcp.hlen.toNat
  | .tcpPoff => s.tcp.poff.toNat
  | .tcpPlen => s.tcp.plen.toNat
  | .tcpPhSrc => s.tcp.phSrc.toNat
  | .tcpPhDst => s.tcp.phDst.toNat
  | .tcpCsum => s.tcp.csum.toNat
  | .csumAcc => s.acc.acc.toNat
  | .csumRes => s.acc.res.toNat

/-- What a 32-bit read of a register shows. -/
def State.shown (s : State) (r : Reg) : Word := BitVec.ofNat 32 (s.held r)

/-- An access the address map allows (20_memory.md R80, R82, R83), the register addresses written out. -/
def allowedAccess (c : Config) (w : Width) (a : HostAddr) : Prop :=
  (w = .w32 ∧ a.toNat ∈
    [0x000, 0x004, 0x008, 0x00C, 0x010, 0x014, 0x018, 0x01C, 0x020, 0x024,
     0x040, 0x044, 0x048, 0x04C, 0x050, 0x054, 0x058,
     0x080, 0x084, 0x088, 0x08C, 0x090, 0x094, 0x098,
     0x0C0, 0x0C4, 0x0C8, 0x0CC, 0x0D0, 0x0D4, 0x0D8, 0x0DC, 0x0E0, 0x0E4, 0x0E8, 0x0EC, 0x100, 0x104]) ∨
  (0x10000 ≤ a.toNat ∧ a.toNat - 0x10000 < c.memSize ∧ (w = .w8 ∨ w = .w32 ∧ (a.toNat - 0x10000) % 4 = 0))

/-- The state a cycle leaves in which the outside's next event is taken from the list and does nothing else. -/
def State.afterEvent (s : State) (rest : List HostEvent) : State := { s with bus := rest, wait := s.wait - 1 }

/-- The invariant of the block, kept by every step from every state that has it. -/
structure State.Inv (s : State) : Prop where
  /-- MEM keeps its canonical form. -/
  memCanonical : s.mem.wf
  /-- Every written byte lies below MEM_SIZE (10_state.md R60). -/
  memInRange : ∀ c ∈ s.mem, c.1 < s.config.memSize
  /-- While reset is asserted no command runs (70_reset_and_hazards.md R270, R271). -/
  resetIdle : s.resetPin = true → s.eng.busy = false
  /-- No latency is outstanding while no command runs. -/
  idleWait : s.eng.busy = false → s.wait = 0
  /-- IP4_HLEN is a multiple of 4 (10_state.md R47); six bits and this bound it by 60. -/
  ip4Hlen : s.ip4.hlen.toNat % 4 = 0
  /-- TCP_HLEN is a multiple of 4 (10_state.md R54). -/
  tcpHlen : s.tcp.hlen.toNat % 4 = 0
  /-- The Ethernet payload window lies inside MEM (40_ethernet.md R140). -/
  ethWindow : s.eth.poff.toNat + s.eth.plen.toNat ≤ s.config.memSize
  /-- The IPv4 payload window lies inside MEM, or POOR is set and it is empty (41_ipv4.md R161). -/
  ip4Window : (s.view.ip4Poor = true → s.ip4.plen = 0#32) ∧
    (s.view.ip4Poor = false → s.ip4.poff.toNat + s.ip4.plen.toNat ≤ s.config.memSize)
  /-- The TCP payload window lies inside MEM, or POOR is set and it is empty (42_tcp.md R191). -/
  tcpWindow : (s.view.tcpPoor = true → s.tcp.plen = 0#32) ∧
    (s.view.tcpPoor = false → s.tcp.poff.toNat + s.tcp.plen.toNat ≤ s.config.memSize)

end Sys2Proof.Machine
end

