-- ==== Sys2Proof/Certificates/Slice0/Obligations.lean ====
section
/-! DEFINITION. The statements for the provers: what the numbered rules of the spec say the block does. -/

open Sys2Proof Sys2Proof.Machine

/-! ## The commands: each rule whole, with its frame. A next state is written as a record update, so it says that nothing else changes. -/

/-- ETH_PARSE (40_ethernet.md R140): its word, its two errors, and what it latches from the 14 header bytes. -/
def Obligations.EthParseFollowsItsRule : Prop :=
  encode .ethParse = 0x00000010#32 ∧ ∀ s : State,
    (s.config.memSize < s.inStart + s.inSize →
      exec .ethParse s = .next (State.finished { s with view := { s.view with ethValid := false } } .regionRange)) ∧
    (s.inStart + s.inSize ≤ s.config.memSize → s.inSize < 14 →
      exec .ethParse s = .next (State.finished { s with view := { s.view with ethValid := false } } .notEnoughBytes)) ∧
    (s.inStart + s.inSize ≤ s.config.memSize → 14 ≤ s.inSize →
      ∀ d0 d1 d2 d3 d4 d5 e0 e1 e2 e3 e4 e5 t0 t1 : Byte,
        s.mem.readBytes s.inStart 14 = some [d0, d1, d2, d3, d4, d5, e0, e1, e2, e3, e4, e5, t0, t1] →
        exec .ethParse s = .next (State.finished { s with
          eth :=
            { dstHi := d0 ++ d1, dstLo := d2 ++ d3 ++ d4 ++ d5, srcHi := e0 ++ e1, srcLo := e2 ++ e3 ++ e4 ++ e5
              etype := t0 ++ t1, poff := s.opnd.inOff + 14#32, plen := s.opnd.inLen - 14#32 }
          view := { s.view with ethValid := true } } .ok))

/-- ETH_BUILD (40_ethernet.md R142): its word, REGION_RANGE, and the frame it writes at OUT_OFF, the payload being the snapshot. -/
def Obligations.EthBuildFollowsItsRule : Prop :=
  encode .ethBuild = 0x00000011#32 ∧ ∀ s : State,
    (s.config.memSize < s.payStart + s.paySize ∨ s.config.memSize < s.outStart + 14 + s.paySize →
      exec .ethBuild s = .next (s.finished .regionRange)) ∧
    (s.payStart + s.paySize ≤ s.config.memSize → s.outStart + 14 + s.paySize ≤ s.config.memSize →
      ∀ pay, s.mem.readBytes s.payStart s.paySize = some pay →
        ∃ t, exec .ethBuild s = .next t ∧
          t = State.finished { s with mem := t.mem, outLen := 14#32 + s.opnd.payLen } .ok ∧
          t.mem.readBytes s.outStart (14 + s.paySize) = some (wireEth s.eth pay) ∧
          ∀ a, ¬ inRegion a s.outStart (14 + s.paySize) → t.mem.read a = s.mem.read a)

/-- IP4_PARSE (41_ipv4.md R160): its word, its three errors in their order, and what it latches from the bytes it reads. -/
def Obligations.Ip4ParseFollowsItsRule : Prop :=
  encode .ip4Parse = 0x00000020#32 ∧ ∀ s : State,
    (s.config.memSize < s.inStart + s.inSize →
      exec .ip4Parse s = .next (State.finished { s with view := { s.view with ip4Valid := false } } .regionRange)) ∧
    (s.inStart + s.inSize ≤ s.config.memSize → s.inSize < 20 →
      exec .ip4Parse s = .next (State.finished { s with view := { s.view with ip4Valid := false } } .notEnoughBytes)) ∧
    (s.inStart + s.inSize ≤ s.config.memSize → 20 ≤ s.inSize → ∀ b0 : Byte, s.mem.read s.inStart = some b0 →
      (b0.toNat / 16 ≠ 4 →
        exec .ip4Parse s = .next (State.finished { s with view := { s.view with ip4Valid := false } } .unsupportedVersion)) ∧
      (b0.toNat / 16 = 4 → ∀ p a0 a1 a2 a3 c0 c1 c2 c3 : Byte, s.mem.read (s.inStart + 9) = some p →
        s.mem.readBytes (s.inStart + 12) 8 = some [a0, a1, a2, a3, c0, c1, c2, c3] →
        exec .ip4Parse s = .next (State.finished { s with
          ip4 :=
            { s.ip4 with
              proto := p, src := a0 ++ a1 ++ a2 ++ a3, dst := c0 ++ c1 ++ c2 ++ c3
              hlen := BitVec.ofNat 6 (4 * (b0.toNat % 16))
              poff := s.opnd.inOff + BitVec.ofNat 32 (4 * (b0.toNat % 16))
              plen := if 4 * (b0.toNat % 16) ≤ s.inSize then s.opnd.inLen - BitVec.ofNat 32 (4 * (b0.toNat % 16)) else 0#32 }
          view := { s.view with ip4Valid := true, ip4Poor := decide (s.inSize < 4 * (b0.toNat % 16)) } } .ok)))

/-- IP4_BUILD (41_ipv4.md R163): its word, REGION_RANGE, and the packet it writes. -/
def Obligations.Ip4BuildFollowsItsRule : Prop :=
  encode .ip4Build = 0x00000021#32 ∧ ∀ s : State,
    (s.config.memSize < s.payStart + s.paySize ∨ s.config.memSize < s.outStart + 20 + s.paySize →
      exec .ip4Build s = .next (s.finished .regionRange)) ∧
    (s.payStart + s.paySize ≤ s.config.memSize → s.outStart + 20 + s.paySize ≤ s.config.memSize →
      ∀ pay, s.mem.readBytes s.payStart s.paySize = some pay →
        ∃ t, exec .ip4Build s = .next t ∧
          t = State.finished { s with mem := t.mem, outLen := 20#32 + s.opnd.payLen } .ok ∧
          t.mem.readBytes s.outStart (20 + s.paySize) = some (wireIp4 s.ip4 pay) ∧
          ∀ a, ¬ inRegion a s.outStart (20 + s.paySize) → t.mem.read a = s.mem.read a)

/-- IP4_CSUM (41_ipv4.md R165): its word, REGION_RANGE, and its result, the Internet checksum of the region: the complement of N of the sum
of the region's words. -/
def Obligations.Ip4CsumFollowsItsRule : Prop :=
  encode .ip4Csum = 0x00000022#32 ∧ ∀ s : State,
    (s.config.memSize < s.inStart + s.inSize → exec .ip4Csum s = .next (s.finished .regionRange)) ∧
    (s.inStart + s.inSize ≤ s.config.memSize → ∀ bs, s.mem.readBytes s.inStart s.inSize = some bs →
      exec .ip4Csum s = .next (State.finished { s with
        ip4 := { s.ip4 with csum := ~~~(BitVec.ofNat 16 (onesResidue (sumWords (words bs)))) } } .ok))

/-- TCP_PARSE (42_tcp.md R190): its word, its two errors, and what it latches from the header bytes 0 to 15. -/
def Obligations.TcpParseFollowsItsRule : Prop :=
  encode .tcpParse = 0x00000030#32 ∧ ∀ s : State,
    (s.config.memSize < s.inStart + s.inSize →
      exec .tcpParse s = .next (State.finished { s with view := { s.view with tcpValid := false } } .regionRange)) ∧
    (s.inStart + s.inSize ≤ s.config.memSize → s.inSize < 20 →
      exec .tcpParse s = .next (State.finished { s with view := { s.view with tcpValid := false } } .notEnoughBytes)) ∧
    (s.inStart + s.inSize ≤ s.config.memSize → 20 ≤ s.inSize →
      ∀ p0 p1 d0 d1 q0 q1 q2 q3 k0 k1 k2 k3 b12 b13 w0 w1 : Byte,
        s.mem.readBytes s.inStart 16 = some [p0, p1, d0, d1, q0, q1, q2, q3, k0, k1, k2, k3, b12, b13, w0, w1] →
        exec .tcpParse s = .next (State.finished { s with
          tcp :=
            { s.tcp with
              sport := p0 ++ p1, dport := d0 ++ d1, seq := q0 ++ q1 ++ q2 ++ q3, ack := k0 ++ k1 ++ k2 ++ k3
              flags := { fin := b13.getLsbD 0, syn := b13.getLsbD 1, rst := b13.getLsbD 2, ack := b13.getLsbD 4 }
              win := w0 ++ w1
              hlen := BitVec.ofNat 6 (4 * (b12.toNat / 16))
              poff := s.opnd.inOff + BitVec.ofNat 32 (4 * (b12.toNat / 16))
              plen := if 4 * (b12.toNat / 16) ≤ s.inSize then s.opnd.inLen - BitVec.ofNat 32 (4 * (b12.toNat / 16)) else 0#32 }
          view := { s.view with tcpValid := true, tcpPoor := decide (s.inSize < 4 * (b12.toNat / 16)) } } .ok))

/-- TCP_BUILD (42_tcp.md R193): its word, REGION_RANGE, and the segment it writes, checksum field zero. -/
def Obligations.TcpBuildFollowsItsRule : Prop :=
  encode .tcpBuild = 0x00000031#32 ∧ ∀ s : State,
    (s.config.memSize < s.payStart + s.paySize ∨ s.config.memSize < s.outStart + 20 + s.paySize →
      exec .tcpBuild s = .next (s.finished .regionRange)) ∧
    (s.payStart + s.paySize ≤ s.config.memSize → s.outStart + 20 + s.paySize ≤ s.config.memSize →
      ∀ pay, s.mem.readBytes s.payStart s.paySize = some pay →
        ∃ t, exec .tcpBuild s = .next t ∧
          t = State.finished { s with mem := t.mem, outLen := 20#32 + s.opnd.payLen } .ok ∧
          t.mem.readBytes s.outStart (20 + s.paySize) = some (wireTcp s.tcp 0#16 pay) ∧
          ∀ a, ¬ inRegion a s.outStart (20 + s.paySize) → t.mem.read a = s.mem.read a)

/-- TCP_BUILD_CSUM (42_tcp.md R195): its word, its two errors in their order, and the segment it writes with the checksum over
pseudo-header and segment. SEGMENT_TOO_LONG is possible only where MEM_SIZE is 65536. -/
def Obligations.TcpBuildCsumFollowsItsRule : Prop :=
  encode .tcpBuildCsum = 0x00000032#32 ∧ ∀ s : State,
    (s.config.memSize < s.payStart + s.paySize ∨ s.config.memSize < s.outStart + 20 + s.paySize →
      exec .tcpBuildCsum s = .next (s.finished .regionRange)) ∧
    (s.payStart + s.paySize ≤ s.config.memSize → s.outStart + 20 + s.paySize ≤ s.config.memSize →
      (0xFFFF < 20 + s.paySize →
        s.config.memSize = 65536 ∧ exec .tcpBuildCsum s = .next (s.finished .segmentTooLong)) ∧
      (20 + s.paySize ≤ 0xFFFF → ∀ pay, s.mem.readBytes s.payStart s.paySize = some pay →
        ∃ t c, c = inetChecksum (wirePseudo s.tcp.phSrc s.tcp.phDst (BitVec.ofNat 16 (20 + s.paySize)) ++ wireTcp s.tcp 0#16 pay) ∧
          exec .tcpBuildCsum s = .next t ∧
          t = State.finished { s with
            mem := t.mem, outLen := 20#32 + s.opnd.payLen, tcp := { s.tcp with csum := c } } .ok ∧
          t.mem.readBytes s.outStart (20 + s.paySize) = some (wireTcp s.tcp c pay) ∧
          ∀ a, ¬ inRegion a s.outStart (20 + s.paySize) → t.mem.read a = s.mem.read a))

/-- CSUM_CLR, CSUM_ADDI and CSUM_FIN (43_checksum.md R223, R224, R226): the accumulator cleared; the immediate added to it with the carry out of
bit 15 added back; CSUM_RES takes 0xFFFF minus the accumulator, which keeps its value. None has an error. -/
def Obligations.AccumulatorCommandsFollowTheirRules : Prop :=
  encode .csumClr = 0x00000040#32 ∧ encode .csumFin = 0x00000043#32 ∧
  ∀ (k : Half) (s : State), encode (.csumAddi k) = k ++ 0x0041#16 ∧
    exec .csumClr s = .next (State.finished { s with acc := { acc := 0x0000#16, res := s.acc.res } } .ok) ∧
    exec (.csumAddi k) s = .next (State.finished { s with
      acc :=
        { acc := s.acc.acc + k + (if 0x10000 ≤ s.acc.acc.toNat + k.toNat then 1#16 else 0#16)
          res := s.acc.res } } .ok) ∧
    exec .csumFin s = .next (State.finished { s with acc := { acc := s.acc.acc, res := 0xFFFF#16 - s.acc.acc } } .ok)

/-- CSUM_ADDMEM (43_checksum.md R225): its word, REGION_RANGE, and the accumulator, N of its old value plus the region's words. -/
def Obligations.CsumAddmemFollowsItsRule : Prop :=
  encode .csumAddmem = 0x00000042#32 ∧ ∀ s : State,
    (s.config.memSize < s.inStart + s.inSize → exec .csumAddmem s = .next (s.finished .regionRange)) ∧
    (s.inStart + s.inSize ≤ s.config.memSize → ∀ bs, s.mem.readBytes s.inStart s.inSize = some bs →
      exec .csumAddmem s = .next (State.finished { s with
        acc :=
          { acc := BitVec.ofNat 16 (onesResidue (s.acc.acc.toNat + sumWords (words bs)))
            res := s.acc.res } } .ok))

/-! ## Payload windows and flags -/

/-- IHL (41_ipv4.md R162): decoded for every nibble, never validated, the fields read at their fixed offsets whatever it is. -/
def Obligations.IhlIsDecodedNotValidated : Prop :=
  ∀ (s t : State) (b0 : Byte), s.inStart + s.inSize ≤ s.config.memSize → 20 ≤ s.inSize →
    s.mem.read s.inStart = some b0 → b0.toNat / 16 = 4 → exec .ip4Parse s = .next t →
    t.err = .ok ∧ t.ip4.hlen.toNat = 4 * (b0.toNat % 16) ∧
    (b0.toNat % 16 < 5 →
      s.inStart ≤ t.ip4.poff.toNat ∧ t.ip4.poff.toNat < s.inStart + 20 ∧
      t.ip4.poff.toNat + t.ip4.plen.toNat = s.inStart + s.inSize) ∧
    (b0.toNat % 16 = 0 → t.ip4.poff = s.opnd.inOff ∧ t.ip4.plen = s.opnd.inLen) ∧
    s.mem.read (s.inStart + 9) = some t.ip4.proto ∧
    s.mem.readBE (s.inStart + 12) 4 = some t.ip4.src.toNat ∧ s.mem.readBE (s.inStart + 16) 4 = some t.ip4.dst.toNat

/-- The payload window of both parses (41_ipv4.md R161; 42_tcp.md R191): exact up to the region's end, empty and POOR past it. -/
def Obligations.PayloadWindowsFollowTheirRule : Prop :=
  (∀ (s t : State) (b0 : Byte) (h : Nat), exec .ip4Parse s = .next t → s.inStart + s.inSize ≤ s.config.memSize → 20 ≤ s.inSize →
    s.mem.read s.inStart = some b0 → b0.toNat / 16 = 4 → h = 4 * (b0.toNat % 16) →
    t.err = .ok ∧ t.ip4.hlen.toNat = h ∧ t.ip4.poff.toNat = s.inStart + h ∧
    (h ≤ s.inSize → t.ip4.plen.toNat = s.inSize - h ∧ t.view.ip4Poor = false) ∧
    (s.inSize < h → t.ip4.plen.toNat = 0 ∧ t.view.ip4Poor = true)) ∧
  (∀ (s t : State) (b12 : Byte) (h : Nat), exec .tcpParse s = .next t → s.inStart + s.inSize ≤ s.config.memSize → 20 ≤ s.inSize →
    s.mem.read (s.inStart + 12) = some b12 → h = 4 * (b12.toNat / 16) →
    t.err = .ok ∧ t.tcp.hlen.toNat = h ∧ t.tcp.poff.toNat = s.inStart + h ∧
    (h ≤ s.inSize → t.tcp.plen.toNat = s.inSize - h ∧ t.view.tcpPoor = false) ∧
    (s.inSize < h → t.tcp.plen.toNat = 0 ∧ t.view.tcpPoor = true))

/-- Flag extraction (42_tcp.md R192): TCP_FLAGS reads byte 13 with every bit but 0, 1, 2 and 4 dropped, and each flag is its own bit. -/
def Obligations.TcpFlagsAreBitsOfByte13 : Prop :=
  ∀ (s t : State) (b13 : Byte), exec .tcpParse s = .next t → t.err = .ok → s.mem.read (s.inStart + 13) = some b13 →
    t.readReg .tcpFlags = (b13 &&& 0x17#8).zeroExtend 32 ∧
    (t.tcp.flags.fin = true ↔ b13 &&& 0x01#8 ≠ 0#8) ∧ (t.tcp.flags.syn = true ↔ b13 &&& 0x02#8 ≠ 0#8) ∧
    (t.tcp.flags.rst = true ↔ b13 &&& 0x04#8 ≠ 0#8) ∧ (t.tcp.flags.ack = true ↔ b13 &&& 0x10#8 ≠ 0#8)

/-! ## Round trips -/

/-- The Ethernet round-trip law (40_ethernet.md R143). `u` is any state in which the parse reads the built frame. -/
def Obligations.EthernetRoundTrip : Prop :=
  ∀ (s t u : State) (pay : List Byte), exec .ethBuild s = .next t → t.err = .ok →
    s.mem.readBytes s.payStart s.paySize = some pay →
    u.config = s.config → u.opnd.inOff = s.opnd.outOff → u.opnd.inLen = t.outLen →
    (∀ a, inRegion a s.outStart t.outLen.toNat → u.mem.read a = t.mem.read a) →
    ∃ v, exec .ethParse u = .next v ∧ v.err = .ok ∧ v.view.ethValid = true ∧
      v.eth = { s.eth with poff := s.opnd.outOff + 14#32, plen := s.opnd.payLen } ∧
      v.mem.readBytes v.eth.poff.toNat v.eth.plen.toNat = some pay

/-- The IPv4 round-trip law (41_ipv4.md R164), whether or not header bytes 10 and 11 have been written in between. -/
def Obligations.Ipv4RoundTrip : Prop :=
  ∀ s t u : State, exec .ip4Build s = .next t → t.err = .ok →
    u.config = s.config → u.opnd.inOff = s.opnd.outOff → u.opnd.inLen = t.outLen →
    (∀ a, inRegion a s.outStart t.outLen.toNat → a ≠ s.outStart + 10 → a ≠ s.outStart + 11 → u.mem.read a = t.mem.read a) →
    ∃ v, exec .ip4Parse u = .next v ∧ v.err = .ok ∧ v.view.ip4Poor = false ∧
      v.ip4 = { s.ip4 with hlen := 20#6, poff := s.opnd.outOff + 20#32, plen := s.opnd.payLen, csum := u.ip4.csum }

/-- The TCP round-trip law (42_tcp.md R197), for both builds. -/
def Obligations.TcpRoundTrip : Prop :=
  ∀ (i : Instr) (s t u : State), i = .tcpBuild ∨ i = .tcpBuildCsum → exec i s = .next t → t.err = .ok →
    u.config = s.config → u.opnd.inOff = s.opnd.outOff → u.opnd.inLen = t.outLen →
    (∀ a, inRegion a s.outStart t.outLen.toNat → u.mem.read a = t.mem.read a) →
    ∃ v, exec .tcpParse u = .next v ∧ v.err = .ok ∧ v.view.tcpPoor = false ∧
      v.tcp = { s.tcp with
        hlen := 20#6, poff := s.opnd.outOff + 20#32, plen := s.opnd.payLen
        phSrc := u.tcp.phSrc, phDst := u.tcp.phDst, csum := u.tcp.csum }

/-! ## Checksum arithmetic -/

/-- The ones-complement laws (43_checksum.md R221), all six. -/
def Obligations.OnesComplementLaws : Prop :=
  (∀ a b : Half, (onesAdd a b).toNat = onesResidue (a.toNat + b.toNat)) ∧
  (∀ x : Nat, fold x = onesResidue x) ∧
  (∀ a b c : Half, onesAdd a b = onesAdd b a ∧ onesAdd (onesAdd a b) c = onesAdd a (onesAdd b c) ∧ onesAdd 0#16 a = a) ∧
  (∀ (a : Half) (ws : List Half), (ws.foldl onesAdd a).toNat = onesResidue (a.toNat + sumWords ws) ∧
    (ws.foldl onesAdd 0#16).toNat = fold (sumWords ws)) ∧
  (∀ (a : Half) (ws : List Half), ws.foldl onesAdd a = 0#16 ↔ a = 0#16 ∧ ∀ w ∈ ws, w = 0#16) ∧
  (∀ a : Half, onesAdd a (~~~a) = 0xFFFF#16)

/-- Word formation (43_checksum.md R220): word i is bytes 2i and 2i+1, an odd last byte in the high half. -/
def Obligations.WordsAreBigEndianPairs : Prop :=
  ∀ bs : List Byte, (words bs).length = (bs.length + 1) / 2 ∧
    (∀ (i : Nat) (h l : Byte), bs[2 * i]? = some h → bs[2 * i + 1]? = some l → (words bs)[i]? = some (h ++ l)) ∧
    (∀ (i : Nat) (h : Byte), bs[2 * i]? = some h → bs[2 * i + 1]? = none → (words bs)[i]? = some (h ++ 0x00#8)) ∧
    (bs.length % 2 = 1 → words bs = words (bs ++ [0x00#8]))

/-- The Internet checksum (43_checksum.md R222): both forms agree, and the empty sequence gives 0xFFFF. -/
def Obligations.InternetChecksumForms : Prop :=
  (∀ bs : List Byte, inetChecksum bs = ~~~((words bs).foldl onesAdd 0#16)) ∧
  (∀ bs : List Byte, (inetChecksum bs).toNat = 0xFFFF - fold (sumWords (words bs))) ∧ inetChecksum [] = 0xFFFF#16

/-- Verification (43_checksum.md R227, law 2): inserting the checksum at an even place of zeros makes the sum fold to 0xFFFF. -/
def Obligations.InsertedChecksumVerifies : Prop :=
  ∀ pre post : List Byte, pre.length % 2 = 0 →
    let c := inetChecksum (pre ++ [0x00#8, 0x00#8] ++ post)
    let bs' := pre ++ [c.extractLsb' 8 8, c.extractLsb' 0 8] ++ post
    fold (sumWords (words bs')) = 0xFFFF ∧ inetChecksum bs' = 0x0000#16

/-- The accumulator path (43_checksum.md R227, law 1): CSUM_CLR, CSUM_ADDMEM, CSUM_FIN leave in CSUM_RES what IP4_CSUM leaves in IP4_CSUM. -/
def Obligations.AccumulatorGivesIp4Csum : Prop :=
  ∀ (s : State) (bs : List Byte), s.inStart + s.inSize ≤ s.config.memSize → s.inputBytes = some bs →
    ∃ s1 s2 s3 t, exec .csumClr s = .next s1 ∧ exec .csumAddmem s1 = .next s2 ∧ exec .csumFin s2 = .next s3 ∧
      exec .ip4Csum s = .next t ∧ s3.acc.res = inetChecksum bs ∧ t.ip4.csum = s3.acc.res

/-- The TCP checksum property (42_tcp.md R196). -/
def Obligations.BuiltSegmentVerifies : Prop :=
  ∀ s t : State, exec .tcpBuildCsum s = .next t → t.err = .ok →
    ∃ seg, t.mem.readBytes s.outStart t.outLen.toNat = some seg ∧
      fold (sumWords (words (pseudoHeader s.tcp.phSrc s.tcp.phDst t.outLen.toNat ++ seg))) = 0xFFFF ∧
      inetChecksum (pseudoHeader s.tcp.phSrc s.tcp.phDst t.outLen.toNat ++ seg) = 0x0000#16

/-- Run commands one after another. -/
def execAll : List Instr → State → Result
  | [], s => .next s
  | i :: is, s =>
    match exec i s with
    | .next t => execAll is t
    | .fault f => .fault f
    | .refused r => .refused r

/-- The pseudo-header checksum by the accumulator (43_checksum.md R227, law 3): CSUM_CLR, the six words of `csum.ph`, CSUM_ADDMEM over the
segment and CSUM_FIN give the checksum over pseudo-header and segment. -/
def Obligations.AccumulatorGivesPseudoHeaderChecksum : Prop :=
  ∀ (s : State) (src dst : Word) (seg : List Byte), s.inStart + s.inSize ≤ s.config.memSize → s.inputBytes = some seg →
    s.inSize ≤ 0xFFFF →
    ∃ t, execAll (.csumClr :: (pseudoWords src dst (BitVec.ofNat 16 s.inSize)).map .csumAddi ++ [.csumAddmem, .csumFin]) s = .next t ∧
      t.err = .ok ∧ t.mem = s.mem ∧ t.acc.res = inetChecksum (pseudoHeader src dst s.inSize ++ seg)

/-- Two CSUM_ADDMEM over adjacent regions, the first of even length, add what one over both adds (43_checksum.md R225, corner cases). -/
def Obligations.AdjacentEvenRegionsAddUp : Prop :=
  ∀ (s : State) (n1 n2 : Word) (t1 t2 t : State), n1.toNat % 2 = 0 →
    s.inStart + n1.toNat + n2.toNat ≤ s.config.memSize →
    exec .csumAddmem { s with opnd := { s.opnd with inLen := n1 } } = .next t1 →
    exec .csumAddmem { t1 with opnd := { s.opnd with inOff := s.opnd.inOff + n1, inLen := n2 } } = .next t2 →
    exec .csumAddmem { s with opnd := { s.opnd with inLen := n1 + n2 } } = .next t →
    t2.acc = t.acc

/-! ## Encoding -/

/-- Decode and encode agree: every well-formed instruction, with every immediate, is what its word decodes to (30_encoding.md R110 to R112). -/
def Obligations.DecodeOfEncode : Prop :=
  ∀ i : Instr, i.wellFormed = true → decodeWord (encode i) = .ok i

/-- No two words decode alike, and IMM16 is w[31:16] (30_encoding.md R110, R111): a word that decodes is the encoding of what it decodes to. -/
def Obligations.EncodeOfDecode : Prop :=
  ∀ (w : Word) (i : Instr), decodeWord w = .ok i →
    encode i = w ∧ i.wellFormed = true ∧ ∀ k, i = .csumAddi k → k.toNat = w.toNat / 0x10000

/-- Illegal words (30_encoding.md R114): exactly those of its three conditions are refused, and such a word, accepted and due, completes with
ILLEGAL_COMMAND and changes nothing else. -/
def Obligations.IllegalWordsAreRule114 : Prop :=
  ∀ w : Word,
    ((∀ i, decodeWord w ≠ .ok i) ↔
      w.toNat % 0x100 ∉ [0x10, 0x11, 0x20, 0x21, 0x22, 0x30, 0x31, 0x32, 0x40, 0x41, 0x42, 0x43] ∨
      w.toNat / 0x100 % 0x100 ≠ 0 ∨ (w.toNat % 0x100 ≠ 0x41 ∧ w.toNat / 0x10000 ≠ 0)) ∧
    ∀ s : State, s.completing → s.eng.cmd = w → (∀ i, decodeWord w ≠ .ok i) → step s = .next (s.finished .illegalCommand)

/-- Words of the opcode table decode to their commands (30_encoding.md R112). -/
def Obligations.TableWordsDecode : Prop :=
  decodeTableWord 32 0x00000010 = some .ethParse ∧ decodeTableWord 32 0x00000022 = some .ip4Csum ∧
  decodeTableWord 32 0x00000032 = some .tcpBuildCsum ∧ decodeTableWord 32 0xABCD0041 = some (.csumAddi 0xABCD#16) ∧
  decodeTableWord 32 0x00000043 = some .csumFin ∧ decodeTableWord 32 0x00010010 = none

/-! ## What every command does and leaves -/

/-- A step runs the decoded command (10_state.md R70; 30_encoding.md R116): once its latency has passed, `step` is `exec`. -/
def Obligations.StepRunsTheDecodedCommand : Prop :=
  ∀ (s : State) (i : Instr), s.completing → decodeWord s.eng.cmd = .ok i → step s = exec i s

/-- The result codes of each command (60_exceptions.md R242). -/
def Obligations.ResultCodesOfEachCommand : Prop :=
  (∀ (i : Instr) (s t : State), exec i s = .next t →
    match i with
    | .ethParse | .tcpParse => t.err ∈ [ResultCode.ok, .notEnoughBytes, .regionRange]
    | .ip4Parse => t.err ∈ [ResultCode.ok, .notEnoughBytes, .unsupportedVersion, .regionRange]
    | .ethBuild | .ip4Build | .ip4Csum | .tcpBuild | .csumAddmem => t.err ∈ [ResultCode.ok, .regionRange]
    | .tcpBuildCsum => t.err ∈ [ResultCode.ok, .regionRange, .segmentTooLong]
    | .csumClr | .csumAddi _ | .csumFin => t.err = .ok) ∧
  (∀ s : State, s.completing → (∀ i, decodeWord s.eng.cmd ≠ .ok i) → ∃ t, step s = .next t ∧ t.err = .illegalCommand)

/-- The priority of the causes (60_exceptions.md R243). -/
def Obligations.ErrorPriority : Prop :=
  (∀ s : State, s.completing → (∀ i, decodeWord s.eng.cmd ≠ .ok i) → ∃ t, step s = .next t ∧ t.err = .illegalCommand) ∧
  ∀ (i : Instr) (s t : State), exec i s = .next t →
    (s.badRegion i → t.err = .regionRange) ∧
    (¬ s.badRegion i → s.tooShort i → t.err = .notEnoughBytes) ∧
    (¬ s.badRegion i → s.tooLong i → t.err = .segmentTooLong) ∧
    (¬ s.badRegion i → ¬ s.tooShort i → s.wrongVersion i → t.err = .unsupportedVersion) ∧
    (¬ s.badRegion i → ¬ s.tooShort i → ¬ s.tooLong i → ¬ s.wrongVersion i → t.err = .ok) ∧
    ¬ (s.tooShort i ∧ s.tooLong i)

/-- What a failing command changes (60_exceptions.md R244): STATUS.ERR, and for a parse its own VALID bit, cleared. -/
def Obligations.FailingCommandChangesOnlyErr : Prop :=
  (∀ (i : Instr) (s t : State), exec i s = .next t → t.err ≠ .ok →
    t = State.finished { s with
      view :=
        { s.view with
          ethValid := if i = .ethParse then false else s.view.ethValid
          ip4Valid := if i = .ip4Parse then false else s.view.ip4Valid
          tcpValid := if i = .tcpParse then false else s.view.tcpValid } } t.err) ∧
  (∀ s t : State, s.completing → (∀ i, decodeWord s.eng.cmd ≠ .ok i) → step s = .next t → t = s.finished .illegalCommand)

/-- The VIEWSTAT bits (10_state.md R38): each at its place in the word, and written by its own layer's parse alone, VALID by every completion of
it and POOR by a successful one. -/
def Obligations.ViewBitsFollowTheirParse : Prop :=
  (∀ s : State, s.readReg .viewstat =
    (if s.view.ethValid then 0x001#32 else 0#32) ||| (if s.view.ip4Valid then 0x002#32 else 0#32) |||
    (if s.view.tcpValid then 0x004#32 else 0#32) ||| (if s.view.ip4Poor then 0x100#32 else 0#32) |||
    (if s.view.tcpPoor then 0x200#32 else 0#32)) ∧
  ∀ (i : Instr) (s t : State), exec i s = .next t →
    t.view.ethValid = (if i = .ethParse then decide (t.err = .ok) else s.view.ethValid) ∧
    t.view.ip4Valid = (if i = .ip4Parse then decide (t.err = .ok) else s.view.ip4Valid) ∧
    t.view.tcpValid = (if i = .tcpParse then decide (t.err = .ok) else s.view.tcpValid) ∧
    t.view.ip4Poor = (if i = .ip4Parse ∧ t.err = .ok then decide (s.inSize < t.ip4.hlen.toNat) else s.view.ip4Poor) ∧
    t.view.tcpPoor = (if i = .tcpParse ∧ t.err = .ok then decide (s.inSize < t.tcp.hlen.toNat) else s.view.tcpPoor)

/-- What no command writes (30_encoding.md R113; 10_state.md R36, R39, R40): operand registers, HAZ, every register and VIEWSTAT bit its row
does not list, and every MEM byte outside its write region. That the accepted word (log 14), the level of the reset input (log 15) and the
model's own fields (logs 1, 2, 7, 9 and 10) stay is the model's choice. -/
def Obligations.CommandsWriteOnlyTheirRow : Prop :=
  ∀ (i : Instr) (s t : State), exec i s = .next t →
    t.opnd = s.opnd ∧ t.haz = s.haz ∧ t.eng.busy = false ∧ t.eng.cmd = s.eng.cmd ∧ t.config = s.config ∧
    t.resetPin = s.resetPin ∧ t.bus = s.bus ∧ t.lastRead = s.lastRead ∧ t.wait = s.wait ∧ t.draws = s.draws ∧
    (i ∉ [Instr.ethBuild, .ip4Build, .tcpBuild, .tcpBuildCsum] → t.outLen = s.outLen ∧ t.mem = s.mem) ∧
    (i ≠ .ethParse → t.eth = s.eth) ∧
    (i ≠ .ip4Parse → t.ip4 = { s.ip4 with csum := t.ip4.csum }) ∧ (i ≠ .ip4Csum → t.ip4.csum = s.ip4.csum) ∧
    (i ≠ .tcpParse → t.tcp = { s.tcp with csum := t.tcp.csum }) ∧ (i ≠ .tcpBuildCsum → t.tcp.csum = s.tcp.csum) ∧
    t.tcp.phSrc = s.tcp.phSrc ∧ t.tcp.phDst = s.tcp.phDst ∧
    (i ≠ .ethParse → t.view.ethValid = s.view.ethValid) ∧
    (i ≠ .ip4Parse → t.view.ip4Valid = s.view.ip4Valid ∧ t.view.ip4Poor = s.view.ip4Poor) ∧
    (i ≠ .tcpParse → t.view.tcpValid = s.view.tcpValid ∧ t.view.tcpPoor = s.view.tcpPoor) ∧
    ((∀ k, i ≠ .csumAddi k) → i ≠ .csumClr → i ≠ .csumAddmem → t.acc.acc = s.acc.acc) ∧ (i ≠ .csumFin → t.acc.res = s.acc.res) ∧
    ∀ a, ¬ s.writes i a → t.mem.read a = s.mem.read a

/-- Every command completes once the host has written the bytes it reads (30_encoding.md R113; 70_reset_and_hazards.md R274). -/
def Obligations.CompletesOnceInputsAreWritten : Prop :=
  ∀ (i : Instr) (s : State), s.inputsWritten i → ∃ t, exec i s = .next t ∧ t.eng.busy = false

/-- A command stops the machine only by reading a byte of its read set that nothing has written since reset (70_reset_and_hazards.md R272),
and no command is refused. IP4_PARSE reads byte 0 first and the rest of its header only behind the version check (41_ipv4.md R160). -/
def Obligations.OnlyUnwrittenReadsFault : Prop :=
  ∀ (i : Instr) (s : State),
    (∀ r, exec i s ≠ .refused r) ∧
    (∀ f, exec i s = .fault f → f = .unwrittenRead ∧ ∃ a, s.reads i a ∧ s.mem.read a = none) ∧
    (i = .ethParse ∨ i = .tcpParse ∨ i = .ethBuild ∨ i = .ip4Build ∨ i = .ip4Csum ∨ i = .tcpBuild ∨ i = .tcpBuildCsum ∨ i = .csumAddmem →
      ¬ s.badRegion i → ¬ s.tooShort i → ¬ s.tooLong i → (∃ a, s.reads i a ∧ s.mem.read a = none) →
      exec i s = .fault .unwrittenRead) ∧
    (¬ s.badRegion .ip4Parse → ¬ s.tooShort .ip4Parse →
      (s.mem.read s.inStart = none → exec .ip4Parse s = .fault .unwrittenRead) ∧
      ∀ b0, s.mem.read s.inStart = some b0 → b0.toNat / 16 = 4 → (∃ a, s.reads .ip4Parse a ∧ s.mem.read a = none) →
        exec .ip4Parse s = .fault .unwrittenRead)

/-- A command's answer depends on no MEM byte outside its read set (20_memory.md R91; 30_encoding.md R113): with any other MEM that reads alike
there, it stops alike, completes with the same registers, and writes the same bytes. -/
def Obligations.ReadsOnlyItsReadSet : Prop :=
  ∀ (i : Instr) (s : State) (m : Memory), (∀ a, s.reads i a → m.read a = s.mem.read a) →
    (∀ f, exec i s = .fault f ↔ exec i { s with mem := m } = .fault f) ∧
    ∀ t, exec i s = .next t → ∃ t', exec i { s with mem := m } = .next t' ∧ { t' with mem := t.mem } = t ∧
      ∀ a, t.err = .ok → s.writes i a → t'.mem.read a = t.mem.read a

/-- The units are independent (40_ethernet.md R144; 41_ipv4.md R168; 42_tcp.md R198): a unit's command answers alike whatever the other units'
registers hold, and leaves them as they are. -/
def Obligations.UnitsAreIndependent : Prop :=
  ∀ (s : State) (e : EthRegs) (p : Ip4Regs) (q : TcpRegs) (c : AccRegs),
    (∀ i ∈ [Instr.ethParse, .ethBuild],
      exec i { s with ip4 := p, tcp := q, acc := c } = mapNext (fun t => { t with ip4 := p, tcp := q, acc := c }) (exec i s)) ∧
    (∀ i ∈ [Instr.ip4Parse, .ip4Build, .ip4Csum],
      exec i { s with eth := e, tcp := q, acc := c } = mapNext (fun t => { t with eth := e, tcp := q, acc := c }) (exec i s)) ∧
    (∀ i ∈ [Instr.tcpParse, .tcpBuild, .tcpBuildCsum],
      exec i { s with eth := e, ip4 := p, acc := c } = mapNext (fun t => { t with eth := e, ip4 := p, acc := c }) (exec i s))

/-- The three checksum engines are independent (43_checksum.md R228). -/
def Obligations.ChecksumEnginesAreIndependent : Prop :=
  (∀ s t : State, exec .ip4Csum s = .next t → t = State.finished { s with ip4 := { s.ip4 with csum := t.ip4.csum } } t.err) ∧
  (∀ s t : State, exec .tcpBuildCsum s = .next t →
    t = State.finished { s with tcp := { s.tcp with csum := t.tcp.csum }, outLen := t.outLen, mem := t.mem } t.err) ∧
  (∀ (i : Instr) (s t : State), i = .csumClr ∨ (∃ k, i = .csumAddi k) ∨ i = .csumAddmem ∨ i = .csumFin → exec i s = .next t →
    t = State.finished { s with acc := t.acc } t.err) ∧
  (∀ (s : State) (x y : Half) (c : AccRegs),
    exec .ip4Csum { s with tcp := { s.tcp with csum := y }, acc := c } =
      mapNext (fun t => { t with tcp := { t.tcp with csum := y }, acc := c }) (exec .ip4Csum s) ∧
    exec .tcpBuildCsum { s with ip4 := { s.ip4 with csum := x }, acc := c } =
      mapNext (fun t => { t with ip4 := { t.ip4 with csum := x }, acc := c }) (exec .tcpBuildCsum s) ∧
    ∀ i, i = .csumClr ∨ (∃ k, i = .csumAddi k) ∨ i = .csumAddmem ∨ i = .csumFin →
      exec i { s with ip4 := { s.ip4 with csum := x }, tcp := { s.tcp with csum := y } } =
        mapNext (fun t => { t with ip4 := { t.ip4 with csum := x }, tcp := { t.tcp with csum := y } }) (exec i s))

/-! ## The engine's life cycle -/

/-- Acceptance (10_state.md R70, R71): a word written to CMD while idle is accepted unchecked, and nothing else of the block changes. That
LATENCY is drawn here, as some `n`, into the model's fields `wait` and `draws` is the model's choice (log 2). -/
def Obligations.IdleCmdWriteIsAccepted : Prop :=
  ∀ (s : State) (w : Word) (rest : List HostEvent), s.idle → s.bus = .write .w32 0x00004#17 w :: rest →
    ∃ n, step s = .next { s with eng := { busy := true, cmd := w }, bus := rest, wait := n, draws := s.draws + 1 }

/-- The running command is not disturbed and becomes due (70_reset_and_hazards.md R280, R284): whatever orderly events the host has in store,
after the outstanding cycles the next step is its completion, with every register and MEM byte as at acceptance but for HAZ. The count `wait`
of outstanding cycles, and one event from outside a cycle, are the model's choice (logs 2 and 7); that a host's read of an unwritten MEM byte
in between does not stop the run is the model's reading of R281 over R272 (log 18). -/
def Obligations.RunningCommandBecomesDue : Prop :=
  ∀ s : State, s.resetPin = false → s.eng.busy = true → (∀ e ∈ s.bus, orderly s.config e) →
    ∃ u, Host.Core.run Sys2Proof.core s.wait s = .next u ∧ u.completing ∧
      u = { s with haz := u.haz, bus := u.bus, lastRead := u.lastRead, draws := u.draws, wait := 0 }

/-- The busy write hazard (70_reset_and_hazards.md R280): a bus error sets nothing, a write to STATUS is performed, any other is dropped and sets
HAZ. That a cycle takes one event is the model's choice (log 7). -/
def Obligations.BusyWriteIsDropped : Prop :=
  ∀ (s : State) (w : Width) (a : HostAddr) (d : Word) (rest : List HostEvent), s.running → s.bus = .write w a d :: rest →
    (¬ allowedAccess s.config w a → step s = .fault .busError) ∧
    (allowedAccess s.config w a → a ≠ 0x00008#17 → step s = .next { s.afterEvent rest with haz := true }) ∧
    (allowedAccess s.config w a → a = 0x00008#17 →
      step s = .next { s.afterEvent rest with haz := s.haz && !(d.getLsbD 16) })

/-- The busy read hazard (70_reset_and_hazards.md R281): ID, STATUS and CMD read true, anything else some value of the access width, and no read
has a side effect on the block. A pass of the polling loop (30_encoding.md R124) reads STATUS and, BUSY being 1, comes again; a quiet cycle
changes nothing. The value itself is free, and that it is drawn through a counter and kept for the host to see is the model's choice (logs 9
and 10), as is that a pass takes one cycle (log 16) and that the outstanding cycles are counted down (log 2). That the read of a MEM byte not
written since reset gives such a value too, and no fault, is the model's reading of R281 over R272 (log 18). -/
def Obligations.BusyReadsHaveNoEffect : Prop :=
  ∀ s : State, s.running →
    (∀ (w : Width) (a : HostAddr) (rest : List HostEvent), s.bus = .read w a :: rest → allowedAccess s.config w a →
      ∃ v n, step s = .next { s.afterEvent rest with lastRead := some v, draws := n } ∧ v.toNat < 2 ^ w.bits ∧
        (a = 0x00000#17 → v = 0x434C4231#32) ∧ (a = 0x00008#17 → v = s.shown .status ∧ v.getLsbD 0 = true) ∧
        (a = 0x00004#17 → v = 0#32)) ∧
    (∀ rest, s.bus = .poll :: rest → step s = .next { s.afterEvent (.poll :: rest) with lastRead := some (s.shown .status) }) ∧
    (∀ rest, s.bus = .idle :: rest → step s = .next (s.afterEvent rest)) ∧
    (s.bus = [] → step s = .next (s.afterEvent []))

/-! ## The register file and the memory window -/

/-- Bus errors (20_memory.md R80, R82; 60_exceptions.md R247): outside reset, an access is a bus error exactly where the map does not allow it. -/
def Obligations.BusErrorsExactlyOutsideTheMap : Prop :=
  ∀ (s : State) (w : Width) (a : HostAddr), s.idle ∨ s.running →
    (∀ rest, s.bus = .read w a :: rest → (step s = .fault .busError ↔ ¬ allowedAccess s.config w a)) ∧
    (∀ d rest, s.bus = .write w a d :: rest → (step s = .fault .busError ↔ ¬ allowedAccess s.config w a))

/-- Reserved bits (10_state.md R34): they read 0, and writes to them are ignored. -/
def Obligations.ReservedBitsReadZero : Prop :=
  ∀ (s : State) (r : Reg), s.readReg r &&& ~~~(namedBits r) = 0#32 ∧
    ∀ w, r ≠ .cmd → s.writeReg r w = s.writeReg r (w &&& namedBits r)

/-- Host accesses to the register file of an idle block (10_state.md R33 to R58; 20_memory.md R89), each register at its address of the map and
with the fields its table gives: a read returns what the register holds and has no side effect; a write stores the RW bits, and leaves a
read-only register and every other register as they are; a write to STATUS clears HAZ iff bit 16 is 1 (R36). A pass of the polling loop reads
STATUS once (30_encoding.md R124), and where nothing comes the state persists (60_exceptions.md R255). That what is read is kept, that a cycle
takes one event, and that it counts `wait` down, which the invariant has at 0 on an idle block, is the model's choice (logs 2, 7, 10 and 16). -/
def Obligations.IdleRegisterAccesses : Prop :=
  (∀ (s : State) (r : Reg), s.readReg r = s.shown r) ∧
  ∀ s : State, s.idle →
    (∀ (r : Reg) (rest : List HostEvent),
      (s.bus = .read .w32 (mapAddress r) :: rest → step s = .next { s.afterEvent rest with lastRead := some (s.shown r) }) ∧
      ∀ w : Word, r ≠ .cmd → s.bus = .write .w32 (mapAddress r) w :: rest →
        ∃ t, step s = .next t ∧ t.shown r &&& writableBits r = w &&& writableBits r ∧
          (∀ q, q ≠ r → t.held q = s.held q) ∧
          (r ≠ .status → writableBits r = 0#32 → t = s.afterEvent rest) ∧
          (r = .status → t = { s.afterEvent rest with haz := s.haz && !(w.getLsbD 16) }) ∧
          t = { s.afterEvent rest with
            opnd := t.opnd, eth := t.eth, ip4 := t.ip4, tcp := t.tcp, acc := t.acc, haz := t.haz }) ∧
    (∀ rest, s.bus = .poll :: rest → step s = .next { s.afterEvent rest with lastRead := some (s.shown .status) }) ∧
    (∀ rest, s.bus = .idle :: rest → step s = .next (s.afterEvent rest)) ∧
    (s.bus = [] → step s = .next (s.afterEvent []))

/-- ID (10_state.md R37): the constant at all times, and a write to it changes no register value but STATUS.HAZ of a busy block. -/
def Obligations.IdIsConstant : Prop :=
  ∀ (s : State) (rest : List HostEvent), s.idle ∨ s.running →
    (s.bus = .read .w32 0x00000#17 :: rest → step s = .next { s.afterEvent rest with lastRead := some 0x434C4231#32 }) ∧
    (∀ d, s.bus = .write .w32 0x00000#17 d :: rest →
      step s = .next { s.afterEvent rest with haz := s.haz || s.eng.busy })

/-- STATUS (10_state.md R36): its fields, the number of each result code (60_exceptions.md R241), and its write-1-to-clear bit. -/
def Obligations.StatusFields : Prop :=
  (ResultCode.ok.code = 0#4 ∧ ResultCode.notEnoughBytes.code = 1#4 ∧ ResultCode.unsupportedVersion.code = 2#4 ∧
    ResultCode.regionRange.code = 3#4 ∧ ResultCode.illegalCommand.code = 4#4 ∧ ResultCode.segmentTooLong.code = 5#4) ∧
  ∀ s : State,
    s.readReg .status = (if s.eng.busy then 0x1#32 else 0#32) ||| (BitVec.ofNat 32 (errNumber s.err * 0x100)) |||
      (if s.haz then 0x10000#32 else 0#32) ∧
    s.err.code.toNat ≤ 5 ∧
    ∀ w, s.writeReg .status w = { s with haz := s.haz && !(w.getLsbD 16) }

/-- The CLASS fields (10_state.md R43, R46): a read shows VALUE and the class of VALUE, after a host write as after a parse; the written CLASS
bits are ignored. -/
def Obligations.ClassFollowsValue : Prop :=
  ∀ (s : State) (w : Word),
    s.readReg .ethType = BitVec.ofNat 32 (s.eth.etype.toNat +
      0x10000 * (if s.eth.etype.toNat = 0x0800 then 1 else if s.eth.etype.toNat = 0x0806 then 2 else 0)) ∧
    (s.writeReg .ethType w).eth.etype.toNat = w.toNat % 0x10000 ∧
    s.readReg .ip4Proto = BitVec.ofNat 32 (s.ip4.proto.toNat +
      0x100 * (if s.ip4.proto.toNat = 1 then 1 else if s.ip4.proto.toNat = 6 then 2 else if s.ip4.proto.toNat = 17 then 3 else 0)) ∧
    (s.writeReg .ip4Proto w).ip4.proto.toNat = w.toNat % 0x100

/-- TCP_FLAGS (10_state.md R53): a host write of v stores v & 0x17, and each flag is its own bit. -/
def Obligations.TcpFlagsWriteMask : Prop :=
  ∀ (s : State) (v : Word),
    (s.writeReg .tcpFlags v).readReg .tcpFlags = v &&& 0x17#32 ∧
    s.readReg .tcpFlags = (wireFlags s.tcp.flags).zeroExtend 32 ∧
    (s.writeReg .tcpFlags v).tcp.flags =
      { fin := v.getLsbD 0, syn := v.getLsbD 1, rst := v.getLsbD 2, ack := v.getLsbD 4 }

/-- The MEM window (20_memory.md R83): 8-bit and aligned 32-bit accesses, big-endian lanes, nothing past the end. -/
def Obligations.MemoryWindowAccesses : Prop :=
  ∀ (s : State) (a : HostAddr) (i : Nat) (rest : List HostEvent), s.idle → a.toNat = 0x10000 + i → i < s.config.memSize →
    (∀ b, s.mem.read i = some b → s.bus = .read .w8 a :: rest →
      step s = .next { s.afterEvent rest with lastRead := some (b.zeroExtend 32) }) ∧
    (∀ b : Byte, s.bus = .write .w8 a (b.zeroExtend 32) :: rest → ∃ m, step s = .next { s.afterEvent rest with mem := m } ∧
      m.read i = some b ∧ ∀ j, j ≠ i → m.read j = s.mem.read j) ∧
    (i % 4 = 0 → i + 3 < s.config.memSize ∧
      (∀ b0 b1 b2 b3, s.mem.readBytes i 4 = some [b0, b1, b2, b3] → s.bus = .read .w32 a :: rest →
        step s = .next { s.afterEvent rest with lastRead := some (b0 ++ b1 ++ b2 ++ b3) }) ∧
      ∀ d, s.bus = .write .w32 a d :: rest → ∃ m, step s = .next { s.afterEvent rest with mem := m } ∧
        m.readBytes i 4 = some [d.extractLsb' 24 8, d.extractLsb' 16 8, d.extractLsb' 8 8, d.extractLsb' 0 8] ∧
        ∀ j, ¬ inRegion j i 4 → m.read j = s.mem.read j) ∧
    (s.bus = .read .w16 a :: rest → step s = .fault .busError) ∧
    (∀ d, s.bus = .write .w16 a d :: rest → step s = .fault .busError) ∧
    (i % 4 ≠ 0 → s.bus = .read .w32 a :: rest → step s = .fault .busError) ∧
    (i % 4 ≠ 0 → ∀ d, s.bus = .write .w32 a d :: rest → step s = .fault .busError)

/-- An 8-bit write whose event carries any 32 bits of data stores the low 8 of them and changes no other byte: which bits of such an event the
byte is, where it is wider than a byte, is the model's choice (log 12). -/
def Obligations.ByteWriteUsesLowBits : Prop :=
  ∀ (s : State) (a : HostAddr) (i : Nat) (d : Word) (rest : List HostEvent), s.idle → a.toNat = 0x10000 + i → i < s.config.memSize →
    s.bus = .write .w8 a d :: rest → ∃ m, step s = .next { s.afterEvent rest with mem := m } ∧
      m.read i = some (d.extractLsb' 0 8) ∧ ∀ j, j ≠ i → m.read j = s.mem.read j

/-- Mixed-width host views (20_memory.md R87): a 32-bit read shows what four 8-bit reads show, the lowest in bits 31:24. -/
def Obligations.MixedWidthReadsAgree : Prop :=
  ∀ (s : State) (a : HostAddr) (v0 v1 v2 v3 : Word), s.eng.busy = false → 0x10000 ≤ a.toNat → a.toNat % 4 = 0 →
    busRead s .w8 a = .next (s.answer v0) → busRead s .w8 (a + 1) = .next (s.answer v1) →
    busRead s .w8 (a + 2) = .next (s.answer v2) → busRead s .w8 (a + 3) = .next (s.answer v3) →
    busRead s .w32 a = .next (s.answer (v0 <<< 24 ||| v1 <<< 16 ||| v2 <<< 8 ||| v3))

/-- A host read of a MEM byte that nothing has written since reset (70_reset_and_hazards.md R272) is a fault of the model; that one such byte of the
four of a word is enough is the model's reading (log 18). -/
def Obligations.UnwrittenHostReadFaults : Prop :=
  ∀ (s : State) (a : HostAddr) (i : Nat) (rest : List HostEvent), s.idle → a.toNat = 0x10000 + i → i < s.config.memSize →
    (s.bus = .read .w8 a :: rest → s.mem.read i = none → step s = .fault .unwrittenRead) ∧
    (s.bus = .read .w32 a :: rest → i % 4 = 0 → (∃ k, k < 4 ∧ s.mem.read (i + k) = none) → step s = .fault .unwrittenRead)

/-! ## Reset -/

/-- The reset values (70_reset_and_hazards.md R271): in `State.reset`, and in the reset state of a block of any MEM_SIZE, the engine is idle
and every register but ID reads 0. -/
def Obligations.ResetValues : Prop :=
  (State.reset.idle ∧ ∀ r, State.reset.readReg r = if r = .id then 0x434C4231#32 else 0#32) ∧
  ∀ c : Config, (State.resetWith c []).idle ∧
    ∀ r, (State.resetWith c []).readReg r = if r = .id then 0x434C4231#32 else 0#32

/-- A reset in the middle of a run (70_reset_and_hazards.md R270, R271): on an idle block, or one whose command is not due, asserting reset puts every
register at its reset value and abandons a running command, and this state stands, through cycles in which nothing or another assertion comes,
until reset is deasserted. That the values are taken at the assertion and that the host's own
events stay is the model's choice (log 15). -/
def Obligations.AssertedResetClearsRegisters : Prop :=
  ∀ (s : State) (rest : List HostEvent), s.idle ∨ s.running → s.bus = .assertReset :: rest →
    ∃ t, step s = .next t ∧ t.resetPin = true ∧ t.eng.busy = false ∧ t.bus = rest ∧ t.config = s.config ∧
      (∀ r, t.readReg r = if r = .id then 0x434C4231#32 else 0#32) ∧
      step { t with bus := [] } = .next { t with bus := [] } ∧
      ∀ rest', step { t with bus := .idle :: rest' } = .next { t with bus := rest' } ∧
        step { t with bus := .assertReset :: rest' } = .next { t with bus := rest' } ∧
        step { t with bus := .deassertReset :: rest' } = .next { t with bus := rest', resetPin := false }

/-- MEM after reset (70_reset_and_hazards.md R272, R273): a reset during a command makes its write region unspecified and keeps every other byte;
an accepted illegal word has none, so a reset keeps all of MEM; a reset of an idle block makes every byte unspecified. How the two rules share the bytes out is the model's choice (logs 5 and 6). -/
def Obligations.ResetMakesMemoryUnspecified : Prop :=
  ∀ (s : State) (rest : List HostEvent), s.bus = .assertReset :: rest →
    (s.idle → ∃ t, step s = .next t ∧ ∀ a, t.mem.read a = none) ∧
    (∀ i, s.running → decodeWord s.eng.cmd = .ok i → ∃ t, step s = .next t ∧
      ∀ a, (s.writes i a → t.mem.read a = none) ∧ (¬ s.writes i a → t.mem.read a = s.mem.read a)) ∧
    (s.running → (∀ i, decodeWord s.eng.cmd ≠ .ok i) → ∃ t, step s = .next t ∧ t.mem = s.mem)

/-- An access while reset is asserted (70_reset_and_hazards.md R270) is a host fault of the model. -/
def Obligations.AccessDuringResetFaults : Prop :=
  ∀ (s : State) (w : Width) (a : HostAddr) (d : Word) (rest : List HostEvent), s.resetPin = true →
    (s.bus = .read w a :: rest → step s = .fault .accessDuringReset) ∧
    (s.bus = .write w a d :: rest → step s = .fault .accessDuringReset) ∧
    (s.bus = .poll :: rest → step s = .fault .accessDuringReset)

/-! ## The invariant -/

/-- Every step from every state that has the invariant leaves it, and MEM_SIZE, as they are. The invariant holds of the spec's state (MEM, the
reset input, the header lengths, the payload windows) and of the model's own `wait` (log 2) and MEM's canonical form (log 4). -/
def Obligations.StepKeepsInvariant : Prop :=
  ∀ s t : State, s.Inv → step s = .next t → t.Inv ∧ t.config = s.config

/-- The reset state of every block has the invariant. -/
def Obligations.ResetHasInvariant : Prop :=
  State.reset.Inv ∧ ∀ c : Config, (State.resetWith c []).Inv
end

