-- ==== Sys2Proof/Laws/Memory.lean ====
section
/-! SUPPORT. The laws of MEM: a read after a write, the canonical form and the range kept by every memory operation. -/

namespace Sys2Proof.Machine

@[simp] theorem Memory.read_nil (a : Nat) : Memory.read [] a = none := rfl

theorem Memory.read_cons (x : Nat) (b : Byte) (m : Memory) (a : Nat) :
    Memory.read ((x, b) :: m) a = if x = a then some b else Memory.read m a := rfl

/-- A byte read after its write is the byte written; every other byte reads as before. -/
theorem Memory.read_write (m : Memory) (a c : Nat) (b : Byte) :
    (m.write a b).read c = if c = a then some b else m.read c := by
  induction m with
  | nil => simp [Memory.write, Memory.read_cons, eq_comm]
  | cons x m ih =>
    obtain ⟨x, d⟩ := x
    simp only [Memory.write]
    split
    · simp only [Memory.read_cons]; split_ifs <;> first | rfl | omega
    · split
      · simp only [Memory.read_cons]; split_ifs <;> first | rfl | omega
      · simp only [Memory.read_cons, ih]; split_ifs <;> first | rfl | omega

@[simp] theorem Memory.read_write_same (m : Memory) (a : Nat) (b : Byte) : (m.write a b).read a = some b := by
  simp [Memory.read_write]

theorem Memory.read_write_other (m : Memory) {a c : Nat} (b : Byte) (h : c ≠ a) : (m.write a b).read c = m.read c := by
  simp [Memory.read_write, h]

/-- What a byte reads as after a sequence is written. -/
theorem Memory.read_writeBytes (bs : List Byte) : ∀ (m : Memory) (a c : Nat),
    (m.writeBytes a bs).read c = if a ≤ c ∧ c < a + bs.length then bs[c - a]? else m.read c := by
  induction bs with
  | nil => intro m a c; rw [if_neg (by simp)]; rfl
  | cons b bs ih =>
    intro m a c
    simp only [Memory.writeBytes, ih, Memory.read_write, List.length_cons]
    by_cases h1 : c = a
    · subst h1; simp
    · by_cases h2 : a + 1 ≤ c ∧ c < a + 1 + bs.length
      · rw [if_pos h2, if_pos (by omega)]
        obtain ⟨k, rfl⟩ : ∃ k, c = a + 1 + k := ⟨c - (a + 1), by omega⟩
        have : a + 1 + k - a = k + 1 := by omega
        simp [this]
      · rw [if_neg h2, if_neg h1, if_neg (by omega)]

/-- A byte outside the written sequence reads as before. -/
theorem Memory.read_writeBytes_outside (m : Memory) (a c : Nat) (bs : List Byte) (h : c < a ∨ a + bs.length ≤ c) :
    (m.writeBytes a bs).read c = m.read c := by
  rw [Memory.read_writeBytes, if_neg (by omega)]

@[simp] theorem Memory.readBytes_zero (m : Memory) (a : Nat) : m.readBytes a 0 = some [] := rfl

/-- The bytes of a region are read exactly when each of them is. -/
theorem Memory.readBytes_eq_some (m : Memory) : ∀ (n a : Nat) (bs : List Byte),
    m.readBytes a n = some bs ↔ bs.length = n ∧ ∀ k, k < n → m.read (a + k) = bs[k]? := by
  intro n
  induction n with
  | zero => intro a bs; cases bs <;> simp
  | succ n ih =>
    intro a bs
    constructor
    · intro h
      simp only [Memory.readBytes] at h
      split at h
      · rename_i b cs hb hcs
        obtain ⟨hl, hr⟩ := (ih (a + 1) cs).1 hcs
        cases h
        refine ⟨by simp [hl], fun k hk => ?_⟩
        cases k with
        | zero => simpa using hb
        | succ k => have := hr k (by omega); rw [show a + 1 + k = a + (k + 1) by omega] at this; simpa using this
      · cases h
    · rintro ⟨hl, hr⟩
      cases bs with
      | nil => simp at hl
      | cons b cs =>
        have hb : m.read a = some b := by simpa using hr 0 (by omega)
        have hcs : m.readBytes (a + 1) n = some cs := by
          refine (ih (a + 1) cs).2 ⟨by simpa using hl, fun k hk => ?_⟩
          have := hr (k + 1) (by omega)
          rw [show a + (k + 1) = a + 1 + k by omega] at this
          simpa using this
        simp [Memory.readBytes, hb, hcs]

/-- Reading back a written sequence gives it. -/
theorem Memory.readBytes_writeBytes (m : Memory) (a n : Nat) (bs : List Byte) (h : bs.length = n) :
    (m.writeBytes a bs).readBytes a n = some bs := by
  refine (Memory.readBytes_eq_some _ _ _ _).2 ⟨h, fun k hk => ?_⟩
  rw [Memory.read_writeBytes, if_pos (by omega)]
  simp

/-- A region can be read exactly when every one of its bytes has been written. -/
theorem Memory.readBytes_isSome (m : Memory) : ∀ (n a : Nat),
    (m.readBytes a n).isSome ↔ ∀ c, a ≤ c → c < a + n → (m.read c).isSome := by
  intro n
  induction n with
  | zero => intro a; simp; omega
  | succ n ih =>
    intro a
    have step : (m.readBytes a (n + 1)).isSome ↔ (m.read a).isSome ∧ (m.readBytes (a + 1) n).isSome := by
      simp only [Memory.readBytes]; cases m.read a <;> cases m.readBytes (a + 1) n <;> simp
    rw [step, ih]
    constructor
    · rintro ⟨h0, h⟩ c h1 h2
      by_cases hc : c = a
      · subst hc; exact h0
      · exact h c (by omega) (by omega)
    · intro h
      exact ⟨h a (by omega) (by omega), fun c h1 h2 => h c (by omega) (by omega)⟩

/-- Two memories that agree on a region read it alike. -/
theorem Memory.readBytes_congr (m m' : Memory) : ∀ (n a : Nat),
    (∀ c, a ≤ c → c < a + n → m'.read c = m.read c) → m'.readBytes a n = m.readBytes a n := by
  intro n
  induction n with
  | zero => intros; rfl
  | succ n ih =>
    intro a h
    simp only [Memory.readBytes]
    rw [h a (by omega) (by omega), ih (a + 1) (fun c h1 h2 => h c (by omega) (by omega))]

/-- A region read in two parts. -/
theorem Memory.readBytes_add (m : Memory) : ∀ (p q a : Nat),
    m.readBytes a (p + q) = (m.readBytes a p).bind fun bs => (m.readBytes (a + p) q).map (bs ++ ·) := by
  intro p
  induction p with
  | zero => intro q a; simp
  | succ p ih =>
    intro q a
    rw [show p + 1 + q = (p + q) + 1 by omega]
    simp only [Memory.readBytes, ih]
    rw [show a + 1 + p = a + (p + 1) by omega]
    cases m.read a <;> cases m.readBytes (a + 1) p <;> cases m.readBytes (a + (p + 1)) q <;> simp

theorem Memory.write_lower (m : Memory) (a y : Nat) (b : Byte) (hy : y < a) (h : ∀ c ∈ m, y < c.1) :
    ∀ c ∈ m.write a b, y < c.1 := by
  induction m with
  | nil => simpa [Memory.write] using hy
  | cons x m ih =>
    obtain ⟨x, d⟩ := x
    simp only [Memory.write]
    have hx : y < x := h (x, d) (by simp)
    split
    · intro c hc
      simp only [List.mem_cons] at hc
      rcases hc with rfl | rfl | hc
      · exact hy
      · exact hx
      · exact h c (by simp [hc])
    · split
      · intro c hc
        simp only [List.mem_cons] at hc
        rcases hc with rfl | hc
        · exact hy
        · exact h c (by simp [hc])
      · intro c hc
        simp only [List.mem_cons] at hc
        rcases hc with rfl | hc
        · exact hx
        · exact ih (fun c hc => h c (by simp [hc])) c hc

/-- A write keeps the canonical form. -/
theorem Memory.write_wf (m : Memory) (a : Nat) (b : Byte) (h : m.wf) : (m.write a b).wf := by
  induction m with
  | nil => simp [Memory.write, Memory.wf]
  | cons x m ih =>
    obtain ⟨x, d⟩ := x
    simp only [Memory.wf, List.pairwise_cons] at h
    obtain ⟨hx, hm⟩ := h
    simp only [Memory.write]
    split
    · rename_i hax
      simp only [Memory.wf, List.pairwise_cons]
      refine ⟨fun c hc => ?_, hx, hm⟩
      simp only [List.mem_cons] at hc
      rcases hc with rfl | hc
      · exact hax
      · have := hx c hc; omega
    · split
      · rename_i hax; subst hax
        simp only [Memory.wf, List.pairwise_cons]
        exact ⟨hx, hm⟩
      · simp only [Memory.wf, List.pairwise_cons]
        exact ⟨Memory.write_lower m a x b (by omega) hx, ih hm⟩

/-- Writing a sequence keeps the canonical form. -/
theorem Memory.writeBytes_wf (bs : List Byte) : ∀ (m : Memory) (a : Nat), m.wf → (m.writeBytes a bs).wf := by
  induction bs with
  | nil => intro m a h; exact h
  | cons b bs ih => intro m a h; exact ih _ _ (Memory.write_wf m a b h)

/-- Making bytes unspecified keeps the canonical form. -/
theorem Memory.erase_wf (m : Memory) (a n : Nat) (h : m.wf) : (m.erase a n).wf := List.Pairwise.filter _ h

/-- What a byte reads as after a region is made unspecified. -/
theorem Memory.read_erase (m : Memory) (a n c : Nat) :
    (m.erase a n).read c = if a ≤ c ∧ c < a + n then none else m.read c := by
  induction m with
  | nil => simp [Memory.erase]
  | cons x m ih =>
    obtain ⟨x, d⟩ := x
    simp only [Memory.erase] at ih ⊢
    rw [List.filter_cons]
    by_cases hx : a ≤ x ∧ x < a + n
    · simp only [hx.1, hx.2, decide_true, Bool.and_self, Bool.not_true, Bool.false_eq_true, if_false, ih, Memory.read_cons]
      split_ifs <;> first | rfl | omega
    · rw [if_pos (by simp; omega)]
      simp only [Memory.read_cons, ih]
      split_ifs <;> first | rfl | omega

theorem Memory.mem_write (m : Memory) (a : Nat) (b : Byte) (c : Host.Cell) (h : c ∈ m.write a b) : c = (a, b) ∨ c ∈ m := by
  induction m with
  | nil => simpa [Memory.write] using h
  | cons x m ih =>
    obtain ⟨x, d⟩ := x
    simp only [Memory.write] at h
    split at h
    · simpa using h
    · split at h
      · simp only [List.mem_cons] at h ⊢; tauto
      · simp only [List.mem_cons] at h ⊢
        rcases h with h | h
        · exact .inr (.inl h)
        · rcases ih h with h | h
          · exact .inl h
          · exact .inr (.inr h)

/-- A write below a bound keeps every offset below it. -/
theorem Memory.write_below (m : Memory) (a N : Nat) (b : Byte) (ha : a < N) (h : ∀ c ∈ m, c.1 < N) :
    ∀ c ∈ m.write a b, c.1 < N := by
  intro c hc
  rcases Memory.mem_write m a b c hc with rfl | hc
  · exact ha
  · exact h c hc

/-- Writing a sequence below a bound keeps every offset below it. -/
theorem Memory.writeBytes_below (N : Nat) (bs : List Byte) : ∀ (m : Memory) (a : Nat), a + bs.length ≤ N →
    (∀ c ∈ m, c.1 < N) → ∀ c ∈ m.writeBytes a bs, c.1 < N := by
  induction bs with
  | nil => intro m a _ h; exact h
  | cons b bs ih =>
    intro m a ha h
    simp only [List.length_cons] at ha
    exact ih _ _ (by omega) (Memory.write_below m a N b (by omega) h)

theorem Memory.erase_below (m : Memory) (a n N : Nat) (h : ∀ c ∈ m, c.1 < N) : ∀ c ∈ m.erase a n, c.1 < N :=
  fun c hc => h c (List.mem_of_mem_filter hc)

/-- MEM after reset lists nothing, so it has the canonical form. -/
theorem Memory.reset_wf : State.reset.mem.wf := List.Pairwise.nil

end Sys2Proof.Machine
end

