-- ==== Sys2Proof/Laws/State.lean ====
section
/-! SUPPORT. One lemma per field per update of State, each true by rfl, so that no later proof unfolds a record update. -/

namespace Sys2Proof.Machine

variable (s : State)

@[simp] theorem finished_config (c : ResultCode) : (s.finished c).config = s.config := rfl
@[simp] theorem finished_eng (c : ResultCode) : (s.finished c).eng = { s.eng with busy := false } := rfl
@[simp] theorem finished_err (c : ResultCode) : (s.finished c).err = c := rfl
@[simp] theorem finished_haz (c : ResultCode) : (s.finished c).haz = s.haz := rfl
@[simp] theorem finished_view (c : ResultCode) : (s.finished c).view = s.view := rfl
@[simp] theorem finished_opnd (c : ResultCode) : (s.finished c).opnd = s.opnd := rfl
@[simp] theorem finished_outLen (c : ResultCode) : (s.finished c).outLen = s.outLen := rfl
@[simp] theorem finished_eth (c : ResultCode) : (s.finished c).eth = s.eth := rfl
@[simp] theorem finished_ip4 (c : ResultCode) : (s.finished c).ip4 = s.ip4 := rfl
@[simp] theorem finished_tcp (c : ResultCode) : (s.finished c).tcp = s.tcp := rfl
@[simp] theorem finished_acc (c : ResultCode) : (s.finished c).acc = s.acc := rfl
@[simp] theorem finished_mem (c : ResultCode) : (s.finished c).mem = s.mem := rfl
@[simp] theorem finished_resetPin (c : ResultCode) : (s.finished c).resetPin = s.resetPin := rfl
@[simp] theorem finished_bus (c : ResultCode) : (s.finished c).bus = s.bus := rfl
@[simp] theorem finished_lastRead (c : ResultCode) : (s.finished c).lastRead = s.lastRead := rfl
@[simp] theorem finished_wait (c : ResultCode) : (s.finished c).wait = s.wait := rfl
@[simp] theorem finished_draws (c : ResultCode) : (s.finished c).draws = s.draws := rfl

@[simp] theorem setEthValid_config (v : Bool) : (s.setEthValid v).config = s.config := rfl
@[simp] theorem setEthValid_eng (v : Bool) : (s.setEthValid v).eng = s.eng := rfl
@[simp] theorem setEthValid_err (v : Bool) : (s.setEthValid v).err = s.err := rfl
@[simp] theorem setEthValid_haz (v : Bool) : (s.setEthValid v).haz = s.haz := rfl
@[simp] theorem setEthValid_view (v : Bool) : (s.setEthValid v).view = { s.view with ethValid := v } := rfl
@[simp] theorem setEthValid_opnd (v : Bool) : (s.setEthValid v).opnd = s.opnd := rfl
@[simp] theorem setEthValid_outLen (v : Bool) : (s.setEthValid v).outLen = s.outLen := rfl
@[simp] theorem setEthValid_eth (v : Bool) : (s.setEthValid v).eth = s.eth := rfl
@[simp] theorem setEthValid_ip4 (v : Bool) : (s.setEthValid v).ip4 = s.ip4 := rfl
@[simp] theorem setEthValid_tcp (v : Bool) : (s.setEthValid v).tcp = s.tcp := rfl
@[simp] theorem setEthValid_acc (v : Bool) : (s.setEthValid v).acc = s.acc := rfl
@[simp] theorem setEthValid_mem (v : Bool) : (s.setEthValid v).mem = s.mem := rfl
@[simp] theorem setEthValid_resetPin (v : Bool) : (s.setEthValid v).resetPin = s.resetPin := rfl
@[simp] theorem setEthValid_bus (v : Bool) : (s.setEthValid v).bus = s.bus := rfl
@[simp] theorem setEthValid_lastRead (v : Bool) : (s.setEthValid v).lastRead = s.lastRead := rfl
@[simp] theorem setEthValid_wait (v : Bool) : (s.setEthValid v).wait = s.wait := rfl
@[simp] theorem setEthValid_draws (v : Bool) : (s.setEthValid v).draws = s.draws := rfl

@[simp] theorem setIp4Valid_config (v : Bool) : (s.setIp4Valid v).config = s.config := rfl
@[simp] theorem setIp4Valid_eng (v : Bool) : (s.setIp4Valid v).eng = s.eng := rfl
@[simp] theorem setIp4Valid_err (v : Bool) : (s.setIp4Valid v).err = s.err := rfl
@[simp] theorem setIp4Valid_haz (v : Bool) : (s.setIp4Valid v).haz = s.haz := rfl
@[simp] theorem setIp4Valid_view (v : Bool) : (s.setIp4Valid v).view = { s.view with ip4Valid := v } := rfl
@[simp] theorem setIp4Valid_opnd (v : Bool) : (s.setIp4Valid v).opnd = s.opnd := rfl
@[simp] theorem setIp4Valid_outLen (v : Bool) : (s.setIp4Valid v).outLen = s.outLen := rfl
@[simp] theorem setIp4Valid_eth (v : Bool) : (s.setIp4Valid v).eth = s.eth := rfl
@[simp] theorem setIp4Valid_ip4 (v : Bool) : (s.setIp4Valid v).ip4 = s.ip4 := rfl
@[simp] theorem setIp4Valid_tcp (v : Bool) : (s.setIp4Valid v).tcp = s.tcp := rfl
@[simp] theorem setIp4Valid_acc (v : Bool) : (s.setIp4Valid v).acc = s.acc := rfl
@[simp] theorem setIp4Valid_mem (v : Bool) : (s.setIp4Valid v).mem = s.mem := rfl
@[simp] theorem setIp4Valid_resetPin (v : Bool) : (s.setIp4Valid v).resetPin = s.resetPin := rfl
@[simp] theorem setIp4Valid_bus (v : Bool) : (s.setIp4Valid v).bus = s.bus := rfl
@[simp] theorem setIp4Valid_lastRead (v : Bool) : (s.setIp4Valid v).lastRead = s.lastRead := rfl
@[simp] theorem setIp4Valid_wait (v : Bool) : (s.setIp4Valid v).wait = s.wait := rfl
@[simp] theorem setIp4Valid_draws (v : Bool) : (s.setIp4Valid v).draws = s.draws := rfl

@[simp] theorem setTcpValid_config (v : Bool) : (s.setTcpValid v).config = s.config := rfl
@[simp] theorem setTcpValid_eng (v : Bool) : (s.setTcpValid v).eng = s.eng := rfl
@[simp] theorem setTcpValid_err (v : Bool) : (s.setTcpValid v).err = s.err := rfl
@[simp] theorem setTcpValid_haz (v : Bool) : (s.setTcpValid v).haz = s.haz := rfl
@[simp] theorem setTcpValid_view (v : Bool) : (s.setTcpValid v).view = { s.view with tcpValid := v } := rfl
@[simp] theorem setTcpValid_opnd (v : Bool) : (s.setTcpValid v).opnd = s.opnd := rfl
@[simp] theorem setTcpValid_outLen (v : Bool) : (s.setTcpValid v).outLen = s.outLen := rfl
@[simp] theorem setTcpValid_eth (v : Bool) : (s.setTcpValid v).eth = s.eth := rfl
@[simp] theorem setTcpValid_ip4 (v : Bool) : (s.setTcpValid v).ip4 = s.ip4 := rfl
@[simp] theorem setTcpValid_tcp (v : Bool) : (s.setTcpValid v).tcp = s.tcp := rfl
@[simp] theorem setTcpValid_acc (v : Bool) : (s.setTcpValid v).acc = s.acc := rfl
@[simp] theorem setTcpValid_mem (v : Bool) : (s.setTcpValid v).mem = s.mem := rfl
@[simp] theorem setTcpValid_resetPin (v : Bool) : (s.setTcpValid v).resetPin = s.resetPin := rfl
@[simp] theorem setTcpValid_bus (v : Bool) : (s.setTcpValid v).bus = s.bus := rfl
@[simp] theorem setTcpValid_lastRead (v : Bool) : (s.setTcpValid v).lastRead = s.lastRead := rfl
@[simp] theorem setTcpValid_wait (v : Bool) : (s.setTcpValid v).wait = s.wait := rfl
@[simp] theorem setTcpValid_draws (v : Bool) : (s.setTcpValid v).draws = s.draws := rfl

@[simp] theorem emit_config (f : List Byte) : (s.emit f).config = s.config := rfl
@[simp] theorem emit_eng (f : List Byte) : (s.emit f).eng = s.eng := rfl
@[simp] theorem emit_err (f : List Byte) : (s.emit f).err = s.err := rfl
@[simp] theorem emit_haz (f : List Byte) : (s.emit f).haz = s.haz := rfl
@[simp] theorem emit_view (f : List Byte) : (s.emit f).view = s.view := rfl
@[simp] theorem emit_opnd (f : List Byte) : (s.emit f).opnd = s.opnd := rfl
@[simp] theorem emit_outLen (f : List Byte) : (s.emit f).outLen = BitVec.ofNat 32 f.length := rfl
@[simp] theorem emit_eth (f : List Byte) : (s.emit f).eth = s.eth := rfl
@[simp] theorem emit_ip4 (f : List Byte) : (s.emit f).ip4 = s.ip4 := rfl
@[simp] theorem emit_tcp (f : List Byte) : (s.emit f).tcp = s.tcp := rfl
@[simp] theorem emit_acc (f : List Byte) : (s.emit f).acc = s.acc := rfl
@[simp] theorem emit_mem (f : List Byte) : (s.emit f).mem = s.mem.writeBytes s.outStart f := rfl
@[simp] theorem emit_resetPin (f : List Byte) : (s.emit f).resetPin = s.resetPin := rfl
@[simp] theorem emit_bus (f : List Byte) : (s.emit f).bus = s.bus := rfl
@[simp] theorem emit_lastRead (f : List Byte) : (s.emit f).lastRead = s.lastRead := rfl
@[simp] theorem emit_wait (f : List Byte) : (s.emit f).wait = s.wait := rfl
@[simp] theorem emit_draws (f : List Byte) : (s.emit f).draws = s.draws := rfl

@[simp] theorem latchEth_config (h : EthHeader) : (s.latchEth h).config = s.config := rfl
@[simp] theorem latchEth_eng (h : EthHeader) : (s.latchEth h).eng = s.eng := rfl
@[simp] theorem latchEth_err (h : EthHeader) : (s.latchEth h).err = s.err := rfl
@[simp] theorem latchEth_haz (h : EthHeader) : (s.latchEth h).haz = s.haz := rfl
@[simp] theorem latchEth_view (h : EthHeader) : (s.latchEth h).view = s.view := rfl
@[simp] theorem latchEth_opnd (h : EthHeader) : (s.latchEth h).opnd = s.opnd := rfl
@[simp] theorem latchEth_outLen (h : EthHeader) : (s.latchEth h).outLen = s.outLen := rfl
@[simp] theorem latchEth_eth (h : EthHeader) : (s.latchEth h).eth =
    { dstHi := BitVec.ofNat 16 (h.dst >>> 32), dstLo := BitVec.ofNat 32 h.dst
      srcHi := BitVec.ofNat 16 (h.src >>> 32), srcLo := BitVec.ofNat 32 h.src
      etype := BitVec.ofNat 16 h.etype
      poff := BitVec.ofNat 32 (s.inStart + 14), plen := BitVec.ofNat 32 (s.inSize - 14) } := rfl
@[simp] theorem latchEth_ip4 (h : EthHeader) : (s.latchEth h).ip4 = s.ip4 := rfl
@[simp] theorem latchEth_tcp (h : EthHeader) : (s.latchEth h).tcp = s.tcp := rfl
@[simp] theorem latchEth_acc (h : EthHeader) : (s.latchEth h).acc = s.acc := rfl
@[simp] theorem latchEth_mem (h : EthHeader) : (s.latchEth h).mem = s.mem := rfl
@[simp] theorem latchEth_resetPin (h : EthHeader) : (s.latchEth h).resetPin = s.resetPin := rfl
@[simp] theorem latchEth_bus (h : EthHeader) : (s.latchEth h).bus = s.bus := rfl
@[simp] theorem latchEth_lastRead (h : EthHeader) : (s.latchEth h).lastRead = s.lastRead := rfl
@[simp] theorem latchEth_wait (h : EthHeader) : (s.latchEth h).wait = s.wait := rfl
@[simp] theorem latchEth_draws (h : EthHeader) : (s.latchEth h).draws = s.draws := rfl

@[simp] theorem latchIp4_config (b : Byte) (h : Ip4Header) : (s.latchIp4 b h).config = s.config := rfl
@[simp] theorem latchIp4_eng (b : Byte) (h : Ip4Header) : (s.latchIp4 b h).eng = s.eng := rfl
@[simp] theorem latchIp4_err (b : Byte) (h : Ip4Header) : (s.latchIp4 b h).err = s.err := rfl
@[simp] theorem latchIp4_haz (b : Byte) (h : Ip4Header) : (s.latchIp4 b h).haz = s.haz := rfl
@[simp] theorem latchIp4_view (b : Byte) (h : Ip4Header) : (s.latchIp4 b h).view = { s.view with ip4Poor := (payloadWindow s.inStart s.inSize (ip4HeaderLen b)).2.2 } := rfl
@[simp] theorem latchIp4_opnd (b : Byte) (h : Ip4Header) : (s.latchIp4 b h).opnd = s.opnd := rfl
@[simp] theorem latchIp4_outLen (b : Byte) (h : Ip4Header) : (s.latchIp4 b h).outLen = s.outLen := rfl
@[simp] theorem latchIp4_eth (b : Byte) (h : Ip4Header) : (s.latchIp4 b h).eth = s.eth := rfl
@[simp] theorem latchIp4_ip4 (b : Byte) (h : Ip4Header) : (s.latchIp4 b h).ip4 =
    { s.ip4 with
      proto := BitVec.ofNat 8 h.proto, src := BitVec.ofNat 32 h.src, dst := BitVec.ofNat 32 h.dst
      hlen := BitVec.ofNat 6 (ip4HeaderLen b)
      poff := BitVec.ofNat 32 (payloadWindow s.inStart s.inSize (ip4HeaderLen b)).1
      plen := BitVec.ofNat 32 (payloadWindow s.inStart s.inSize (ip4HeaderLen b)).2.1 } := rfl
@[simp] theorem latchIp4_tcp (b : Byte) (h : Ip4Header) : (s.latchIp4 b h).tcp = s.tcp := rfl
@[simp] theorem latchIp4_acc (b : Byte) (h : Ip4Header) : (s.latchIp4 b h).acc = s.acc := rfl
@[simp] theorem latchIp4_mem (b : Byte) (h : Ip4Header) : (s.latchIp4 b h).mem = s.mem := rfl
@[simp] theorem latchIp4_resetPin (b : Byte) (h : Ip4Header) : (s.latchIp4 b h).resetPin = s.resetPin := rfl
@[simp] theorem latchIp4_bus (b : Byte) (h : Ip4Header) : (s.latchIp4 b h).bus = s.bus := rfl
@[simp] theorem latchIp4_lastRead (b : Byte) (h : Ip4Header) : (s.latchIp4 b h).lastRead = s.lastRead := rfl
@[simp] theorem latchIp4_wait (b : Byte) (h : Ip4Header) : (s.latchIp4 b h).wait = s.wait := rfl
@[simp] theorem latchIp4_draws (b : Byte) (h : Ip4Header) : (s.latchIp4 b h).draws = s.draws := rfl

@[simp] theorem latchTcp_config (h : TcpHeader) : (s.latchTcp h).config = s.config := rfl
@[simp] theorem latchTcp_eng (h : TcpHeader) : (s.latchTcp h).eng = s.eng := rfl
@[simp] theorem latchTcp_err (h : TcpHeader) : (s.latchTcp h).err = s.err := rfl
@[simp] theorem latchTcp_haz (h : TcpHeader) : (s.latchTcp h).haz = s.haz := rfl
@[simp] theorem latchTcp_view (h : TcpHeader) : (s.latchTcp h).view = { s.view with tcpPoor := (payloadWindow s.inStart s.inSize (tcpHeaderLen h.b12)).2.2 } := rfl
@[simp] theorem latchTcp_opnd (h : TcpHeader) : (s.latchTcp h).opnd = s.opnd := rfl
@[simp] theorem latchTcp_outLen (h : TcpHeader) : (s.latchTcp h).outLen = s.outLen := rfl
@[simp] theorem latchTcp_eth (h : TcpHeader) : (s.latchTcp h).eth = s.eth := rfl
@[simp] theorem latchTcp_ip4 (h : TcpHeader) : (s.latchTcp h).ip4 = s.ip4 := rfl
@[simp] theorem latchTcp_tcp (h : TcpHeader) : (s.latchTcp h).tcp =
    { s.tcp with
      sport := BitVec.ofNat 16 h.sport, dport := BitVec.ofNat 16 h.dport
      seq := BitVec.ofNat 32 h.seq, ack := BitVec.ofNat 32 h.ack
      flags := TcpFlags.ofByte h.b13, win := BitVec.ofNat 16 h.win
      hlen := BitVec.ofNat 6 (tcpHeaderLen h.b12)
      poff := BitVec.ofNat 32 (payloadWindow s.inStart s.inSize (tcpHeaderLen h.b12)).1
      plen := BitVec.ofNat 32 (payloadWindow s.inStart s.inSize (tcpHeaderLen h.b12)).2.1 } := rfl
@[simp] theorem latchTcp_acc (h : TcpHeader) : (s.latchTcp h).acc = s.acc := rfl
@[simp] theorem latchTcp_mem (h : TcpHeader) : (s.latchTcp h).mem = s.mem := rfl
@[simp] theorem latchTcp_resetPin (h : TcpHeader) : (s.latchTcp h).resetPin = s.resetPin := rfl
@[simp] theorem latchTcp_bus (h : TcpHeader) : (s.latchTcp h).bus = s.bus := rfl
@[simp] theorem latchTcp_lastRead (h : TcpHeader) : (s.latchTcp h).lastRead = s.lastRead := rfl
@[simp] theorem latchTcp_wait (h : TcpHeader) : (s.latchTcp h).wait = s.wait := rfl
@[simp] theorem latchTcp_draws (h : TcpHeader) : (s.latchTcp h).draws = s.draws := rfl

@[simp] theorem setAcc_config (a : Half) : (s.setAcc a).config = s.config := rfl
@[simp] theorem setAcc_eng (a : Half) : (s.setAcc a).eng = s.eng := rfl
@[simp] theorem setAcc_err (a : Half) : (s.setAcc a).err = s.err := rfl
@[simp] theorem setAcc_haz (a : Half) : (s.setAcc a).haz = s.haz := rfl
@[simp] theorem setAcc_view (a : Half) : (s.setAcc a).view = s.view := rfl
@[simp] theorem setAcc_opnd (a : Half) : (s.setAcc a).opnd = s.opnd := rfl
@[simp] theorem setAcc_outLen (a : Half) : (s.setAcc a).outLen = s.outLen := rfl
@[simp] theorem setAcc_eth (a : Half) : (s.setAcc a).eth = s.eth := rfl
@[simp] theorem setAcc_ip4 (a : Half) : (s.setAcc a).ip4 = s.ip4 := rfl
@[simp] theorem setAcc_tcp (a : Half) : (s.setAcc a).tcp = s.tcp := rfl
@[simp] theorem setAcc_acc (a : Half) : (s.setAcc a).acc = { s.acc with acc := a } := rfl
@[simp] theorem setAcc_mem (a : Half) : (s.setAcc a).mem = s.mem := rfl
@[simp] theorem setAcc_resetPin (a : Half) : (s.setAcc a).resetPin = s.resetPin := rfl
@[simp] theorem setAcc_bus (a : Half) : (s.setAcc a).bus = s.bus := rfl
@[simp] theorem setAcc_lastRead (a : Half) : (s.setAcc a).lastRead = s.lastRead := rfl
@[simp] theorem setAcc_wait (a : Half) : (s.setAcc a).wait = s.wait := rfl
@[simp] theorem setAcc_draws (a : Half) : (s.setAcc a).draws = s.draws := rfl

@[simp] theorem setRes_config (r : Half) : (s.setRes r).config = s.config := rfl
@[simp] theorem setRes_eng (r : Half) : (s.setRes r).eng = s.eng := rfl
@[simp] theorem setRes_err (r : Half) : (s.setRes r).err = s.err := rfl
@[simp] theorem setRes_haz (r : Half) : (s.setRes r).haz = s.haz := rfl
@[simp] theorem setRes_view (r : Half) : (s.setRes r).view = s.view := rfl
@[simp] theorem setRes_opnd (r : Half) : (s.setRes r).opnd = s.opnd := rfl
@[simp] theorem setRes_outLen (r : Half) : (s.setRes r).outLen = s.outLen := rfl
@[simp] theorem setRes_eth (r : Half) : (s.setRes r).eth = s.eth := rfl
@[simp] theorem setRes_ip4 (r : Half) : (s.setRes r).ip4 = s.ip4 := rfl
@[simp] theorem setRes_tcp (r : Half) : (s.setRes r).tcp = s.tcp := rfl
@[simp] theorem setRes_acc (r : Half) : (s.setRes r).acc = { s.acc with res := r } := rfl
@[simp] theorem setRes_mem (r : Half) : (s.setRes r).mem = s.mem := rfl
@[simp] theorem setRes_resetPin (r : Half) : (s.setRes r).resetPin = s.resetPin := rfl
@[simp] theorem setRes_bus (r : Half) : (s.setRes r).bus = s.bus := rfl
@[simp] theorem setRes_lastRead (r : Half) : (s.setRes r).lastRead = s.lastRead := rfl
@[simp] theorem setRes_wait (r : Half) : (s.setRes r).wait = s.wait := rfl
@[simp] theorem setRes_draws (r : Half) : (s.setRes r).draws = s.draws := rfl

@[simp] theorem answer_config (v : Word) : (s.answer v).config = s.config := rfl
@[simp] theorem answer_eng (v : Word) : (s.answer v).eng = s.eng := rfl
@[simp] theorem answer_err (v : Word) : (s.answer v).err = s.err := rfl
@[simp] theorem answer_haz (v : Word) : (s.answer v).haz = s.haz := rfl
@[simp] theorem answer_view (v : Word) : (s.answer v).view = s.view := rfl
@[simp] theorem answer_opnd (v : Word) : (s.answer v).opnd = s.opnd := rfl
@[simp] theorem answer_outLen (v : Word) : (s.answer v).outLen = s.outLen := rfl
@[simp] theorem answer_eth (v : Word) : (s.answer v).eth = s.eth := rfl
@[simp] theorem answer_ip4 (v : Word) : (s.answer v).ip4 = s.ip4 := rfl
@[simp] theorem answer_tcp (v : Word) : (s.answer v).tcp = s.tcp := rfl
@[simp] theorem answer_acc (v : Word) : (s.answer v).acc = s.acc := rfl
@[simp] theorem answer_mem (v : Word) : (s.answer v).mem = s.mem := rfl
@[simp] theorem answer_resetPin (v : Word) : (s.answer v).resetPin = s.resetPin := rfl
@[simp] theorem answer_bus (v : Word) : (s.answer v).bus = s.bus := rfl
@[simp] theorem answer_lastRead (v : Word) : (s.answer v).lastRead = some v := rfl
@[simp] theorem answer_wait (v : Word) : (s.answer v).wait = s.wait := rfl
@[simp] theorem answer_draws (v : Word) : (s.answer v).draws = s.draws := rfl

@[simp] theorem answerFree_config (n : Nat) : (s.answerFree n).config = s.config := rfl
@[simp] theorem answerFree_eng (n : Nat) : (s.answerFree n).eng = s.eng := rfl
@[simp] theorem answerFree_err (n : Nat) : (s.answerFree n).err = s.err := rfl
@[simp] theorem answerFree_haz (n : Nat) : (s.answerFree n).haz = s.haz := rfl
@[simp] theorem answerFree_view (n : Nat) : (s.answerFree n).view = s.view := rfl
@[simp] theorem answerFree_opnd (n : Nat) : (s.answerFree n).opnd = s.opnd := rfl
@[simp] theorem answerFree_outLen (n : Nat) : (s.answerFree n).outLen = s.outLen := rfl
@[simp] theorem answerFree_eth (n : Nat) : (s.answerFree n).eth = s.eth := rfl
@[simp] theorem answerFree_ip4 (n : Nat) : (s.answerFree n).ip4 = s.ip4 := rfl
@[simp] theorem answerFree_tcp (n : Nat) : (s.answerFree n).tcp = s.tcp := rfl
@[simp] theorem answerFree_acc (n : Nat) : (s.answerFree n).acc = s.acc := rfl
@[simp] theorem answerFree_mem (n : Nat) : (s.answerFree n).mem = s.mem := rfl
@[simp] theorem answerFree_resetPin (n : Nat) : (s.answerFree n).resetPin = s.resetPin := rfl
@[simp] theorem answerFree_bus (n : Nat) : (s.answerFree n).bus = s.bus := rfl
@[simp] theorem answerFree_wait (n : Nat) : (s.answerFree n).wait = s.wait := rfl
@[simp] theorem answerFree_draws (n : Nat) : (s.answerFree n).draws = s.draws + 1 := rfl

@[simp] theorem writeStatus_config (w : Word) : (s.writeStatus w).config = s.config := rfl
@[simp] theorem writeStatus_eng (w : Word) : (s.writeStatus w).eng = s.eng := rfl
@[simp] theorem writeStatus_err (w : Word) : (s.writeStatus w).err = s.err := rfl
@[simp] theorem writeStatus_haz (w : Word) : (s.writeStatus w).haz = clearHaz s.haz w := rfl
@[simp] theorem writeStatus_view (w : Word) : (s.writeStatus w).view = s.view := rfl
@[simp] theorem writeStatus_opnd (w : Word) : (s.writeStatus w).opnd = s.opnd := rfl
@[simp] theorem writeStatus_outLen (w : Word) : (s.writeStatus w).outLen = s.outLen := rfl
@[simp] theorem writeStatus_eth (w : Word) : (s.writeStatus w).eth = s.eth := rfl
@[simp] theorem writeStatus_ip4 (w : Word) : (s.writeStatus w).ip4 = s.ip4 := rfl
@[simp] theorem writeStatus_tcp (w : Word) : (s.writeStatus w).tcp = s.tcp := rfl
@[simp] theorem writeStatus_acc (w : Word) : (s.writeStatus w).acc = s.acc := rfl
@[simp] theorem writeStatus_mem (w : Word) : (s.writeStatus w).mem = s.mem := rfl
@[simp] theorem writeStatus_resetPin (w : Word) : (s.writeStatus w).resetPin = s.resetPin := rfl
@[simp] theorem writeStatus_bus (w : Word) : (s.writeStatus w).bus = s.bus := rfl
@[simp] theorem writeStatus_lastRead (w : Word) : (s.writeStatus w).lastRead = s.lastRead := rfl
@[simp] theorem writeStatus_wait (w : Word) : (s.writeStatus w).wait = s.wait := rfl
@[simp] theorem writeStatus_draws (w : Word) : (s.writeStatus w).draws = s.draws := rfl

@[simp] theorem tick_config : (s.tick).config = s.config := rfl
@[simp] theorem tick_eng : (s.tick).eng = s.eng := rfl
@[simp] theorem tick_err : (s.tick).err = s.err := rfl
@[simp] theorem tick_haz : (s.tick).haz = s.haz := rfl
@[simp] theorem tick_view : (s.tick).view = s.view := rfl
@[simp] theorem tick_opnd : (s.tick).opnd = s.opnd := rfl
@[simp] theorem tick_outLen : (s.tick).outLen = s.outLen := rfl
@[simp] theorem tick_eth : (s.tick).eth = s.eth := rfl
@[simp] theorem tick_ip4 : (s.tick).ip4 = s.ip4 := rfl
@[simp] theorem tick_tcp : (s.tick).tcp = s.tcp := rfl
@[simp] theorem tick_acc : (s.tick).acc = s.acc := rfl
@[simp] theorem tick_mem : (s.tick).mem = s.mem := rfl
@[simp] theorem tick_resetPin : (s.tick).resetPin = s.resetPin := rfl
@[simp] theorem tick_bus : (s.tick).bus = s.bus := rfl
@[simp] theorem tick_lastRead : (s.tick).lastRead = s.lastRead := rfl
@[simp] theorem tick_wait : (s.tick).wait = s.wait - 1 := rfl
@[simp] theorem tick_draws : (s.tick).draws = s.draws := rfl

@[simp] theorem acceptCommand_config (w : Word) : (acceptCommand s w).config = s.config := rfl
@[simp] theorem acceptCommand_eng (w : Word) : (acceptCommand s w).eng = { busy := true, cmd := w } := rfl
@[simp] theorem acceptCommand_err (w : Word) : (acceptCommand s w).err = s.err := rfl
@[simp] theorem acceptCommand_haz (w : Word) : (acceptCommand s w).haz = s.haz := rfl
@[simp] theorem acceptCommand_view (w : Word) : (acceptCommand s w).view = s.view := rfl
@[simp] theorem acceptCommand_opnd (w : Word) : (acceptCommand s w).opnd = s.opnd := rfl
@[simp] theorem acceptCommand_outLen (w : Word) : (acceptCommand s w).outLen = s.outLen := rfl
@[simp] theorem acceptCommand_eth (w : Word) : (acceptCommand s w).eth = s.eth := rfl
@[simp] theorem acceptCommand_ip4 (w : Word) : (acceptCommand s w).ip4 = s.ip4 := rfl
@[simp] theorem acceptCommand_tcp (w : Word) : (acceptCommand s w).tcp = s.tcp := rfl
@[simp] theorem acceptCommand_acc (w : Word) : (acceptCommand s w).acc = s.acc := rfl
@[simp] theorem acceptCommand_mem (w : Word) : (acceptCommand s w).mem = s.mem := rfl
@[simp] theorem acceptCommand_resetPin (w : Word) : (acceptCommand s w).resetPin = s.resetPin := rfl
@[simp] theorem acceptCommand_bus (w : Word) : (acceptCommand s w).bus = s.bus := rfl
@[simp] theorem acceptCommand_lastRead (w : Word) : (acceptCommand s w).lastRead = s.lastRead := rfl
@[simp] theorem acceptCommand_draws (w : Word) : (acceptCommand s w).draws = s.draws + 1 := rfl

@[simp] theorem placeCommand_config (w : Word) : (placeCommand s w).config = s.config := rfl
@[simp] theorem placeCommand_eng (w : Word) : (placeCommand s w).eng = { busy := true, cmd := w } := rfl
@[simp] theorem placeCommand_err (w : Word) : (placeCommand s w).err = s.err := rfl
@[simp] theorem placeCommand_haz (w : Word) : (placeCommand s w).haz = s.haz := rfl
@[simp] theorem placeCommand_view (w : Word) : (placeCommand s w).view = s.view := rfl
@[simp] theorem placeCommand_opnd (w : Word) : (placeCommand s w).opnd = s.opnd := rfl
@[simp] theorem placeCommand_outLen (w : Word) : (placeCommand s w).outLen = s.outLen := rfl
@[simp] theorem placeCommand_eth (w : Word) : (placeCommand s w).eth = s.eth := rfl
@[simp] theorem placeCommand_ip4 (w : Word) : (placeCommand s w).ip4 = s.ip4 := rfl
@[simp] theorem placeCommand_tcp (w : Word) : (placeCommand s w).tcp = s.tcp := rfl
@[simp] theorem placeCommand_acc (w : Word) : (placeCommand s w).acc = s.acc := rfl
@[simp] theorem placeCommand_mem (w : Word) : (placeCommand s w).mem = s.mem := rfl
@[simp] theorem placeCommand_resetPin (w : Word) : (placeCommand s w).resetPin = false := rfl
@[simp] theorem placeCommand_bus (w : Word) : (placeCommand s w).bus = s.bus := rfl
@[simp] theorem placeCommand_lastRead (w : Word) : (placeCommand s w).lastRead = s.lastRead := rfl
@[simp] theorem placeCommand_wait (w : Word) : (placeCommand s w).wait = 0 := rfl
@[simp] theorem placeCommand_draws (w : Word) : (placeCommand s w).draws = s.draws := rfl

@[simp] theorem deassertReset_config : (deassertReset s).config = s.config := rfl
@[simp] theorem deassertReset_eng : (deassertReset s).eng = s.eng := rfl
@[simp] theorem deassertReset_err : (deassertReset s).err = s.err := rfl
@[simp] theorem deassertReset_haz : (deassertReset s).haz = s.haz := rfl
@[simp] theorem deassertReset_view : (deassertReset s).view = s.view := rfl
@[simp] theorem deassertReset_opnd : (deassertReset s).opnd = s.opnd := rfl
@[simp] theorem deassertReset_outLen : (deassertReset s).outLen = s.outLen := rfl
@[simp] theorem deassertReset_eth : (deassertReset s).eth = s.eth := rfl
@[simp] theorem deassertReset_ip4 : (deassertReset s).ip4 = s.ip4 := rfl
@[simp] theorem deassertReset_tcp : (deassertReset s).tcp = s.tcp := rfl
@[simp] theorem deassertReset_acc : (deassertReset s).acc = s.acc := rfl
@[simp] theorem deassertReset_mem : (deassertReset s).mem = s.mem := rfl
@[simp] theorem deassertReset_resetPin : (deassertReset s).resetPin = false := rfl
@[simp] theorem deassertReset_bus : (deassertReset s).bus = s.bus := rfl
@[simp] theorem deassertReset_lastRead : (deassertReset s).lastRead = s.lastRead := rfl
@[simp] theorem deassertReset_wait : (deassertReset s).wait = s.wait := rfl
@[simp] theorem deassertReset_draws : (deassertReset s).draws = s.draws := rfl

@[simp] theorem finished_inStart (c : ResultCode) : (s.finished c).inStart = s.inStart := rfl
@[simp] theorem setEthValid_inStart (v : Bool) : (s.setEthValid v).inStart = s.inStart := rfl
@[simp] theorem setIp4Valid_inStart (v : Bool) : (s.setIp4Valid v).inStart = s.inStart := rfl
@[simp] theorem setTcpValid_inStart (v : Bool) : (s.setTcpValid v).inStart = s.inStart := rfl
@[simp] theorem emit_inStart (f : List Byte) : (s.emit f).inStart = s.inStart := rfl
@[simp] theorem latchEth_inStart (h : EthHeader) : (s.latchEth h).inStart = s.inStart := rfl
@[simp] theorem latchIp4_inStart (b : Byte) (h : Ip4Header) : (s.latchIp4 b h).inStart = s.inStart := rfl
@[simp] theorem latchTcp_inStart (h : TcpHeader) : (s.latchTcp h).inStart = s.inStart := rfl
@[simp] theorem setAcc_inStart (a : Half) : (s.setAcc a).inStart = s.inStart := rfl
@[simp] theorem setRes_inStart (r : Half) : (s.setRes r).inStart = s.inStart := rfl
@[simp] theorem finished_inSize (c : ResultCode) : (s.finished c).inSize = s.inSize := rfl
@[simp] theorem setEthValid_inSize (v : Bool) : (s.setEthValid v).inSize = s.inSize := rfl
@[simp] theorem setIp4Valid_inSize (v : Bool) : (s.setIp4Valid v).inSize = s.inSize := rfl
@[simp] theorem setTcpValid_inSize (v : Bool) : (s.setTcpValid v).inSize = s.inSize := rfl
@[simp] theorem emit_inSize (f : List Byte) : (s.emit f).inSize = s.inSize := rfl
@[simp] theorem latchEth_inSize (h : EthHeader) : (s.latchEth h).inSize = s.inSize := rfl
@[simp] theorem latchIp4_inSize (b : Byte) (h : Ip4Header) : (s.latchIp4 b h).inSize = s.inSize := rfl
@[simp] theorem latchTcp_inSize (h : TcpHeader) : (s.latchTcp h).inSize = s.inSize := rfl
@[simp] theorem setAcc_inSize (a : Half) : (s.setAcc a).inSize = s.inSize := rfl
@[simp] theorem setRes_inSize (r : Half) : (s.setRes r).inSize = s.inSize := rfl
@[simp] theorem finished_outStart (c : ResultCode) : (s.finished c).outStart = s.outStart := rfl
@[simp] theorem setEthValid_outStart (v : Bool) : (s.setEthValid v).outStart = s.outStart := rfl
@[simp] theorem setIp4Valid_outStart (v : Bool) : (s.setIp4Valid v).outStart = s.outStart := rfl
@[simp] theorem setTcpValid_outStart (v : Bool) : (s.setTcpValid v).outStart = s.outStart := rfl
@[simp] theorem emit_outStart (f : List Byte) : (s.emit f).outStart = s.outStart := rfl
@[simp] theorem latchEth_outStart (h : EthHeader) : (s.latchEth h).outStart = s.outStart := rfl
@[simp] theorem latchIp4_outStart (b : Byte) (h : Ip4Header) : (s.latchIp4 b h).outStart = s.outStart := rfl
@[simp] theorem latchTcp_outStart (h : TcpHeader) : (s.latchTcp h).outStart = s.outStart := rfl
@[simp] theorem setAcc_outStart (a : Half) : (s.setAcc a).outStart = s.outStart := rfl
@[simp] theorem setRes_outStart (r : Half) : (s.setRes r).outStart = s.outStart := rfl
@[simp] theorem finished_payStart (c : ResultCode) : (s.finished c).payStart = s.payStart := rfl
@[simp] theorem setEthValid_payStart (v : Bool) : (s.setEthValid v).payStart = s.payStart := rfl
@[simp] theorem setIp4Valid_payStart (v : Bool) : (s.setIp4Valid v).payStart = s.payStart := rfl
@[simp] theorem setTcpValid_payStart (v : Bool) : (s.setTcpValid v).payStart = s.payStart := rfl
@[simp] theorem emit_payStart (f : List Byte) : (s.emit f).payStart = s.payStart := rfl
@[simp] theorem latchEth_payStart (h : EthHeader) : (s.latchEth h).payStart = s.payStart := rfl
@[simp] theorem latchIp4_payStart (b : Byte) (h : Ip4Header) : (s.latchIp4 b h).payStart = s.payStart := rfl
@[simp] theorem latchTcp_payStart (h : TcpHeader) : (s.latchTcp h).payStart = s.payStart := rfl
@[simp] theorem setAcc_payStart (a : Half) : (s.setAcc a).payStart = s.payStart := rfl
@[simp] theorem setRes_payStart (r : Half) : (s.setRes r).payStart = s.payStart := rfl
@[simp] theorem finished_paySize (c : ResultCode) : (s.finished c).paySize = s.paySize := rfl
@[simp] theorem setEthValid_paySize (v : Bool) : (s.setEthValid v).paySize = s.paySize := rfl
@[simp] theorem setIp4Valid_paySize (v : Bool) : (s.setIp4Valid v).paySize = s.paySize := rfl
@[simp] theorem setTcpValid_paySize (v : Bool) : (s.setTcpValid v).paySize = s.paySize := rfl
@[simp] theorem emit_paySize (f : List Byte) : (s.emit f).paySize = s.paySize := rfl
@[simp] theorem latchEth_paySize (h : EthHeader) : (s.latchEth h).paySize = s.paySize := rfl
@[simp] theorem latchIp4_paySize (b : Byte) (h : Ip4Header) : (s.latchIp4 b h).paySize = s.paySize := rfl
@[simp] theorem latchTcp_paySize (h : TcpHeader) : (s.latchTcp h).paySize = s.paySize := rfl
@[simp] theorem setAcc_paySize (a : Half) : (s.setAcc a).paySize = s.paySize := rfl
@[simp] theorem setRes_paySize (r : Half) : (s.setRes r).paySize = s.paySize := rfl

end Sys2Proof.Machine
end

