-- ==== Sys2Proof/Laws/Ops.lean ====
section
/-! SUPPORT. For each shared operation, what it can answer, said once; later proofs cite these and do not unfold the operation. -/

namespace Sys2Proof.Machine

@[simp] theorem finish_eq (s : State) (c : ResultCode) : finish s c = .next (s.finished c) := rfl
@[simp] theorem complete_eq (s : State) : complete s = .next (s.finished .ok) := rfl
@[simp] theorem raiseError_eq (s : State) (c : ResultCode) : raiseError s c = .next (s.finished c) := rfl

@[simp] theorem withRead_some {α : Type} (v : α) (k : α → Result) : withRead (some v) k = k v := rfl
@[simp] theorem withRead_none {α : Type} (k : α → Result) : withRead none k = .fault .unwrittenRead := rfl

/-- What follows a read answers a next state only where the bytes have been written. -/
theorem withRead_next {α : Type} {r : Option α} {k : α → Result} {t : State} (h : withRead r k = .next t) :
    ∃ v, r = some v ∧ k v = .next t := by
  cases r with
  | none => cases h
  | some v => exact ⟨v, rfl, h⟩

@[simp] theorem regionAdmitted_iff (c : Config) (o n : Nat) : regionAdmitted c o n = true ↔ o + n ≤ c.memSize := by
  simp [regionAdmitted]

@[simp] theorem inputOk_iff (s : State) : s.inputOk = true ↔ s.inStart + s.inSize ≤ s.config.memSize := by
  simp [State.inputOk]

@[simp] theorem buildOk_iff (s : State) (h : Nat) :
    s.buildOk h = true ↔ s.payStart + s.paySize ≤ s.config.memSize ∧ s.outStart + (h + s.paySize) ≤ s.config.memSize := by
  simp [State.buildOk]

/-- The write region of each build (30_encoding.md R113). -/
@[simp] theorem writes_ethBuild (s : State) (a : Nat) : s.writes .ethBuild a ↔ inRegion a s.outStart (14 + s.paySize) := Iff.rfl
@[simp] theorem writes_ip4Build (s : State) (a : Nat) : s.writes .ip4Build a ↔ inRegion a s.outStart (20 + s.paySize) := Iff.rfl
@[simp] theorem writes_tcpBuild (s : State) (a : Nat) : s.writes .tcpBuild a ↔ inRegion a s.outStart (20 + s.paySize) := Iff.rfl
@[simp] theorem writes_tcpBuildCsum (s : State) (a : Nat) :
    s.writes .tcpBuildCsum a ↔ inRegion a s.outStart (20 + s.paySize) := Iff.rfl

/-- The read set of each command (30_encoding.md R113). -/
@[simp] theorem reads_ethParse (s : State) (a : Nat) : s.reads .ethParse a ↔ inRegion a s.inStart 14 := by
  simp [State.reads, readRegions]
@[simp] theorem reads_ip4Parse (s : State) (a : Nat) : s.reads .ip4Parse a ↔
    inRegion a s.inStart 1 ∨ inRegion a (s.inStart + 9) 1 ∨ inRegion a (s.inStart + 12) 8 := by
  simp [State.reads, readRegions]
@[simp] theorem reads_tcpParse (s : State) (a : Nat) : s.reads .tcpParse a ↔ inRegion a s.inStart 16 := by
  simp [State.reads, readRegions]
@[simp] theorem reads_ethBuild (s : State) (a : Nat) : s.reads .ethBuild a ↔ inRegion a s.payStart s.paySize := by
  simp [State.reads, readRegions]
@[simp] theorem reads_ip4Build (s : State) (a : Nat) : s.reads .ip4Build a ↔ inRegion a s.payStart s.paySize := by
  simp [State.reads, readRegions]
@[simp] theorem reads_tcpBuild (s : State) (a : Nat) : s.reads .tcpBuild a ↔ inRegion a s.payStart s.paySize := by
  simp [State.reads, readRegions]
@[simp] theorem reads_tcpBuildCsum (s : State) (a : Nat) : s.reads .tcpBuildCsum a ↔ inRegion a s.payStart s.paySize := by
  simp [State.reads, readRegions]
@[simp] theorem reads_ip4Csum (s : State) (a : Nat) : s.reads .ip4Csum a ↔ inRegion a s.inStart s.inSize := by
  simp [State.reads, readRegions]
@[simp] theorem reads_csumAddmem (s : State) (a : Nat) : s.reads .csumAddmem a ↔ inRegion a s.inStart s.inSize := by
  simp [State.reads, readRegions]

/-- MEM_SIZE is between 64 and 65536 (00_scope.md R9). -/
theorem memSize_bounds (c : Config) : 64 ≤ c.memSize ∧ c.memSize ≤ 65536 := by
  obtain ⟨⟨k, hk⟩⟩ := c
  simp only [Config.memSize]
  interval_cases k <;> decide

/-- MEM_SIZE is a multiple of 64 (00_scope.md R9). -/
theorem memSize_mod (c : Config) : c.memSize % 64 = 0 := by
  obtain ⟨⟨k, hk⟩⟩ := c
  simp only [Config.memSize]
  interval_cases k <;> decide

/-- All a build can do (20_memory.md R90): REGION_RANGE with nothing else written, or the frame around the payload snapshot written, or a stop at
an unwritten payload byte. -/
theorem buildFrame_cases (s : State) (h : Nat) (frame : List Byte → List Byte) :
    (s.buildOk h = false ∧ buildFrame s h frame = .next (s.finished .regionRange)) ∨
    (s.buildOk h = true ∧ s.payload = none ∧ buildFrame s h frame = .fault .unwrittenRead) ∨
    (s.buildOk h = true ∧ ∃ pay, s.payload = some pay ∧ buildFrame s h frame = .next ((s.emit (frame pay)).finished .ok)) := by
  unfold buildFrame
  cases hb : s.buildOk h with
  | false => exact .inl ⟨rfl, rfl⟩
  | true =>
    cases hp : s.payload with
    | none => exact .inr (.inl ⟨rfl, rfl, rfl⟩)
    | some pay => exact .inr (.inr ⟨rfl, pay, rfl, rfl⟩)

/-- The payload snapshot has the payload's length. -/
theorem payload_length {s : State} {pay : List Byte} (h : s.payload = some pay) : pay.length = s.paySize :=
  ((Memory.readBytes_eq_some _ _ _ _).1 h).1

/-- The two cases of the payload window (41_ipv4.md R161). -/
theorem payloadWindow_cases (o n h : Nat) :
    (h ≤ n ∧ payloadWindow o n h = (o + h, n - h, false)) ∨ (n < h ∧ payloadWindow o n h = (o + h, 0, true)) := by
  unfold payloadWindow
  by_cases hn : h ≤ n
  · exact .inl ⟨hn, by simp [hn]⟩
  · exact .inr ⟨by omega, by simp [hn]⟩

/-- Completion runs the decoded command; an illegal word completes with ILLEGAL_COMMAND (30_encoding.md R116). -/
theorem runCommand_cases (s : State) :
    (∃ i, decodeWord s.eng.cmd = .ok i ∧ runCommand s = exec i s) ∨
    ((∀ i, decodeWord s.eng.cmd ≠ .ok i) ∧ runCommand s = .next (s.finished .illegalCommand)) := by
  unfold runCommand
  cases h : decodeWord s.eng.cmd with
  | ok i => exact .inl ⟨i, rfl, rfl⟩
  | error e => exact .inr ⟨by simp, rfl⟩

theorem due_iff (s : State) : s.due = true ↔ s.completing := by
  simp [State.due, State.completing, and_assoc]

/-- A step is the completion of the command that is due, or else a cycle of the outside (20_memory.md R94). -/
theorem step_cases (s : State) :
    (s.completing ∧ step s = runCommand s) ∨ (¬ s.completing ∧ step s = outsideCycle s) := by
  unfold step cycle
  by_cases h : s.due = true
  · exact .inl ⟨(due_iff s).1 h, by simp [h]⟩
  · exact .inr ⟨fun hc => h ((due_iff s).2 hc), by simp [h]⟩

theorem idle_not_completing {s : State} (h : s.idle) : ¬ s.completing := by
  rintro ⟨_, hb, _⟩; simp [h.2] at hb

theorem running_not_completing {s : State} (h : s.running) : ¬ s.completing := by
  rintro ⟨_, _, hw⟩; have := h.2.2; omega

/-- A step that completes no command, with nothing to come from outside. -/
theorem step_quiet {s : State} (h : ¬ s.completing) (hb : s.bus = []) : step s = .next s.tick := by
  rcases step_cases s with ⟨hc, _⟩ | ⟨_, hs⟩
  · exact absurd hc h
  · rw [hs]; simp [outsideCycle, hb]

/-- A step that completes no command, outside reset: the next event from outside happens. -/
theorem step_event {s : State} {e : HostEvent} {rest : List HostEvent} (h : ¬ s.completing) (hr : s.resetPin = false)
    (hb : s.bus = e :: rest) : step s = hostEvent (s.afterEvent rest) e := by
  rcases step_cases s with ⟨hc, _⟩ | ⟨_, hs⟩
  · exact absurd hc h
  · rw [hs]; simp [outsideCycle, hb, hr, State.afterEvent, State.tick]

/-- A step while reset is asserted: the next event from outside happens. -/
theorem step_event_in_reset {s : State} {e : HostEvent} {rest : List HostEvent} (hr : s.resetPin = true)
    (hb : s.bus = e :: rest) : step s = eventInReset (s.afterEvent rest) e := by
  rcases step_cases s with ⟨⟨hc, _⟩, _⟩ | ⟨_, hs⟩
  · simp [hr] at hc
  · rw [hs]; simp [outsideCycle, hb, hr, State.afterEvent, State.tick]

/-- All a host read can do (20_memory.md R80 to R83; 70_reset_and_hazards.md R281). -/
theorem busRead_cases (s : State) (w : Width) (a : HostAddr) :
    (busTarget s.config w a = none ∧ busRead s w a = .fault .busError) ∨
    (∃ t, busTarget s.config w a = some t ∧ s.eng.busy = true ∧ busRead s w a = .next (readBusy s t)) ∨
    (∃ t, busTarget s.config w a = some t ∧ s.eng.busy = false ∧ busRead s w a = readIdle s t) := by
  unfold busRead
  cases ht : busTarget s.config w a with
  | none => exact .inl ⟨rfl, rfl⟩
  | some t =>
    cases hb : s.eng.busy with
    | true => exact .inr (.inl ⟨t, rfl, rfl, by simp⟩)
    | false => exact .inr (.inr ⟨t, rfl, rfl, by simp⟩)

/-- All a host write can do (20_memory.md R80 to R83; 70_reset_and_hazards.md R280). -/
theorem busWrite_cases (s : State) (w : Width) (a : HostAddr) (d : Word) :
    (busTarget s.config w a = none ∧ busWrite s w a d = .fault .busError) ∨
    (∃ t, busTarget s.config w a = some t ∧ s.eng.busy = true ∧ busWrite s w a d = .next (writeBusy s d t)) ∨
    (∃ t, busTarget s.config w a = some t ∧ s.eng.busy = false ∧ busWrite s w a d = .next (writeIdle s d t)) := by
  unfold busWrite
  cases ht : busTarget s.config w a with
  | none => exact .inl ⟨rfl, rfl⟩
  | some t =>
    cases hb : s.eng.busy with
    | true => exact .inr (.inl ⟨t, rfl, rfl, by simp⟩)
    | false => exact .inr (.inr ⟨t, rfl, rfl, by simp⟩)

/-- A busy read changes nothing but what the host holds and the count of free values. -/
theorem readBusy_eq (s : State) (t : BusTarget) :
    ∃ v n, readBusy s t = { s with lastRead := some v, draws := n } := by
  cases t with
  | reg r => cases r <;> exact ⟨_, _, rfl⟩
  | memByte i => exact ⟨_, _, rfl⟩
  | memWord i => exact ⟨_, _, rfl⟩

/-- An idle read that answers changes nothing but what the host holds. -/
theorem readIdle_next {s u : State} {t : BusTarget} (h : readIdle s t = .next u) : ∃ v, u = s.answer v := by
  cases t with
  | reg r => cases h; exact ⟨_, rfl⟩
  | memByte i => obtain ⟨b, -, hb⟩ := withRead_next h; cases hb; exact ⟨_, rfl⟩
  | memWord i => obtain ⟨b, -, hb⟩ := withRead_next h; cases hb; exact ⟨_, rfl⟩

/-- A busy write changes nothing but HAZ. -/
theorem writeBusy_eq (s : State) (d : Word) (t : BusTarget) : ∃ z, writeBusy s d t = { s with haz := z } := by
  cases t with
  | reg r => cases r <;> exact ⟨_, rfl⟩
  | memByte i => exact ⟨_, rfl⟩
  | memWord i => exact ⟨_, rfl⟩

/-- The address map answers only offsets inside MEM, and words only where four bytes fit (20_memory.md R83). -/
theorem busTarget_in_range (c : Config) (w : Width) (a : HostAddr) :
    (∀ i, busTarget c w a = some (.memByte i) → i < c.memSize) ∧
    (∀ i, busTarget c w a = some (.memWord i) → i + 4 ≤ c.memSize) := by
  have hm := memSize_mod c
  refine ⟨fun i h => ?_, fun i h => ?_⟩ <;>
  · cases w <;> simp only [busTarget] at h <;> split_ifs at h <;>
      first
        | (cases hr : regAt a.toNat <;> simp [hr] at h; done)
        | (simp at h; done)
        | (simp only [Option.some.injEq, BusTarget.memByte.injEq, BusTarget.memWord.injEq] at h; omega)

/-- Asserting reset keeps the parameters and what is the host's (70_reset_and_hazards.md R270). -/
theorem assertReset_eq (s : State) (h : s.resetPin = false) :
    assertReset s =
      { State.resetWith s.config s.memAfterReset with
        resetPin := true, bus := s.bus, lastRead := s.lastRead, draws := s.draws } := by
  simp [assertReset, h]

end Sys2Proof.Machine
end

