-- ==== Sys2Proof/Laws/Bus.lean ====
section
/-! SUPPORT. What the address map answers, said once (10_state.md R33; 20_memory.md R80 to R83). -/

namespace Sys2Proof.Machine

/-- The addresses of the registers, in the order of the map. -/
theorem regAddr_list : allRegs.map regAddr =
    [0x000, 0x004, 0x008, 0x00C, 0x010, 0x014, 0x018, 0x01C, 0x020, 0x024,
     0x040, 0x044, 0x048, 0x04C, 0x050, 0x054, 0x058,
     0x080, 0x084, 0x088, 0x08C, 0x090, 0x094, 0x098,
     0x0C0, 0x0C4, 0x0C8, 0x0CC, 0x0D0, 0x0D4, 0x0D8, 0x0DC, 0x0E0, 0x0E4, 0x0E8, 0x0EC, 0x100, 0x104] := rfl

/-- Every register lies in the register space, so its host address is its address. -/
theorem regAddr_lt (r : Reg) : regAddr r < 0x1000 := by cases r <;> decide

@[simp] theorem hostAddr_toNat (r : Reg) : (hostAddr r).toNat = regAddr r := by cases r <;> rfl

@[simp] theorem regAt_regAddr (r : Reg) : regAt (regAddr r) = some r := by cases r <;> rfl

/-- The register found at an address is the one listed there. -/
theorem regAt_eq_some {n : Nat} {r : Reg} : regAt n = some r ↔ n = regAddr r := by
  constructor
  · intro h
    exact (beq_iff_eq.1 (List.find?_some (p := fun r => regAddr r == n) h)).symm
  · rintro rfl; exact regAt_regAddr r

theorem regAt_eq_none {n : Nat} : regAt n = none ↔ n ∉ allRegs.map regAddr := by
  simp only [regAt, List.find?_eq_none, List.mem_map, beq_iff_eq, not_exists, not_and]

theorem busTarget_low {c : Config} {w : Width} {a : HostAddr} (h : a.toNat < 0x1000) :
    busTarget c w a = if w = .w32 then (regAt a.toNat).map .reg else none := by simp only [busTarget, if_pos h]

theorem busTarget_hole {c : Config} {w : Width} {a : HostAddr} (h1 : 0x1000 ≤ a.toNat)
    (h2 : a.toNat < 0x10000 ∨ 0x10000 + c.memSize ≤ a.toNat) : busTarget c w a = none := by
  simp only [busTarget, if_neg (show ¬ a.toNat < 0x1000 by omega)]
  rcases h2 with h2 | h2
  · rw [if_pos h2]
  · rw [if_neg (by omega), if_neg (by omega)]

theorem busTarget_mem {c : Config} {w : Width} {a : HostAddr} {i : Nat} (ha : a.toNat = 0x10000 + i) (hi : i < c.memSize) :
    busTarget c w a =
      match w with
      | .w8 => some (.memByte i)
      | .w16 => none
      | .w32 => if i % 4 = 0 then some (.memWord i) else none := by
  have e : a.toNat - 0x10000 = i := by omega
  cases w <;> simp only [busTarget, e] <;> rw [if_neg (by omega), if_neg (by omega), if_pos hi]

/-- All that a host address can be. -/
theorem hostAddr_cases (c : Config) (a : HostAddr) :
    a.toNat < 0x1000 ∨ (0x1000 ≤ a.toNat ∧ (a.toNat < 0x10000 ∨ 0x10000 + c.memSize ≤ a.toNat)) ∨
    ∃ i, a.toNat = 0x10000 + i ∧ i < c.memSize := by
  by_cases h1 : a.toNat < 0x1000
  · exact .inl h1
  · by_cases h2 : a.toNat < 0x10000 ∨ 0x10000 + c.memSize ≤ a.toNat
    · exact .inr (.inl ⟨by omega, h2⟩)
    · exact .inr (.inr ⟨a.toNat - 0x10000, by omega, by omega⟩)

/-- A register is reached by a 32-bit access at its address and by nothing else. -/
theorem busTarget_reg {c : Config} {w : Width} {a : HostAddr} {r : Reg} :
    busTarget c w a = some (.reg r) ↔ w = .w32 ∧ a = hostAddr r := by
  constructor
  · intro h
    rcases hostAddr_cases c a with h1 | ⟨h1, h2⟩ | ⟨i, h1, h2⟩
    · rw [busTarget_low h1] at h
      split_ifs at h with hw
      rw [Option.map_eq_some_iff] at h
      obtain ⟨q, hq, e⟩ := h
      cases e
      exact ⟨hw, BitVec.eq_of_toNat_eq (by rw [hostAddr_toNat]; exact regAt_eq_some.1 hq)⟩
    · rw [busTarget_hole h1 h2] at h; cases h
    · rw [busTarget_mem h1 h2] at h
      cases w <;> simp at h
  · rintro ⟨rfl, rfl⟩
    rw [busTarget_low (by rw [hostAddr_toNat]; exact regAddr_lt r)]
    simp

/-- A byte of MEM is reached by an 8-bit access at its window address and by nothing else. -/
theorem busTarget_memByte {c : Config} {w : Width} {a : HostAddr} {i : Nat} :
    busTarget c w a = some (.memByte i) ↔ w = .w8 ∧ a.toNat = 0x10000 + i ∧ i < c.memSize := by
  constructor
  · intro h
    rcases hostAddr_cases c a with h1 | ⟨h1, h2⟩ | ⟨k, h1, h2⟩
    · rw [busTarget_low h1] at h
      split_ifs at h
      rw [Option.map_eq_some_iff] at h
      obtain ⟨q, -, e⟩ := h
      cases e
    · rw [busTarget_hole h1 h2] at h; cases h
    · rw [busTarget_mem h1 h2] at h
      cases w <;> simp at h
      subst h; exact ⟨rfl, h1, h2⟩
  · rintro ⟨rfl, ha, hi⟩
    rw [busTarget_mem ha hi]

/-- A word of MEM is reached by a 32-bit access at its window address, a multiple of 4, and by nothing else. -/
theorem busTarget_memWord {c : Config} {w : Width} {a : HostAddr} {i : Nat} :
    busTarget c w a = some (.memWord i) ↔ w = .w32 ∧ a.toNat = 0x10000 + i ∧ i < c.memSize ∧ i % 4 = 0 := by
  constructor
  · intro h
    rcases hostAddr_cases c a with h1 | ⟨h1, h2⟩ | ⟨k, h1, h2⟩
    · rw [busTarget_low h1] at h
      split_ifs at h
      rw [Option.map_eq_some_iff] at h
      obtain ⟨q, -, e⟩ := h
      cases e
    · rw [busTarget_hole h1 h2] at h; cases h
    · rw [busTarget_mem h1 h2] at h
      cases w <;> simp at h
      obtain ⟨h4, rfl⟩ := h; exact ⟨rfl, h1, h2, by omega⟩
  · rintro ⟨rfl, ha, hi, h4⟩
    rw [busTarget_mem ha hi]
    simp [h4]

/-- The accesses allowed are those that reach something. -/
theorem allowedAccess_iff {c : Config} {w : Width} {a : HostAddr} : allowedAccess c w a ↔ busTarget c w a ≠ none := by
  constructor
  · rintro (⟨rfl, h⟩ | ⟨h1, h2, rfl | ⟨rfl, h3⟩⟩)
    · rw [← regAddr_list, List.mem_map] at h
      obtain ⟨r, -, hr⟩ := h
      have : a = hostAddr r := BitVec.eq_of_toNat_eq (by rw [hostAddr_toNat, hr])
      rw [busTarget_reg.2 ⟨rfl, this⟩]; simp
    · rw [busTarget_memByte.2 ⟨rfl, by omega, h2⟩]; simp
    · rw [busTarget_memWord.2 ⟨rfl, by omega, h2, h3⟩]; simp
  · intro h
    obtain ⟨t, ht⟩ := Option.ne_none_iff_exists'.1 h
    cases t with
    | reg r =>
      obtain ⟨rfl, rfl⟩ := busTarget_reg.1 ht
      refine .inl ⟨rfl, ?_⟩
      rw [hostAddr_toNat, ← regAddr_list]
      exact List.mem_map_of_mem (by cases r <;> decide)
    | memByte i =>
      obtain ⟨rfl, ha, hi⟩ := busTarget_memByte.1 ht
      exact .inr ⟨by omega, by omega, .inl rfl⟩
    | memWord i =>
      obtain ⟨rfl, ha, hi, h4⟩ := busTarget_memWord.1 ht
      exact .inr ⟨by omega, by omega, .inr ⟨rfl, by omega⟩⟩

end Sys2Proof.Machine
end

