-- ==== Sys2Proof/Laws/Bytes.lean ====
section
/-! SUPPORT. Big-endian conversion there and back (00_scope.md R15), and the bytes of the fixed widths written out. -/

namespace Sys2Proof.Machine

@[simp] theorem toBe_length : ∀ n v : Nat, (toBe n v).length = n
  | 0, _ => rfl
  | n + 1, v => by simp [toBe, toBe_length n v]

theorem beNat_from (bs : List Byte) : ∀ v : Nat,
    bs.foldl (fun v b => v * 256 + b.toNat) v = v * 256 ^ bs.length + beNat bs := by
  unfold beNat
  induction bs with
  | nil => intro v; simp
  | cons b bs ih =>
    intro v
    simp only [List.foldl_cons, List.length_cons]
    rw [ih (v * 256 + b.toNat), ih (0 * 256 + b.toNat)]
    ring

@[simp] theorem beNat_nil : beNat [] = 0 := rfl

theorem beNat_cons (b : Byte) (bs : List Byte) : beNat (b :: bs) = b.toNat * 256 ^ bs.length + beNat bs := by
  have := beNat_from bs (0 * 256 + b.toNat)
  simpa [beNat] using this

/-- A sequence of n bytes has a value below 256^n. -/
theorem beNat_lt (bs : List Byte) : beNat bs < 256 ^ bs.length := by
  induction bs with
  | nil => simp
  | cons b bs ih =>
    rw [beNat_cons, List.length_cons, pow_succ]
    have := b.isLt
    nlinarith [Nat.pow_pos (n := bs.length) (show 0 < 256 by norm_num)]

/-- Reading back what was laid out gives the value, truncated to the bytes there are. -/
theorem beNat_toBe : ∀ n v : Nat, beNat (toBe n v) = v % 256 ^ n
  | 0, v => by simp [toBe, Nat.mod_one]
  | n + 1, v => by
    rw [toBe, beNat_cons, toBe_length, beNat_toBe n v, Nat.shiftRight_eq_div_pow, BitVec.toNat_ofNat]
    have h : (2 : Nat) ^ (8 * n) = 256 ^ n := by rw [pow_mul]; norm_num
    rw [h, pow_succ 256, Nat.mod_mul, show (2 : Nat) ^ 8 = 256 by norm_num]
    ring

/-- One byte's value. -/
theorem beNat_one (a : Byte) : beNat [a] = a.toNat := by simp [beNat_cons]

/-- Two bytes' value, the first the higher. -/
theorem beNat_two (a b : Byte) : beNat [a, b] = (a ++ b : BitVec 16).toNat := by
  have := b.isLt
  simp only [beNat_cons, beNat_nil, List.length_cons, List.length_nil, BitVec.toNat_append]
  rw [← Nat.shiftLeft_add_eq_or_of_lt (show b.toNat < 2 ^ 8 by omega)]
  simp only [Nat.shiftLeft_eq]
  omega

/-- Four bytes' value, the first the highest. -/
theorem beNat_four (a b c d : Byte) : beNat [a, b, c, d] = (a ++ b ++ c ++ d : BitVec 32).toNat := by
  have hb := b.isLt; have hc := c.isLt; have hd := d.isLt
  simp only [beNat_cons, beNat_nil, List.length_cons, List.length_nil, BitVec.toNat_append]
  rw [← Nat.shiftLeft_add_eq_or_of_lt (show b.toNat < 2 ^ 8 by omega),
    ← Nat.shiftLeft_add_eq_or_of_lt (show c.toNat < 2 ^ 8 by omega),
    ← Nat.shiftLeft_add_eq_or_of_lt (show d.toNat < 2 ^ 8 by omega)]
  simp only [Nat.shiftLeft_eq]
  omega

/-- The bytes of a 16-bit value. -/
theorem be16_bytes (v : Half) : be16 v = [v.extractLsb' 8 8, v.extractLsb' 0 8] := by
  simp [be16, toBe, BitVec.extractLsb']

/-- The bytes of a 32-bit value. -/
theorem be32_bytes (v : Word) :
    be32 v = [v.extractLsb' 24 8, v.extractLsb' 16 8, v.extractLsb' 8 8, v.extractLsb' 0 8] := by
  simp [be32, toBe, BitVec.extractLsb']

/-- The bytes of a MAC address held as HI and LO. -/
theorem beMac_bytes (hi : Half) (lo : Word) :
    beMac hi lo =
      [hi.extractLsb' 8 8, hi.extractLsb' 0 8,
       lo.extractLsb' 24 8, lo.extractLsb' 16 8, lo.extractLsb' 8 8, lo.extractLsb' 0 8] := by
  have h := lo.isLt
  simp only [beMac, toBe, BitVec.extractLsb', List.cons.injEq, Nat.shiftRight_eq_div_pow, Nat.shiftLeft_eq, and_true]
  refine ⟨?_, ?_, ?_, ?_, ?_, ?_⟩ <;> (apply BitVec.eq_of_toNat_eq; simp only [BitVec.toNat_ofNat]; omega)

end Sys2Proof.Machine
end

