-- ==== Sys2Proof/Laws/Checksum.lean ====
section
/-! SUPPORT. The small lemmas of the checksum arithmetic (00_scope.md R19; 43_checksum.md R220). -/

namespace Sys2Proof.Machine

/-- The value of `a +' w` (00_scope.md R19). -/
theorem onesAdd_toNat (a w : Half) :
    (onesAdd a w).toNat = if a.toNat + w.toNat ≥ 0x10000 then a.toNat + w.toNat - 0xFFFF else a.toNat + w.toNat := by
  have := a.isLt; have := w.isLt
  simp only [onesAdd]
  split <;> simp only [BitVec.toNat_ofNat] <;> omega

/-- One round of folding in plain arithmetic. -/
theorem foldOnce_eq (x : Nat) : foldOnce x = x % 0x10000 + x / 0x10000 := by
  have h : x &&& 0xFFFF = x % 2 ^ 16 := Nat.and_two_pow_sub_one_eq_mod x 16
  simp only [foldOnce, h, Nat.shiftRight_eq_div_pow]
  norm_num

/-- A round makes a value above 0xFFFF smaller. -/
theorem foldOnce_lt (x : Nat) (h : 0xFFFF < x) : foldOnce x < x := by rw [foldOnce_eq]; omega

@[simp] theorem words_nil : words [] = [] := rfl
@[simp] theorem words_one (b : Byte) : words [b] = [b ++ 0x00#8] := rfl
@[simp] theorem words_cons_cons (h l : Byte) (bs : List Byte) : words (h :: l :: bs) = (h ++ l) :: words bs := rfl

/-- Words are formed independently behind an even number of bytes. -/
theorem words_append (bs cs : List Byte) (h : bs.length % 2 = 0) : words (bs ++ cs) = words bs ++ words cs := by
  induction bs using words.induct with
  | case1 => rfl
  | case2 b => simp at h
  | case3 hi lo bs ih =>
    simp only [List.length_cons] at h
    simp [ih (by omega)]

@[simp] theorem sumWords_nil : sumWords [] = 0 := rfl
@[simp] theorem sumWords_cons (w : Half) (ws : List Half) : sumWords (w :: ws) = w.toNat + sumWords ws := by simp [sumWords]
@[simp] theorem sumWords_append (ws vs : List Half) : sumWords (ws ++ vs) = sumWords ws + sumWords vs := by simp [sumWords]

end Sys2Proof.Machine
end

