-- ==== Sys2Proof/Laws/Commands.lean ====
section
/-! SUPPORT. For each command, all it can answer, said once: an error with what it leaves, a stop at an unwritten byte, or completion. -/

namespace Sys2Proof.Machine

/-- A condition of the model that is false, in the form the commands test it. -/
theorem not_inputOk {s : State} (h : s.inputOk = false) : s.config.memSize < s.inStart + s.inSize := by
  by_contra hc
  have := (inputOk_iff s).2 (by omega)
  simp [h] at this

theorem not_buildOk {s : State} {n : Nat} (h : s.buildOk n = false) :
    s.config.memSize < s.payStart + s.paySize ∨ s.config.memSize < s.outStart + n + s.paySize := by
  by_contra hc
  have := (buildOk_iff s n).2 ⟨by omega, by omega⟩
  simp [h] at this

theorem execEthParse_cases (s : State) :
    (s.inputOk = false ∧ execEthParse s = .next ((s.setEthValid false).finished .regionRange)) ∨
    (s.inputOk = true ∧ s.inSize < 14 ∧ execEthParse s = .next ((s.setEthValid false).finished .notEnoughBytes)) ∨
    (s.inputOk = true ∧ 14 ≤ s.inSize ∧ readEthHeader s.mem s.inStart = none ∧ execEthParse s = .fault .unwrittenRead) ∨
    (s.inputOk = true ∧ 14 ≤ s.inSize ∧ ∃ h, readEthHeader s.mem s.inStart = some h ∧
      execEthParse s = .next (((s.latchEth h).setEthValid true).finished .ok)) := by
  unfold execEthParse
  cases s.inputOk with
  | false => exact .inl ⟨rfl, rfl⟩
  | true =>
    by_cases hn : s.inSize < 14
    · exact .inr (.inl ⟨rfl, hn, by simp [hn]⟩)
    · cases hr : readEthHeader s.mem s.inStart with
      | none => exact .inr (.inr (.inl ⟨rfl, by omega, rfl, by simp [hn]⟩))
      | some h => exact .inr (.inr (.inr ⟨rfl, by omega, h, rfl, by simp [hn]⟩))

theorem execIp4Parse_cases (s : State) :
    (s.inputOk = false ∧ execIp4Parse s = .next ((s.setIp4Valid false).finished .regionRange)) ∨
    (s.inputOk = true ∧ s.inSize < 20 ∧ execIp4Parse s = .next ((s.setIp4Valid false).finished .notEnoughBytes)) ∨
    (s.inputOk = true ∧ 20 ≤ s.inSize ∧ s.mem.read s.inStart = none ∧ execIp4Parse s = .fault .unwrittenRead) ∨
    (s.inputOk = true ∧ 20 ≤ s.inSize ∧ ∃ b, s.mem.read s.inStart = some b ∧
      ((ip4Version b ≠ 4#4 ∧ execIp4Parse s = .next ((s.setIp4Valid false).finished .unsupportedVersion)) ∨
       (ip4Version b = 4#4 ∧ readIp4Header s.mem s.inStart = none ∧ execIp4Parse s = .fault .unwrittenRead) ∨
       (ip4Version b = 4#4 ∧ ∃ h, readIp4Header s.mem s.inStart = some h ∧
        execIp4Parse s = .next (((s.latchIp4 b h).setIp4Valid true).finished .ok)))) := by
  unfold execIp4Parse
  cases s.inputOk with
  | false => exact .inl ⟨rfl, rfl⟩
  | true =>
    by_cases hn : s.inSize < 20
    · exact .inr (.inl ⟨rfl, hn, by simp [hn]⟩)
    · cases hb : s.mem.read s.inStart with
      | none => exact .inr (.inr (.inl ⟨rfl, by omega, rfl, by simp [hn]⟩))
      | some b =>
        refine .inr (.inr (.inr ⟨rfl, by omega, b, rfl, ?_⟩))
        by_cases hv : ip4Version b = 4#4
        · cases hr : readIp4Header s.mem s.inStart with
          | none => exact .inr (.inl ⟨hv, rfl, by simp [hn, hv]⟩)
          | some h => exact .inr (.inr ⟨hv, h, rfl, by simp [hn, hv]⟩)
        · exact .inl ⟨hv, by simp [hn, hv]⟩

theorem execTcpParse_cases (s : State) :
    (s.inputOk = false ∧ execTcpParse s = .next ((s.setTcpValid false).finished .regionRange)) ∨
    (s.inputOk = true ∧ s.inSize < 20 ∧ execTcpParse s = .next ((s.setTcpValid false).finished .notEnoughBytes)) ∨
    (s.inputOk = true ∧ 20 ≤ s.inSize ∧ readTcpHeader s.mem s.inStart = none ∧ execTcpParse s = .fault .unwrittenRead) ∨
    (s.inputOk = true ∧ 20 ≤ s.inSize ∧ ∃ h, readTcpHeader s.mem s.inStart = some h ∧
      execTcpParse s = .next (((s.latchTcp h).setTcpValid true).finished .ok)) := by
  unfold execTcpParse
  cases s.inputOk with
  | false => exact .inl ⟨rfl, rfl⟩
  | true =>
    by_cases hn : s.inSize < 20
    · exact .inr (.inl ⟨rfl, hn, by simp [hn]⟩)
    · cases hr : readTcpHeader s.mem s.inStart with
      | none => exact .inr (.inr (.inl ⟨rfl, by omega, rfl, by simp [hn]⟩))
      | some h => exact .inr (.inr (.inr ⟨rfl, by omega, h, rfl, by simp [hn]⟩))

theorem execIp4Csum_cases (s : State) :
    (s.inputOk = false ∧ execIp4Csum s = .next (s.finished .regionRange)) ∨
    (s.inputOk = true ∧ s.inputBytes = none ∧ execIp4Csum s = .fault .unwrittenRead) ∨
    (s.inputOk = true ∧ ∃ bs, s.inputBytes = some bs ∧
      execIp4Csum s = .next (State.finished { s with ip4 := { s.ip4 with csum := inetChecksum bs } } .ok)) := by
  unfold execIp4Csum
  cases s.inputOk with
  | false => exact .inl ⟨rfl, rfl⟩
  | true =>
    cases hb : s.inputBytes with
    | none => exact .inr (.inl ⟨rfl, rfl, rfl⟩)
    | some bs => exact .inr (.inr ⟨rfl, bs, rfl, rfl⟩)

theorem execCsumAddmem_cases (s : State) :
    (s.inputOk = false ∧ execCsumAddmem s = .next (s.finished .regionRange)) ∨
    (s.inputOk = true ∧ s.inputBytes = none ∧ execCsumAddmem s = .fault .unwrittenRead) ∨
    (s.inputOk = true ∧ ∃ bs, s.inputBytes = some bs ∧
      execCsumAddmem s = .next ((s.setAcc (accumulate s.acc.acc (words bs))).finished .ok)) := by
  unfold execCsumAddmem
  cases s.inputOk with
  | false => exact .inl ⟨rfl, rfl⟩
  | true =>
    cases hb : s.inputBytes with
    | none => exact .inr (.inl ⟨rfl, rfl, rfl⟩)
    | some bs => exact .inr (.inr ⟨rfl, bs, rfl, rfl⟩)

/-- The segment TCP_BUILD_CSUM writes for a payload (42_tcp.md R195). -/
def State.sealedSegment (s : State) (pay : List Byte) : List Byte :=
  insertTcpChecksum (tcpSegment s.tcp pay) (tcpChecksum s.tcp (tcpSegment s.tcp pay))

/-- What TCP_BUILD_CSUM leaves once it has the payload snapshot (42_tcp.md R195). -/
def State.emitTcpCsum (s : State) (pay : List Byte) : State :=
  { s with
    mem := s.mem.writeBytes s.outStart (s.sealedSegment pay)
    outLen := BitVec.ofNat 32 (s.sealedSegment pay).length
    tcp := { s.tcp with csum := tcpChecksum s.tcp (tcpSegment s.tcp pay) } }

section
variable (s : State) (pay : List Byte)

@[simp] theorem emitTcpCsum_config : (s.emitTcpCsum pay).config = s.config := by dsimp only [State.emitTcpCsum]
@[simp] theorem emitTcpCsum_eng : (s.emitTcpCsum pay).eng = s.eng := by dsimp only [State.emitTcpCsum]
@[simp] theorem emitTcpCsum_err : (s.emitTcpCsum pay).err = s.err := by dsimp only [State.emitTcpCsum]
@[simp] theorem emitTcpCsum_haz : (s.emitTcpCsum pay).haz = s.haz := by dsimp only [State.emitTcpCsum]
@[simp] theorem emitTcpCsum_view : (s.emitTcpCsum pay).view = s.view := by dsimp only [State.emitTcpCsum]
@[simp] theorem emitTcpCsum_opnd : (s.emitTcpCsum pay).opnd = s.opnd := by dsimp only [State.emitTcpCsum]
@[simp] theorem emitTcpCsum_eth : (s.emitTcpCsum pay).eth = s.eth := by dsimp only [State.emitTcpCsum]
@[simp] theorem emitTcpCsum_ip4 : (s.emitTcpCsum pay).ip4 = s.ip4 := by dsimp only [State.emitTcpCsum]
@[simp] theorem emitTcpCsum_acc : (s.emitTcpCsum pay).acc = s.acc := by dsimp only [State.emitTcpCsum]
@[simp] theorem emitTcpCsum_resetPin : (s.emitTcpCsum pay).resetPin = s.resetPin := by dsimp only [State.emitTcpCsum]
@[simp] theorem emitTcpCsum_bus : (s.emitTcpCsum pay).bus = s.bus := by dsimp only [State.emitTcpCsum]
@[simp] theorem emitTcpCsum_lastRead : (s.emitTcpCsum pay).lastRead = s.lastRead := by dsimp only [State.emitTcpCsum]
@[simp] theorem emitTcpCsum_wait : (s.emitTcpCsum pay).wait = s.wait := by dsimp only [State.emitTcpCsum]
@[simp] theorem emitTcpCsum_draws : (s.emitTcpCsum pay).draws = s.draws := by dsimp only [State.emitTcpCsum]
@[simp] theorem emitTcpCsum_tcp :
    (s.emitTcpCsum pay).tcp = { s.tcp with csum := tcpChecksum s.tcp (tcpSegment s.tcp pay) } := by
  dsimp only [State.emitTcpCsum]
@[simp] theorem emitTcpCsum_mem : (s.emitTcpCsum pay).mem = s.mem.writeBytes s.outStart (s.sealedSegment pay) := by
  dsimp only [State.emitTcpCsum]
@[simp] theorem emitTcpCsum_outLen : (s.emitTcpCsum pay).outLen = BitVec.ofNat 32 (s.sealedSegment pay).length := by
  dsimp only [State.emitTcpCsum]

end

/-- The frames the builds write have the header's length and the payload's. -/
@[simp] theorem ethHeaderBytes_length (r : EthRegs) : (ethHeaderBytes r).length = 14 := by
  simp [ethHeaderBytes, beMac, be16]
@[simp] theorem ip4HeaderBytes_length (r : Ip4Regs) : (ip4HeaderBytes r).length = 20 := by simp [ip4HeaderBytes, be32]
@[simp] theorem tcpSegment_length (r : TcpRegs) (pay : List Byte) : (tcpSegment r pay).length = 20 + pay.length := by
  simp only [tcpSegment, be16, be32, List.length_append, toBe_length, List.length_cons, List.length_nil]
@[simp] theorem sealedSegment_length (s : State) (pay : List Byte) : (s.sealedSegment pay).length = 20 + pay.length := by
  rw [State.sealedSegment, insertTcpChecksum, List.length_set, List.length_set, tcpSegment_length]

theorem execTcpBuildCsum_cases (s : State) :
    (s.buildOk 20 = false ∧ execTcpBuildCsum s = .next (s.finished .regionRange)) ∨
    (s.buildOk 20 = true ∧ 0xFFFF < 20 + s.paySize ∧ execTcpBuildCsum s = .next (s.finished .segmentTooLong)) ∨
    (s.buildOk 20 = true ∧ 20 + s.paySize ≤ 0xFFFF ∧ s.payload = none ∧ execTcpBuildCsum s = .fault .unwrittenRead) ∨
    (s.buildOk 20 = true ∧ 20 + s.paySize ≤ 0xFFFF ∧ ∃ pay, s.payload = some pay ∧
      execTcpBuildCsum s = .next ((s.emitTcpCsum pay).finished .ok)) := by
  unfold execTcpBuildCsum
  generalize hm : 0xFFFF = m
  cases s.buildOk 20 with
  | false => exact .inl ⟨rfl, rfl⟩
  | true =>
    by_cases hn : 20 + s.paySize > m
    · exact .inr (.inl ⟨rfl, hn, by rw [if_neg (by simp), if_pos hn]; rfl⟩)
    · rw [if_neg (by simp), if_neg hn]
      cases hp : s.payload with
      | none => exact .inr (.inr (.inl ⟨rfl, by omega, rfl, rfl⟩))
      | some pay =>
        refine .inr (.inr (.inr ⟨rfl, by omega, pay, rfl, ?_⟩))
        simp only [withRead_some, complete_eq, State.emit, State.emitTcpCsum, State.sealedSegment]

/-- All the next states a command can answer, said once: what each case of `exec` leaves, with what the case knows of the state. -/
inductive CommandNext : Instr → State → State → Prop
  | ethRange (s) (h : s.inputOk = false) : CommandNext .ethParse s ((s.setEthValid false).finished .regionRange)
  | ethShort (s) (ho : s.inputOk = true) (hn : s.inSize < 14) :
    CommandNext .ethParse s ((s.setEthValid false).finished .notEnoughBytes)
  | ethOk (s h) (ho : s.inputOk = true) (hn : 14 ≤ s.inSize) (hr : readEthHeader s.mem s.inStart = some h) :
    CommandNext .ethParse s (((s.latchEth h).setEthValid true).finished .ok)
  | ip4Range (s) (h : s.inputOk = false) : CommandNext .ip4Parse s ((s.setIp4Valid false).finished .regionRange)
  | ip4Short (s) (ho : s.inputOk = true) (hn : s.inSize < 20) :
    CommandNext .ip4Parse s ((s.setIp4Valid false).finished .notEnoughBytes)
  | ip4Version (s b) (ho : s.inputOk = true) (hn : 20 ≤ s.inSize) (hb : s.mem.read s.inStart = some b)
    (hv : ip4Version b ≠ 4#4) : CommandNext .ip4Parse s ((s.setIp4Valid false).finished .unsupportedVersion)
  | ip4Ok (s b h) (ho : s.inputOk = true) (hn : 20 ≤ s.inSize) (hb : s.mem.read s.inStart = some b)
    (hv : Machine.ip4Version b = 4#4) (hr : readIp4Header s.mem s.inStart = some h) :
    CommandNext .ip4Parse s (((s.latchIp4 b h).setIp4Valid true).finished .ok)
  | tcpRange (s) (h : s.inputOk = false) : CommandNext .tcpParse s ((s.setTcpValid false).finished .regionRange)
  | tcpShort (s) (ho : s.inputOk = true) (hn : s.inSize < 20) :
    CommandNext .tcpParse s ((s.setTcpValid false).finished .notEnoughBytes)
  | tcpOk (s h) (ho : s.inputOk = true) (hn : 20 ≤ s.inSize) (hr : readTcpHeader s.mem s.inStart = some h) :
    CommandNext .tcpParse s (((s.latchTcp h).setTcpValid true).finished .ok)
  | sumRange (i s) (hi : i = .ip4Csum ∨ i = .csumAddmem) (h : s.inputOk = false) :
    CommandNext i s (s.finished .regionRange)
  | buildRange (i s n) (hi : i = .ethBuild ∧ n = 14 ∨ (i = .ip4Build ∨ i = .tcpBuild ∨ i = .tcpBuildCsum) ∧ n = 20)
    (h : s.buildOk n = false) : CommandNext i s (s.finished .regionRange)
  | ethFrame (s pay) (hb : s.buildOk 14 = true) (hp : s.payload = some pay) :
    CommandNext .ethBuild s ((s.emit (ethHeaderBytes s.eth ++ pay)).finished .ok)
  | ip4Frame (s pay) (hb : s.buildOk 20 = true) (hp : s.payload = some pay) :
    CommandNext .ip4Build s ((s.emit (ip4HeaderBytes s.ip4 ++ pay)).finished .ok)
  | tcpFrame (s pay) (hb : s.buildOk 20 = true) (hp : s.payload = some pay) :
    CommandNext .tcpBuild s ((s.emit (tcpSegment s.tcp pay)).finished .ok)
  | tcpLong (s) (hb : s.buildOk 20 = true) (hn : 0xFFFF < 20 + s.paySize) :
    CommandNext .tcpBuildCsum s (s.finished .segmentTooLong)
  | tcpSealed (s pay) (hb : s.buildOk 20 = true) (hn : 20 + s.paySize ≤ 0xFFFF) (hp : s.payload = some pay) :
    CommandNext .tcpBuildCsum s ((s.emitTcpCsum pay).finished .ok)
  | summed (s bs) (ho : s.inputOk = true) (hb : s.inputBytes = some bs) :
    CommandNext .ip4Csum s (State.finished { s with ip4 := { s.ip4 with csum := inetChecksum bs } } .ok)
  | accSummed (s bs) (ho : s.inputOk = true) (hb : s.inputBytes = some bs) :
    CommandNext .csumAddmem s ((s.setAcc (accumulate s.acc.acc (words bs))).finished .ok)
  | accCleared (s) : CommandNext .csumClr s ((s.setAcc 0x0000#16).finished .ok)
  | accAdded (k s) : CommandNext (.csumAddi k) s ((s.setAcc (onesAdd s.acc.acc k)).finished .ok)
  | accFinished (s) : CommandNext .csumFin s ((s.setRes (~~~s.acc.acc)).finished .ok)

/-- All a command can answer: a stop at an unwritten byte, or one of the next states. -/
theorem exec_cases (i : Instr) (s : State) :
    exec i s = .fault .unwrittenRead ∨ ∃ t, exec i s = .next t ∧ CommandNext i s t := by
  cases i with
  | ethParse =>
    rcases execEthParse_cases s with ⟨h, e⟩ | ⟨h, hn, e⟩ | ⟨_, _, _, e⟩ | ⟨h, hn, x, hx, e⟩ <;> rw [exec, e]
    exacts [.inr ⟨_, rfl, .ethRange s h⟩, .inr ⟨_, rfl, .ethShort s h hn⟩, .inl rfl, .inr ⟨_, rfl, .ethOk s x h hn hx⟩]
  | ip4Parse =>
    rcases execIp4Parse_cases s with ⟨h, e⟩ | ⟨h, hn, e⟩ | ⟨_, _, _, e⟩ | ⟨h, hn, b, hb, ⟨hv, e⟩ | ⟨_, _, e⟩ | ⟨hv, x, hx, e⟩⟩ <;>
      rw [exec, e]
    exacts [.inr ⟨_, rfl, .ip4Range s h⟩, .inr ⟨_, rfl, .ip4Short s h hn⟩, .inl rfl,
      .inr ⟨_, rfl, .ip4Version s b h hn hb hv⟩, .inl rfl, .inr ⟨_, rfl, .ip4Ok s b x h hn hb hv hx⟩]
  | tcpParse =>
    rcases execTcpParse_cases s with ⟨h, e⟩ | ⟨h, hn, e⟩ | ⟨_, _, _, e⟩ | ⟨h, hn, x, hx, e⟩ <;> rw [exec, e]
    exacts [.inr ⟨_, rfl, .tcpRange s h⟩, .inr ⟨_, rfl, .tcpShort s h hn⟩, .inl rfl, .inr ⟨_, rfl, .tcpOk s x h hn hx⟩]
  | ethBuild =>
    rcases buildFrame_cases s 14 (fun pay => ethHeaderBytes s.eth ++ pay) with ⟨h, e⟩ | ⟨_, _, e⟩ | ⟨h, pay, hp, e⟩ <;>
      rw [exec, execEthBuild, e]
    exacts [.inr ⟨_, rfl, .buildRange _ s 14 (by simp) h⟩, .inl rfl, .inr ⟨_, rfl, .ethFrame s pay h hp⟩]
  | ip4Build =>
    rcases buildFrame_cases s 20 (fun pay => ip4HeaderBytes s.ip4 ++ pay) with ⟨h, e⟩ | ⟨_, _, e⟩ | ⟨h, pay, hp, e⟩ <;>
      rw [exec, execIp4Build, e]
    exacts [.inr ⟨_, rfl, .buildRange _ s 20 (by simp) h⟩, .inl rfl, .inr ⟨_, rfl, .ip4Frame s pay h hp⟩]
  | tcpBuild =>
    rcases buildFrame_cases s 20 (fun pay => tcpSegment s.tcp pay) with ⟨h, e⟩ | ⟨_, _, e⟩ | ⟨h, pay, hp, e⟩ <;>
      rw [exec, execTcpBuild, e]
    exacts [.inr ⟨_, rfl, .buildRange _ s 20 (by simp) h⟩, .inl rfl, .inr ⟨_, rfl, .tcpFrame s pay h hp⟩]
  | tcpBuildCsum =>
    rcases execTcpBuildCsum_cases s with ⟨h, e⟩ | ⟨h, hn, e⟩ | ⟨_, _, _, e⟩ | ⟨h, hn, pay, hp, e⟩ <;> rw [exec, e]
    exacts [.inr ⟨_, rfl, .buildRange _ s 20 (by simp) h⟩, .inr ⟨_, rfl, .tcpLong s h hn⟩,
      .inl rfl, .inr ⟨_, rfl, .tcpSealed s pay h hn hp⟩]
  | ip4Csum =>
    rcases execIp4Csum_cases s with ⟨h, e⟩ | ⟨_, _, e⟩ | ⟨h, bs, hb, e⟩ <;> rw [exec, e]
    exacts [.inr ⟨_, rfl, .sumRange _ s (by simp) h⟩, .inl rfl, .inr ⟨_, rfl, .summed s bs h hb⟩]
  | csumAddmem =>
    rcases execCsumAddmem_cases s with ⟨h, e⟩ | ⟨_, _, e⟩ | ⟨h, bs, hb, e⟩ <;> rw [exec, e]
    exacts [.inr ⟨_, rfl, .sumRange _ s (by simp) h⟩, .inl rfl, .inr ⟨_, rfl, .accSummed s bs h hb⟩]
  | csumClr => exact .inr ⟨_, rfl, .accCleared s⟩
  | csumAddi k => exact .inr ⟨_, rfl, .accAdded k s⟩
  | csumFin => exact .inr ⟨_, rfl, .accFinished s⟩

/-- What the next state of a command is. -/
theorem exec_next {i : Instr} {s t : State} (h : exec i s = .next t) : CommandNext i s t := by
  rcases exec_cases i s with e | ⟨u, e, hu⟩
  · rw [h] at e; injection e
  · rw [h] at e; injection e with e; exact e ▸ hu

/-- The header fields read are those of the header's 14 bytes (40_ethernet.md R140). -/
theorem readEthHeader_isSome (m : Memory) (o : Nat) :
    (readEthHeader m o).isSome ↔ ∀ a, inRegion a o 14 → (m.read a).isSome := by
  have key : (readEthHeader m o).isSome ↔
      (m.readBytes o 6).isSome ∧ (m.readBytes (o + 6) 6).isSome ∧ (m.readBytes (o + 12) 2).isSome := by
    unfold readEthHeader Memory.readBE
    cases m.readBytes o 6 <;> cases m.readBytes (o + 6) 6 <;> cases m.readBytes (o + 12) 2 <;> simp
  rw [key, Memory.readBytes_isSome, Memory.readBytes_isSome, Memory.readBytes_isSome]
  constructor
  · rintro ⟨h1, h2, h3⟩ a ⟨ha, hb⟩
    by_cases c1 : a < o + 6
    · exact h1 a ha c1
    · by_cases c2 : a < o + 6 + 6
      · exact h2 a (by omega) c2
      · exact h3 a (by omega) (by omega)
  · intro h
    exact ⟨fun a h1 h2 => h a ⟨by omega, by omega⟩, fun a h1 h2 => h a ⟨by omega, by omega⟩,
      fun a h1 h2 => h a ⟨by omega, by omega⟩⟩

/-- The fields read behind byte 0 are bytes 9 and 12 to 19 (41_ipv4.md R160). -/
theorem readIp4Header_isSome (m : Memory) (o : Nat) :
    (readIp4Header m o).isSome ↔ (m.read (o + 9)).isSome ∧ ∀ a, inRegion a (o + 12) 8 → (m.read a).isSome := by
  have key : (readIp4Header m o).isSome ↔
      (m.readBytes (o + 9) 1).isSome ∧ (m.readBytes (o + 12) 4).isSome ∧ (m.readBytes (o + 16) 4).isSome := by
    unfold readIp4Header Memory.readBE
    cases m.readBytes (o + 9) 1 <;> cases m.readBytes (o + 12) 4 <;> cases m.readBytes (o + 16) 4 <;> simp
  rw [key, Memory.readBytes_isSome, Memory.readBytes_isSome, Memory.readBytes_isSome]
  constructor
  · rintro ⟨h1, h2, h3⟩
    refine ⟨h1 _ (by omega) (by omega), fun a ⟨ha, hb⟩ => ?_⟩
    by_cases c1 : a < o + 12 + 4
    · exact h2 a ha c1
    · exact h3 a (by omega) (by omega)
  · rintro ⟨h0, h⟩
    refine ⟨fun a h1 h2 => ?_, fun a h1 h2 => h a ⟨by omega, by omega⟩, fun a h1 h2 => h a ⟨by omega, by omega⟩⟩
    rw [show a = o + 9 by omega]; exact h0

/-- The header fields read are those of bytes 0 to 15 (42_tcp.md R190). -/
theorem readTcpHeader_isSome (m : Memory) (o : Nat) :
    (readTcpHeader m o).isSome ↔ ∀ a, inRegion a o 16 → (m.read a).isSome := by
  have key : (readTcpHeader m o).isSome ↔
      (m.readBytes o 2).isSome ∧ (m.readBytes (o + 2) 2).isSome ∧ (m.readBytes (o + 4) 4).isSome ∧
      (m.readBytes (o + 8) 4).isSome ∧ (m.read (o + 12)).isSome ∧ (m.read (o + 13)).isSome ∧
      (m.readBytes (o + 14) 2).isSome := by
    unfold readTcpHeader Memory.readBE
    cases m.readBytes o 2 <;> cases m.readBytes (o + 2) 2 <;> cases m.readBytes (o + 4) 4 <;>
      cases m.readBytes (o + 8) 4 <;> cases m.read (o + 12) <;> cases m.read (o + 13) <;>
      cases m.readBytes (o + 14) 2 <;> simp
  rw [key]
  simp only [Memory.readBytes_isSome]
  constructor
  · rintro ⟨h1, h2, h3, h4, h5, h6, h7⟩ a ⟨ha, hb⟩
    by_cases c1 : a < o + 2
    · exact h1 a ha c1
    by_cases c2 : a < o + 2 + 2
    · exact h2 a (by omega) c2
    by_cases c3 : a < o + 4 + 4
    · exact h3 a (by omega) c3
    by_cases c4 : a < o + 8 + 4
    · exact h4 a (by omega) c4
    by_cases c5 : a = o + 12
    · rw [c5]; exact h5
    by_cases c6 : a = o + 13
    · rw [c6]; exact h6
    exact h7 a (by omega) (by omega)
  · intro h
    refine ⟨fun a h1 h2 => h a ⟨by omega, by omega⟩, fun a h1 h2 => h a ⟨by omega, by omega⟩,
      fun a h1 h2 => h a ⟨by omega, by omega⟩, fun a h1 h2 => h a ⟨by omega, by omega⟩,
      h _ ⟨by omega, by omega⟩, h _ ⟨by omega, by omega⟩, fun a h1 h2 => h a ⟨by omega, by omega⟩⟩

/-- A change of state applied after a read goes behind the read. -/
theorem mapNext_withRead {α : Type} (f : State → State) (r : Option α) (k : α → Result) :
    mapNext f (withRead r k) = withRead r fun a => mapNext f (k a) := by
  cases r <;> rfl

/-- A change of state applied after a check goes into both branches. -/
theorem mapNext_ite (f : State → State) (p : Prop) [Decidable p] (a b : Result) :
    mapNext f (if p then a else b) = if p then mapNext f a else mapNext f b := by
  split <;> rfl

end Sys2Proof.Machine
end

