-- ==== Sys2Proof/Laws/PerInstr.lean ====
section
/-! SUPPORT. Facts about the instructions as syntax, one lemma per constructor. -/

namespace Sys2Proof.Laws

/-- The word of an instruction carries exactly its fields (30_encoding.md R110), and they are a legal command (R114). -/
def EncodesItsFields.Statement (i : Instr) : Prop :=
  encode i = i.fields.toWord ∧ i.fields.legal = true

theorem EncodesItsFields.ethParse : EncodesItsFields.Statement .ethParse := ⟨rfl, rfl⟩
theorem EncodesItsFields.ethBuild : EncodesItsFields.Statement .ethBuild := ⟨rfl, rfl⟩
theorem EncodesItsFields.ip4Parse : EncodesItsFields.Statement .ip4Parse := ⟨rfl, rfl⟩
theorem EncodesItsFields.ip4Build : EncodesItsFields.Statement .ip4Build := ⟨rfl, rfl⟩
theorem EncodesItsFields.ip4Csum : EncodesItsFields.Statement .ip4Csum := ⟨rfl, rfl⟩
theorem EncodesItsFields.tcpParse : EncodesItsFields.Statement .tcpParse := ⟨rfl, rfl⟩
theorem EncodesItsFields.tcpBuild : EncodesItsFields.Statement .tcpBuild := ⟨rfl, rfl⟩
theorem EncodesItsFields.tcpBuildCsum : EncodesItsFields.Statement .tcpBuildCsum := ⟨rfl, rfl⟩
theorem EncodesItsFields.csumClr : EncodesItsFields.Statement .csumClr := ⟨rfl, rfl⟩
theorem EncodesItsFields.csumAddi (k : Half) : EncodesItsFields.Statement (.csumAddi k) := by
  refine ⟨?_, rfl⟩
  show k ++ 0x0041#16 = k ++ 0x00#8 ++ 0x41#8
  rw [BitVec.append_assoc]
  rfl
theorem EncodesItsFields.csumAddmem : EncodesItsFields.Statement .csumAddmem := ⟨rfl, rfl⟩
theorem EncodesItsFields.csumFin : EncodesItsFields.Statement .csumFin := ⟨rfl, rfl⟩

end Sys2Proof.Laws
end

