-- ==== Sys2Proof/Laws/Encoding.lean ====
section
/-! SUPPORT. The fields of a command word and the word of its fields (30_encoding.md R110). -/

namespace Sys2Proof

theorem CmdFields.ofWord_opc (w : Word) : (CmdFields.ofWord w).opc.toNat = w.toNat % 0x100 := by
  simp [CmdFields.ofWord, BitVec.extractLsb'_toNat]

theorem CmdFields.ofWord_rsv (w : Word) : (CmdFields.ofWord w).rsv.toNat = w.toNat / 0x100 % 0x100 := by
  simp [CmdFields.ofWord, BitVec.extractLsb'_toNat, Nat.shiftRight_eq_div_pow]

theorem CmdFields.ofWord_imm16 (w : Word) : (CmdFields.ofWord w).imm16.toNat = w.toNat / 0x10000 := by
  have := w.isLt
  simp [CmdFields.ofWord, BitVec.extractLsb'_toNat, Nat.shiftRight_eq_div_pow]; omega

theorem CmdFields.toWord_toNat (f : CmdFields) :
    f.toWord.toNat = f.imm16.toNat * 0x10000 + f.rsv.toNat * 0x100 + f.opc.toNat := by
  have h1 := f.opc.isLt; have h2 := f.rsv.isLt
  simp only [CmdFields.toWord, BitVec.toNat_append]
  rw [← Nat.shiftLeft_add_eq_or_of_lt h1, ← Nat.shiftLeft_add_eq_or_of_lt h2]
  simp only [Nat.shiftLeft_eq]; omega

/-- Fields with the same values are the same. -/
theorem CmdFields.eq_of_toNat {f g : CmdFields} (h1 : f.opc.toNat = g.opc.toNat) (h2 : f.rsv.toNat = g.rsv.toNat)
    (h3 : f.imm16.toNat = g.imm16.toNat) : f = g := by
  rcases f with ⟨a, b, c⟩; rcases g with ⟨a', b', c'⟩
  rw [BitVec.toNat_inj] at h1 h2 h3
  simp_all

@[simp] theorem CmdFields.ofWord_toWord (f : CmdFields) : CmdFields.ofWord f.toWord = f := by
  have h1 := CmdFields.ofWord_opc f.toWord; have h2 := CmdFields.ofWord_rsv f.toWord
  have h3 := CmdFields.ofWord_imm16 f.toWord
  have hw := CmdFields.toWord_toNat f
  have a1 := f.opc.isLt; have a2 := f.rsv.isLt; have a3 := f.imm16.isLt
  apply CmdFields.eq_of_toNat <;> omega

@[simp] theorem CmdFields.toWord_ofWord (w : Word) : (CmdFields.ofWord w).toWord = w := by
  apply BitVec.eq_of_toNat_eq
  rw [CmdFields.toWord_toNat, CmdFields.ofWord_opc, CmdFields.ofWord_rsv, CmdFields.ofWord_imm16]
  have := w.isLt; omega

/-- What an operation code stands for. -/
theorem opcodeInstr_eq_some {o : BitVec 8} {k : Half} {i : Instr} (h : opcodeInstr o k = some i) :
    i.fields.opc = o ∧ i.fields.rsv = 0#8 ∧ i.fields.imm16 = if o = 0x41#8 then k else 0#16 := by
  unfold opcodeInstr at h
  split at h <;> first | (cases h; done) | skip
  all_goals
    cases h
    rename_i e
    have e' : o = BitVec.ofNat 8 o.toNat := by simp
    rw [e] at e'; subst e'
    exact ⟨rfl, rfl, rfl⟩

/-- Which operation codes stand for nothing (30_encoding.md R112). -/
theorem opcodeInstr_eq_none (o : BitVec 8) (k : Half) : opcodeInstr o k = none ↔
    o.toNat ∉ [0x10, 0x11, 0x20, 0x21, 0x22, 0x30, 0x31, 0x32, 0x40, 0x41, 0x42, 0x43] := by
  unfold opcodeInstr
  split <;> simp_all

end Sys2Proof
end

