-- ==== Sys2Proof/Laws/Wire.lean ====
section
/-! SUPPORT. The frames the builds write and the header fields the parses read, byte by byte, and the operand registers as numbers. -/

namespace Sys2Proof.Machine

/-- A part of a region that is read as a whole. -/
theorem Memory.readBytes_slice {m : Memory} {n a : Nat} {bs : List Byte} (h : m.readBytes a n = some bs) {p q : Nat}
    (hpq : p + q ≤ n) : m.readBytes (a + p) q = some ((bs.drop p).take q) := by
  obtain ⟨hl, hr⟩ := (Memory.readBytes_eq_some _ _ _ _).1 h
  refine (Memory.readBytes_eq_some _ _ _ _).2 ⟨by simp; omega, fun k hk => ?_⟩
  rw [show a + p + k = a + (p + k) by omega, hr _ (by omega), List.getElem?_take_of_lt hk, List.getElem?_drop]

/-- One byte of a region that is read as a whole. -/
theorem Memory.read_of_readBytes {m : Memory} {n a : Nat} {bs : List Byte} (h : m.readBytes a n = some bs) {p : Nat}
    (hp : p < n) : m.read (a + p) = bs[p]? :=
  ((Memory.readBytes_eq_some _ _ _ _).1 h).2 p hp

/-- The high and low nibble of a byte as numbers. -/
theorem highNibble_toNat (b : Byte) : (b.extractLsb' 4 4).toNat = b.toNat / 16 := by
  have := b.isLt
  simp [BitVec.extractLsb', Nat.shiftRight_eq_div_pow]; omega

theorem lowNibble_toNat (b : Byte) : (b.extractLsb' 0 4).toNat = b.toNat % 16 := by simp [BitVec.extractLsb']

theorem ip4Version_eq_four (b : Byte) : ip4Version b = 4#4 ↔ b.toNat / 16 = 4 := by
  rw [← highNibble_toNat, ip4Version, ← BitVec.toNat_inj]; rfl

theorem ip4HeaderLen_eq (b : Byte) : ip4HeaderLen b = 4 * (b.toNat % 16) := by rw [ip4HeaderLen, lowNibble_toNat]

theorem tcpHeaderLen_eq (b : Byte) : tcpHeaderLen b = 4 * (b.toNat / 16) := by rw [tcpHeaderLen, highNibble_toNat]

/-- A 16-bit value is its two bytes joined, and a 32-bit value its four. -/
theorem half_join (c : Half) : (c.extractLsb' 8 8 ++ c.extractLsb' 0 8 : Half) = c := by
  apply BitVec.eq_of_toNat_eq
  rw [← beNat_two, ← be16_bytes, be16, beNat_toBe]
  have := c.isLt
  omega

theorem word_join (c : Word) :
    (c.extractLsb' 24 8 ++ c.extractLsb' 16 8 ++ c.extractLsb' 8 8 ++ c.extractLsb' 0 8 : Word) = c := by
  apply BitVec.eq_of_toNat_eq
  rw [← beNat_four, ← be32_bytes, be32, beNat_toBe]
  have := c.isLt; omega

/-- The values of two and four bytes as registers hold them. -/
theorem ofNat_beNat_two (a b : Byte) : BitVec.ofNat 16 (beNat [a, b]) = a ++ b := by rw [beNat_two, BitVec.ofNat_toNat]; simp

theorem ofNat_beNat_four (a b c d : Byte) : BitVec.ofNat 32 (beNat [a, b, c, d]) = a ++ b ++ c ++ d := by
  rw [beNat_four, BitVec.ofNat_toNat]; simp

/-- A 48-bit address as the HI and LO registers hold it (10_state.md R42). -/
theorem ofNat_beNat_mac (d0 d1 d2 d3 d4 d5 : Byte) :
    BitVec.ofNat 16 (beNat [d0, d1, d2, d3, d4, d5] >>> 32) = d0 ++ d1 ∧
    BitVec.ofNat 32 (beNat [d0, d1, d2, d3, d4, d5]) = d2 ++ d3 ++ d4 ++ d5 := by
  have l4 := (d2 ++ d3 ++ d4 ++ d5 : BitVec 32).isLt
  have l2 := (d0 ++ d1 : BitVec 16).isLt
  have h : beNat [d0, d1, d2, d3, d4, d5] = beNat [d0, d1] * 2 ^ 32 + beNat [d2, d3, d4, d5] := by simp [beNat_cons]; ring
  rw [h, beNat_two, beNat_four]
  constructor <;> apply BitVec.eq_of_toNat_eq
  · rw [BitVec.toNat_ofNat, Nat.shiftRight_eq_div_pow]; omega
  · rw [BitVec.toNat_ofNat]; omega

/-- The flags byte a build writes is the OR of the set flags (10_state.md R53). -/
theorem tcpFlags_toByte (f : TcpFlags) : f.toByte = wireFlags f ∧ f.toByte &&& 0x17#8 = wireFlags f := by
  rcases f with ⟨a, b, c, d⟩
  cases a <;> cases b <;> cases c <;> cases d <;> exact ⟨by decide, by decide⟩

/-- The frames of the builds, each byte written out. -/
theorem ethHeaderBytes_wire (r : EthRegs) (pay : List Byte) : ethHeaderBytes r ++ pay = wireEth r pay := by
  simp [ethHeaderBytes, wireEth, beMac_bytes, be16_bytes]

theorem ip4HeaderBytes_wire (r : Ip4Regs) (pay : List Byte) : ip4HeaderBytes r ++ pay = wireIp4 r pay := by
  simp [ip4HeaderBytes, wireIp4, be32_bytes]

theorem tcpSegment_wire (r : TcpRegs) (pay : List Byte) : tcpSegment r pay = wireTcp r 0#16 pay := by
  simp [tcpSegment, wireTcp, be32_bytes, be16_bytes, (tcpFlags_toByte r.flags).2]

theorem insertTcpChecksum_wire (r : TcpRegs) (pay : List Byte) (c : Half) :
    insertTcpChecksum (tcpSegment r pay) c = wireTcp r c pay := by
  simp [tcpSegment_wire, insertTcpChecksum, wireTcp]

theorem pseudoHeader_wire (src dst : Word) (n : Nat) : pseudoHeader src dst n = wirePseudo src dst (BitVec.ofNat 16 n) := by
  simp only [pseudoHeader, wirePseudo, be32_bytes, toBe, BitVec.extractLsb', List.cons_append, List.nil_append,
    List.cons.injEq, true_and, and_true]
  constructor <;> apply BitVec.eq_of_toNat_eq <;> simp [Nat.shiftRight_eq_div_pow]
  omega

/-- The payload offset and length a parse latches, on the operand registers. -/
theorem inStart_ofNat (s : State) (k : Nat) : BitVec.ofNat 32 (s.inStart + k) = s.opnd.inOff + BitVec.ofNat 32 k := by
  apply BitVec.eq_of_toNat_eq; simp [State.inStart]

theorem inSize_ofNat (s : State) (k : Nat) (h : k ≤ s.inSize) :
    BitVec.ofNat 32 (s.inSize - k) = s.opnd.inLen - BitVec.ofNat 32 k := by
  have := s.opnd.inLen.isLt
  apply BitVec.eq_of_toNat_eq; simp [State.inSize] at *; omega

theorem paySize_ofNat (s : State) (k : Nat) : BitVec.ofNat 32 (k + s.paySize) = BitVec.ofNat 32 k + s.opnd.payLen := by
  apply BitVec.eq_of_toNat_eq; simp [State.paySize]

end Sys2Proof.Machine
end

