-- ==== Sys2Proof/Tests/Slice0.lean ====
section
/-! SUPPORT. The model's own tests: the checks of WellFormed refusing ill-formed terms, every opcode's word decoded, one step of each command
against the vectors of 95_test_vectors.md, and for each statement with hypotheses states that meet them. -/

namespace Sys2Proof.Tests

open Sys2Proof Sys2Proof.Machine

/-! ## Small states -/

/-- MEM with only these bytes written, from offset `a` on. -/
def memOf (a : Nat) (bs : List Byte) : Memory := Memory.writeBytes [] a bs

/-- The reset state with this MEM and this input region. -/
def inputAt (m : Memory) (o n : Word) : State :=
  { State.reset with mem := m, opnd := { State.reset.opnd with inOff := o, inLen := n } }

/-- The reset state with this MEM, this output offset and this payload source. -/
def buildAt (m : Memory) (o p n : Word) : State :=
  { State.reset with mem := m, opnd := { State.reset.opnd with outOff := o, payOff := p, payLen := n } }

/-- What one step with the command word `w` leaves. -/
def ran (w : Nat) (s : State) : Option State :=
  match step (s.withFetchWord 32 w) with
  | .next t => some t
  | .fault _ => none
  | .refused _ => none

/-- What a command leaves; the state itself where it stops. -/
def after (i : Instr) (s : State) : State :=
  match exec i s with
  | .next t => t
  | .fault _ => s
  | .refused _ => s

/-- The command answers a next state. -/
def completes (i : Instr) (s : State) : Bool :=
  match exec i s with
  | .next _ => true
  | .fault _ => false
  | .refused _ => false

theorem exec_after (i : Instr) (s : State) (h : completes i s = true) : exec i s = .next (after i s) := by
  unfold completes at h
  unfold after
  split at h <;> simp_all

/-! ## WellFormed refuses ill-formed terms -/

/-- 30_encoding.md R114, condition 1. -/
theorem test_legal_refuses_unlisted_opc :
    CmdFields.legal ⟨0x00#8, 0#8, 0#16⟩ = false ∧ CmdFields.legal ⟨0x12#8, 0#8, 0#16⟩ = false ∧
    CmdFields.legal ⟨0x44#8, 0#8, 0#16⟩ = false ∧ CmdFields.legal ⟨0xFF#8, 0#8, 0#16⟩ = false := by decide

/-- 30_encoding.md R114, condition 2. -/
theorem test_legal_refuses_rsv : CmdFields.legal ⟨0x41#8, 1#8, 0#16⟩ = false := by decide

/-- 30_encoding.md R114, condition 3. -/
theorem test_legal_refuses_imm : CmdFields.legal ⟨0x10#8, 0#8, 1#16⟩ = false ∧ CmdFields.legal ⟨0x41#8, 0#8, 1#16⟩ = true := by decide

theorem test_event_refuses_wide_byte :
    HostEvent.wellFormed (.write .w8 0x10000#17 0x100#32) = false ∧ HostEvent.wellFormed (.write .w8 0x10000#17 0xFF#32) = true := by
  decide

theorem test_stmt_refuses_misaligned_word :
    HostStmt.wellFormed (.wrw 2#16 0#32) = false ∧ HostStmt.wellFormed (.rdw 3#16) = false ∧
    HostStmt.wellFormed (.rdw 4#16) = true := by decide

/-! ## Decode: each opcode's word of 30_encoding.md R112, and the illegal words of 95_test_vectors.md V-ERR-1 to V-ERR-4 -/

theorem test_decode_eth : decodeWord 0x00000010#32 = .ok .ethParse ∧ decodeWord 0x00000011#32 = .ok .ethBuild := ⟨rfl, rfl⟩

theorem test_decode_ip4 :
    decodeWord 0x00000020#32 = .ok .ip4Parse ∧ decodeWord 0x00000021#32 = .ok .ip4Build ∧
    decodeWord 0x00000022#32 = .ok .ip4Csum := ⟨rfl, rfl, rfl⟩

theorem test_decode_tcp :
    decodeWord 0x00000030#32 = .ok .tcpParse ∧ decodeWord 0x00000031#32 = .ok .tcpBuild ∧
    decodeWord 0x00000032#32 = .ok .tcpBuildCsum := ⟨rfl, rfl, rfl⟩

theorem test_decode_csum :
    decodeWord 0x00000040#32 = .ok .csumClr ∧ decodeWord 0xABCD0041#32 = .ok (.csumAddi 0xABCD#16) ∧
    decodeWord 0x00000042#32 = .ok .csumAddmem ∧ decodeWord 0x00000043#32 = .ok .csumFin := ⟨rfl, rfl, rfl, rfl⟩

theorem test_decode_refuses_by_name :
    decodeWord 0x00000000#32 = .error (.unlistedOpc 0x00#8) ∧ decodeWord 0x00000044#32 = .error (.unlistedOpc 0x44#8) ∧
    decodeWord 0x00000141#32 = .error (.reservedNonzero 0x01#8) ∧
    decodeWord 0x00010010#32 = .error (.immediateNonzero 0x0001#16) := ⟨rfl, rfl, rfl, rfl⟩

/-! ## One step of each command (95_test_vectors.md) -/

/-- The Ethernet header of V-ETH-1. -/
def ethHdr : List Byte := [0xff, 0xff, 0xff, 0xff, 0xff, 0xff, 0x00, 0x11, 0x22, 0x33, 0x44, 0x55, 0x08, 0x00]

/-- The IPv4 header of V-IP-1 with byte 0 given. -/
def ipHdr (b0 : Byte) : List Byte :=
  [b0, 0x00, 0x00, 0x00, 0x00, 0x00, 0x00, 0x00, 0x00, 0x06, 0x37, 0xa5, 0xc0, 0xa8, 0x01, 0x01, 0xc0, 0xa8, 0x01, 0x02]

/-- The TCP header of V-TCP-6 with byte 12 given. -/
def tcpHdr (b12 : Byte) : List Byte :=
  [0x00, 0x01, 0x00, 0x02, 0x00, 0x00, 0x00, 0x03, 0x00, 0x00, 0x00, 0x04, b12, 0xff, 0xff, 0xff, 0x00, 0x00, 0x00, 0x00]

/-- The Ethernet registers of V-ETH-6. -/
def ethFields : EthRegs :=
  { dstHi := 0xFFFF#16, dstLo := 0xFFFFFFFF#32, srcHi := 0x0011#16, srcLo := 0x22334455#32, etype := 0x0800#16, poff := 0#32, plen := 0#32 }

/-- The IPv4 registers of V-IP-9. -/
def ipFields : Ip4Regs :=
  { src := 0xC0A80101#32, dst := 0xC0A80102#32, proto := 6#8, hlen := 0#6, poff := 0#32, plen := 0#32, csum := 0#16 }

/-- The TCP registers of V-TCP-11. -/
def tcpFields : TcpRegs :=
  { sport := 12345#16, dport := 80#16, seq := 1000#32, ack := 0#32,
    flags := { fin := true, syn := false, rst := false, ack := true },
    win := 0x2000#16, hlen := 0#6, poff := 0#32, plen := 0#32, phSrc := 0xC0A80101#32, phDst := 0xC0A80102#32, csum := 0#16 }

/-- V-ETH-1. -/
theorem test_eth_parse :
    (ran 0x10 (inputAt (memOf 100 ethHdr) 100#32 54#32)).map (fun t => (t.err, t.view.ethValid, t.eth)) =
      some (.ok, true, { ethFields with poff := 114#32, plen := 40#32 }) := by decide

/-- V-ETH-2: one byte short. -/
theorem test_eth_parse_short :
    (ran 0x10 (inputAt (memOf 100 ethHdr) 100#32 13#32)).map (fun t => (t.err, t.view.ethValid, t.eth)) =
      some (.notEnoughBytes, false, State.reset.eth) := by decide

/-- V-ETH-7: the payload overlaps the output. -/
theorem test_eth_build_overlap :
    (ran 0x11 { buildAt (memOf 0 [0xde, 0xad, 0xbe, 0xef]) 0#32 0#32 4#32 with
      eth := { ethFields with dstHi := 0x0102#16, dstLo := 0x03040506#32, srcHi := 0x0A0B#16, srcLo := 0x0C0D0E0F#32, etype := 0x0806#16 } }).map
        (fun t => (t.err, t.outLen, t.mem.readBytes 0 18)) =
      some (.ok, 18#32, some [0x01, 0x02, 0x03, 0x04, 0x05, 0x06, 0x0a, 0x0b, 0x0c, 0x0d, 0x0e, 0x0f, 0x08, 0x06, 0xde, 0xad, 0xbe, 0xef]) := by
  decide

/-- V-ETH-12: no room for the header. -/
theorem test_eth_build_range :
    (ran 0x11 (buildAt [] 4083#32 0#32 0#32)).map (fun t => (t.err, t.outLen, t.mem)) = some (.regionRange, 0#32, []) := by decide

/-- V-IP-7: IHL 4, the window overlapping the header. -/
theorem test_ip4_parse :
    (ran 0x20 (inputAt (memOf 100 [0x44, 0, 0, 0, 0, 0, 0, 0, 0, 0x01, 0, 0, 1, 2, 3, 4, 5, 6, 7, 8]) 100#32 20#32)).map
        (fun t => (t.err, t.ip4, t.view.ip4Valid, t.view.ip4Poor)) =
      some (.ok, { src := 0x01020304#32, dst := 0x05060708#32, proto := 1#8, hlen := 16#6, poff := 116#32, plen := 4#32, csum := 0#16 },
        true, false) := by decide

/-- V-IP-5: an IPv6 byte 0. -/
theorem test_ip4_parse_version :
    (ran 0x20 (inputAt (memOf 0 (ipHdr 0x60)) 0#32 20#32)).map (fun t => (t.err, t.view.ip4Valid, t.ip4)) =
      some (.unsupportedVersion, false, State.reset.ip4) := by decide

/-- V-IP-9. -/
theorem test_ip4_build :
    (ran 0x21 { buildAt (memOf 34 (tcpHdr 0x50)) 14#32 34#32 20#32 with ip4 := ipFields }).map
        (fun t => (t.err, t.outLen, t.mem.readBytes 14 20)) =
      some (.ok, 40#32, some [0x45, 0, 0, 0, 0, 0, 0, 0, 0, 6, 0, 0, 0xc0, 0xa8, 1, 1, 0xc0, 0xa8, 1, 2]) := by decide

/-- V-IP-13. -/
theorem test_ip4_csum :
    (ran 0x22 (inputAt (memOf 0 [0x45, 0, 0, 0, 0, 0, 0, 0, 0, 0x11, 0, 0, 0x0a, 0, 0, 1, 0x0a, 0, 0, 2]) 0#32 20#32)).map
        (fun t => (t.err, t.ip4.csum, t.acc)) = some (.ok, 0xA6EB#16, State.reset.acc) := by decide

/-- V-IP-14: the empty region. -/
theorem test_ip4_csum_empty : (ran 0x22 (inputAt [] 0#32 0#32)).map (fun t => t.ip4.csum) = some 0xFFFF#16 := by decide

/-- V-TCP-6: the flags outside the four dropped, data offset 0. -/
theorem test_tcp_parse :
    (ran 0x30 (inputAt (memOf 0 (tcpHdr 0x00)) 0#32 20#32)).map (fun t => (t.err, t.tcp, t.view.tcpPoor)) =
      some (.ok,
        { sport := 1#16, dport := 2#16, seq := 3#32, ack := 4#32, flags := { fin := true, syn := true, rst := true, ack := true },
          win := 0xFFFF#16, hlen := 0#6, poff := 0#32, plen := 20#32, phSrc := 0#32, phDst := 0#32, csum := 0#16 }, false) := by decide

/-- V-TCP-6a: data offset 15 in a region of 20 bytes. -/
theorem test_tcp_parse_poor :
    (ran 0x30 (inputAt (memOf 0 (tcpHdr 0xF5)) 0#32 20#32)).map (fun t => (t.err, t.tcp.hlen, t.tcp.poff, t.tcp.plen, t.view.tcpPoor)) =
      some (.ok, 60#6, 60#32, 0#32, true) := by decide

/-- V-TCP-12. -/
theorem test_tcp_build :
    (ran 0x31 { buildAt (memOf 200 [0x61, 0x62, 0x63]) 300#32 200#32 3#32 with tcp := tcpFields }).map
        (fun t => (t.outLen, t.tcp.csum, t.mem.readBytes 300 23)) =
      some (23#32, 0#16, some [0x30, 0x39, 0x00, 0x50, 0x00, 0x00, 0x03, 0xe8, 0x00, 0x00, 0x00, 0x00, 0x50, 0x11, 0x20, 0x00,
        0x00, 0x00, 0x00, 0x00, 0x61, 0x62, 0x63]) := by decide

/-- V-TCP-11: an odd payload. -/
theorem test_tcp_build_csum :
    (ran 0x32 { buildAt (memOf 200 [0x61, 0x62, 0x63]) 300#32 200#32 3#32 with tcp := tcpFields }).map
        (fun t => (t.outLen, t.tcp.csum, t.mem.readBytes 300 23)) =
      some (23#32, 0x13A9#16, some [0x30, 0x39, 0x00, 0x50, 0x00, 0x00, 0x03, 0xe8, 0x00, 0x00, 0x00, 0x00, 0x50, 0x11, 0x20, 0x00,
        0x13, 0xa9, 0x00, 0x00, 0x61, 0x62, 0x63]) := by decide

/-- V-TCP-16: REGION_RANGE before SEGMENT_TOO_LONG. -/
theorem test_tcp_build_csum_range_first :
    (ran 0x32 { buildAt [] 1#32 0#32 65516#32 with config := Config.largest }).map (fun t => t.err) = some .regionRange := by decide

/-- V-CS-6. -/
theorem test_csum_clr :
    (ran 0x40 { State.reset with acc := { acc := 0x1234#16, res := 0x5678#16 } }).map (fun t => t.acc) =
      some { acc := 0x0000#16, res := 0x5678#16 } := by decide

/-- V-CS-1. -/
theorem test_csum_addi_carry :
    (ran 0x00010041 { State.reset with acc := { acc := 0xFFFF#16, res := 0#16 } }).map (fun t => t.acc.acc) = some 0x0001#16 := by decide

/-- V-CS-5: 0xFFFF, not 0. -/
theorem test_csum_addi_complement :
    (ran 0xEDCB0041 { State.reset with acc := { acc := 0x1234#16, res := 0#16 } }).map (fun t => t.acc.acc) = some 0xFFFF#16 := by decide

/-- V-CS-7: the odd last byte padded. -/
theorem test_csum_addmem :
    (ran 0x42 (inputAt (memOf 0 [0xab, 0xcd, 0xef]) 0#32 3#32)).map (fun t => t.acc.acc) = some 0x9ACE#16 := by decide

/-- V-CS-13. -/
theorem test_csum_addmem_range :
    (ran 0x42 { inputAt [] 4095#32 2#32 with acc := { acc := 0x1234#16, res := 0#16 } }).map (fun t => (t.err, t.acc.acc)) =
      some (.regionRange, 0x1234#16) := by decide

/-- V-CS-7, continued. -/
theorem test_csum_fin :
    (ran 0x43 { State.reset with acc := { acc := 0x9ACE#16, res := 0#16 } }).map (fun t => t.acc) =
      some { acc := 0x9ACE#16, res := 0x6531#16 } := by decide

/-- V-ERR-2: an illegal word. -/
theorem test_illegal_word :
    ran 0x00010010 State.reset = some { State.reset with err := .illegalCommand, eng := { busy := false, cmd := 0x00010010#32 } } := by decide

/-- V-CS-10. -/
theorem test_inet_checksum :
    inetChecksum [] = 0xFFFF#16 ∧ inetChecksum [0x01] = 0xFEFF#16 ∧ inetChecksum [0xff, 0xff] = 0x0000#16 ∧
    inetChecksum [0x00, 0x01, 0xff, 0xfe] = 0x0000#16 := by decide

/-- The host's registers: V-IP-15, V-TCP-10, V-CS-14. -/
theorem test_register_writes :
    (State.reset.writeReg .ip4Proto 0x711#32).readReg .ip4Proto = 0x311#32 ∧
    (State.reset.writeReg .tcpFlags 0x19#32).readReg .tcpFlags = 0x11#32 ∧
    (State.reset.writeReg .csumAcc 0x12345678#32).readReg .csumAcc = 0x5678#32 := by decide

/-- V-BUS-1 and V-BUS-2. -/
theorem test_bus_errors :
    busTarget Config.examples .w8 0x00000#17 = none ∧ busTarget Config.examples .w16 0x10000#17 = none ∧
    busTarget Config.examples .w32 0x10002#17 = none ∧ busTarget Config.examples .w32 0x01000#17 = none ∧
    busTarget Config.examples .w32 0x00028#17 = none ∧ busTarget Config.examples .w8 0x11000#17 = none := by decide

/-! ## Witnesses: states that meet the hypotheses of each statement that has any, each clause at a boundary of its range -/

/-- An input region of `n` bytes at `o` that starts with an IPv4 header. -/
def ipAt (o n : Word) (b0 : Byte) : State := inputAt (memOf o.toNat (ipHdr b0)) o n

/-- An input region of `n` bytes at `o` that starts with a TCP header. -/
def tcpAt (o n : Word) (b12 : Byte) : State := inputAt (memOf o.toNat (tcpHdr b12)) o n

/-- The command word `w` accepted and due. -/
def dueWith (s : State) (w : Word) : State := { s with eng := { busy := true, cmd := w }, wait := 0 }

/-- The command word `w` running for `n` more cycles, with these events to come. -/
def runningWith (n : Nat) (w : Word) (es : List HostEvent) : State :=
  { State.reset with eng := { busy := true, cmd := w }, wait := n, bus := es }

/-- The idle block with these events to come and this MEM. -/
def idleWith (m : Memory) (es : List HostEvent) : State := { State.reset with mem := m, bus := es }

/-- EthParseFollowsItsRule, region error: 4083 + 14 is one past the end. -/
theorem witness_EthParse_range :
    (inputAt [] 4083#32 14#32).config.memSize < (inputAt [] 4083#32 14#32).inStart + (inputAt [] 4083#32 14#32).inSize := by decide

/-- EthParseFollowsItsRule, too short: 4083 + 13 ends at the end of MEM. -/
theorem witness_EthParse_short :
    (inputAt [] 4083#32 13#32).inStart + (inputAt [] 4083#32 13#32).inSize ≤ (inputAt [] 4083#32 13#32).config.memSize ∧
    (inputAt [] 4083#32 13#32).inSize < 14 := by decide

/-- EthParseFollowsItsRule, success: 14 bytes that end at the end of MEM. -/
theorem witness_EthParse_runs :
    (inputAt (memOf 4082 ethHdr) 4082#32 14#32).inStart + (inputAt (memOf 4082 ethHdr) 4082#32 14#32).inSize ≤ Config.examples.memSize ∧
    14 ≤ (inputAt (memOf 4082 ethHdr) 4082#32 14#32).inSize ∧
    (inputAt (memOf 4082 ethHdr) 4082#32 14#32).mem.readBytes 4082 14 =
      some [0xff, 0xff, 0xff, 0xff, 0xff, 0xff, 0x00, 0x11, 0x22, 0x33, 0x44, 0x55, 0x08, 0x00] := by decide

/-- EthBuildFollowsItsRule, region error: by the payload, and by the output, each one past the end. -/
theorem witness_EthBuild_range :
    Config.examples.memSize < (buildAt [] 0#32 4096#32 1#32).payStart + (buildAt [] 0#32 4096#32 1#32).paySize ∧
    Config.examples.memSize < (buildAt [] 4083#32 0#32 0#32).outStart + 14 + (buildAt [] 4083#32 0#32 0#32).paySize := by decide

/-- EthBuildFollowsItsRule, success: payload and output both end at the end of MEM. -/
theorem witness_EthBuild_runs :
    (buildAt (memOf 4095 [0xab]) 4081#32 4095#32 1#32).payStart + (buildAt (memOf 4095 [0xab]) 4081#32 4095#32 1#32).paySize ≤ Config.examples.memSize ∧
    (buildAt (memOf 4095 [0xab]) 4081#32 4095#32 1#32).outStart + 14 + (buildAt (memOf 4095 [0xab]) 4081#32 4095#32 1#32).paySize ≤
      Config.examples.memSize ∧
    (buildAt (memOf 4095 [0xab]) 4081#32 4095#32 1#32).mem.readBytes 4095 1 = some [0xab] := by decide

/-- Ip4ParseFollowsItsRule and TcpParseFollowsItsRule, region error: one past the end. -/
theorem witness_Parse20_range :
    Config.examples.memSize < (inputAt [] 4077#32 20#32).inStart + (inputAt [] 4077#32 20#32).inSize := by decide

/-- Ip4ParseFollowsItsRule and TcpParseFollowsItsRule, too short by one. -/
theorem witness_Parse20_short :
    (inputAt [] 4077#32 19#32).inStart + (inputAt [] 4077#32 19#32).inSize ≤ Config.examples.memSize ∧
    (inputAt [] 4077#32 19#32).inSize < 20 := by decide

/-- Ip4ParseFollowsItsRule, wrong version: 3 and 5, in a region of 20 bytes at the end of MEM. -/
theorem witness_Ip4Parse_version :
    (ipAt 4076#32 20#32 0x3F).inStart + (ipAt 4076#32 20#32 0x3F).inSize ≤ Config.examples.memSize ∧
    20 ≤ (ipAt 4076#32 20#32 0x3F).inSize ∧
    (ipAt 4076#32 20#32 0x3F).mem.read 4076 = some 0x3F ∧ (0x3F#8).toNat / 16 ≠ 4 ∧
    (ipAt 4076#32 20#32 0x50).mem.read 4076 = some 0x50 ∧ (0x50#8).toNat / 16 ≠ 4 := by decide

/-- Ip4ParseFollowsItsRule, success with the header length equal to IN_LEN; IhlIsDecodedNotValidated takes the same bytes. -/
theorem witness_Ip4Parse_runs :
    (ipAt 4076#32 20#32 0x45).inStart + (ipAt 4076#32 20#32 0x45).inSize ≤ Config.examples.memSize ∧
    20 ≤ (ipAt 4076#32 20#32 0x45).inSize ∧
    (ipAt 4076#32 20#32 0x45).mem.read 4076 = some 0x45 ∧ (0x45#8).toNat / 16 = 4 ∧
    (ipAt 4076#32 20#32 0x45).mem.read (4076 + 9) = some 0x06 ∧
    (ipAt 4076#32 20#32 0x45).mem.readBytes (4076 + 12) 8 = some [0xc0, 0xa8, 0x01, 0x01, 0xc0, 0xa8, 0x01, 0x02] := by decide

/-- Ip4ParseFollowsItsRule, success with the header length one byte past IN_LEN. -/
theorem witness_Ip4Parse_poor :
    (ipAt 0#32 23#32 0x46).inStart + (ipAt 0#32 23#32 0x46).inSize ≤ Config.examples.memSize ∧
    20 ≤ (ipAt 0#32 23#32 0x46).inSize ∧ (ipAt 0#32 23#32 0x46).inSize < 4 * ((0x46#8).toNat % 16) ∧
    (ipAt 0#32 23#32 0x46).mem.read 0 = some 0x46 ∧ (0x46#8).toNat / 16 = 4 ∧
    (ipAt 0#32 23#32 0x46).mem.read 9 = some 0x06 ∧
    (ipAt 0#32 23#32 0x46).mem.readBytes 12 8 = some [0xc0, 0xa8, 0x01, 0x01, 0xc0, 0xa8, 0x01, 0x02] := by decide

/-- Ip4BuildFollowsItsRule, TcpBuildFollowsItsRule and TcpBuildCsumFollowsItsRule, region error: by the payload, and by the output. -/
theorem witness_Build20_range :
    Config.examples.memSize < (buildAt [] 0#32 4096#32 1#32).payStart + (buildAt [] 0#32 4096#32 1#32).paySize ∧
    Config.examples.memSize < (buildAt [] 4077#32 0#32 0#32).outStart + 20 + (buildAt [] 4077#32 0#32 0#32).paySize := by decide

/-- Ip4BuildFollowsItsRule, TcpBuildFollowsItsRule and TcpBuildCsumFollowsItsRule, success at the end of MEM. -/
theorem witness_Build20_runs :
    (buildAt (memOf 4095 [0xab]) 4075#32 4095#32 1#32).payStart + (buildAt (memOf 4095 [0xab]) 4075#32 4095#32 1#32).paySize ≤ Config.examples.memSize ∧
    (buildAt (memOf 4095 [0xab]) 4075#32 4095#32 1#32).outStart + 20 + (buildAt (memOf 4095 [0xab]) 4075#32 4095#32 1#32).paySize ≤
      Config.examples.memSize ∧
    20 + (buildAt (memOf 4095 [0xab]) 4075#32 4095#32 1#32).paySize ≤ 0xFFFF ∧
    (buildAt (memOf 4095 [0xab]) 4075#32 4095#32 1#32).mem.readBytes 4095 1 = some [0xab] := by decide

/-- The largest block with a payload of `n` bytes of zeros at 0, the output at 0. -/
def bigBuild (n : Nat) : State :=
  { buildAt (Memory.writeBytes [] 0 (List.replicate n 0#8)) 0#32 0#32 (BitVec.ofNat 32 n) with config := Config.largest }

theorem readBytes_zeros (n : Nat) : (bigBuild n).mem.readBytes 0 n = some (List.replicate n 0#8) :=
  Memory.readBytes_writeBytes [] 0 n _ List.length_replicate

/-- TcpBuildCsumFollowsItsRule, the segment one byte too long (V-TCP-13). -/
theorem witness_TcpBuildCsum_tooLong :
    (bigBuild 65516).payStart + (bigBuild 65516).paySize ≤ Config.largest.memSize ∧
    (bigBuild 65516).outStart + 20 + (bigBuild 65516).paySize ≤ Config.largest.memSize ∧
    0xFFFF < 20 + (bigBuild 65516).paySize := by decide

/-- TcpBuildCsumFollowsItsRule, the largest segment (V-TCP-14). -/
theorem witness_TcpBuildCsum_largest :
    (bigBuild 65515).payStart + (bigBuild 65515).paySize ≤ Config.largest.memSize ∧
    (bigBuild 65515).outStart + 20 + (bigBuild 65515).paySize ≤ Config.largest.memSize ∧
    20 + (bigBuild 65515).paySize ≤ 0xFFFF ∧
    (bigBuild 65515).mem.readBytes 0 65515 = some (List.replicate 65515 0#8) :=
  ⟨by decide, by decide, by decide, readBytes_zeros 65515⟩

/-- Ip4CsumFollowsItsRule and CsumAddmemFollowsItsRule, region error: V-CS-13. -/
theorem witness_Sum_range :
    Config.examples.memSize < (inputAt [] 4095#32 2#32).inStart + (inputAt [] 4095#32 2#32).inSize := by decide

/-- Ip4CsumFollowsItsRule, CsumAddmemFollowsItsRule, AccumulatorGivesIp4Csum and AccumulatorGivesPseudoHeaderChecksum, success: the last byte of MEM,
and the empty region behind it. -/
theorem witness_Sum_runs :
    (inputAt (memOf 4095 [0xab]) 4095#32 1#32).inStart + (inputAt (memOf 4095 [0xab]) 4095#32 1#32).inSize ≤ Config.examples.memSize ∧
    (inputAt (memOf 4095 [0xab]) 4095#32 1#32).inSize ≤ 0xFFFF ∧
    (inputAt (memOf 4095 [0xab]) 4095#32 1#32).inputBytes = some [0xab] ∧
    (inputAt [] 4096#32 0#32).inStart + (inputAt [] 4096#32 0#32).inSize ≤ Config.examples.memSize ∧
    (inputAt [] 4096#32 0#32).inputBytes = some [] := by decide

/-- TcpParseFollowsItsRule, success at the end of MEM, the header length equal to IN_LEN. -/
theorem witness_TcpParse_runs :
    (tcpAt 4076#32 20#32 0x50).inStart + (tcpAt 4076#32 20#32 0x50).inSize ≤ Config.examples.memSize ∧
    20 ≤ (tcpAt 4076#32 20#32 0x50).inSize ∧
    (tcpAt 4076#32 20#32 0x50).mem.readBytes 4076 16 =
      some [0x00, 0x01, 0x00, 0x02, 0x00, 0x00, 0x00, 0x03, 0x00, 0x00, 0x00, 0x04, 0x50, 0xff, 0xff, 0xff] := by decide

/-- IhlIsDecodedNotValidated: IHL 15, IHL 4 and IHL 0, each completing. -/
theorem witness_IhlIsDecodedNotValidated (b0 : Byte) (h : b0 = 0x4F ∨ b0 = 0x44 ∨ b0 = 0x40) :
    (ipAt 4076#32 20#32 b0).inStart + (ipAt 4076#32 20#32 b0).inSize ≤ Config.examples.memSize ∧
    20 ≤ (ipAt 4076#32 20#32 b0).inSize ∧ (ipAt 4076#32 20#32 b0).mem.read 4076 = some b0 ∧ b0.toNat / 16 = 4 ∧
    exec .ip4Parse (ipAt 4076#32 20#32 b0) = .next (after .ip4Parse (ipAt 4076#32 20#32 b0)) := by
  rcases h with rfl | rfl | rfl <;> exact ⟨by decide, by decide, by decide, by decide, exec_after _ _ (by decide)⟩

/-- PayloadWindowsFollowTheirRule, IPv4: the header length equal to IN_LEN, and one past it. -/
theorem witness_PayloadWindows_ip4 :
    exec .ip4Parse (ipAt 4076#32 20#32 0x45) = .next (after .ip4Parse (ipAt 4076#32 20#32 0x45)) ∧
    (ipAt 4076#32 20#32 0x45).mem.read 4076 = some 0x45 ∧ 20 = 4 * ((0x45#8).toNat % 16) ∧
    exec .ip4Parse (ipAt 0#32 23#32 0x46) = .next (after .ip4Parse (ipAt 0#32 23#32 0x46)) ∧
    (ipAt 0#32 23#32 0x46).mem.read 0 = some 0x46 ∧ (0x46#8).toNat / 16 = 4 ∧ 24 = 4 * ((0x46#8).toNat % 16) ∧
    (ipAt 0#32 23#32 0x46).inStart + (ipAt 0#32 23#32 0x46).inSize ≤ Config.examples.memSize ∧ 20 ≤ (ipAt 0#32 23#32 0x46).inSize :=
  ⟨exec_after _ _ (by decide), by decide, by decide, exec_after _ _ (by decide), by decide, by decide, by decide, by decide, by decide⟩

/-- PayloadWindowsFollowTheirRule, TCP: the header length equal to IN_LEN, and one past it. -/
theorem witness_PayloadWindows_tcp :
    exec .tcpParse (tcpAt 4076#32 20#32 0x50) = .next (after .tcpParse (tcpAt 4076#32 20#32 0x50)) ∧
    (tcpAt 4076#32 20#32 0x50).mem.read (4076 + 12) = some 0x50 ∧ 20 = 4 * ((0x50#8).toNat / 16) ∧
    exec .tcpParse (tcpAt 0#32 23#32 0x60) = .next (after .tcpParse (tcpAt 0#32 23#32 0x60)) ∧
    (tcpAt 0#32 23#32 0x60).mem.read 12 = some 0x60 ∧ 24 = 4 * ((0x60#8).toNat / 16) ∧
    (tcpAt 0#32 23#32 0x60).inStart + (tcpAt 0#32 23#32 0x60).inSize ≤ Config.examples.memSize ∧ 20 ≤ (tcpAt 0#32 23#32 0x60).inSize :=
  ⟨exec_after _ _ (by decide), by decide, by decide, exec_after _ _ (by decide), by decide, by decide, by decide, by decide⟩

/-- TcpFlagsAreBitsOfByte13. -/
theorem witness_TcpFlagsAreBitsOfByte13 :
    exec .tcpParse (tcpAt 0#32 20#32 0x50) = .next (after .tcpParse (tcpAt 0#32 20#32 0x50)) ∧
    (after .tcpParse (tcpAt 0#32 20#32 0x50)).err = .ok ∧ (tcpAt 0#32 20#32 0x50).mem.read 13 = some 0xff :=
  ⟨exec_after _ _ (by decide), by decide, by decide⟩

/-- What a host sets up to parse the frame just built: IN_OFF from OUT_OFF, IN_LEN from OUT_LEN. -/
def reparse (t : State) : State := { t with opnd := { t.opnd with inOff := t.opnd.outOff, inLen := t.outLen } }

/-- A build at the end of MEM, for the round trips and the checksum laws. -/
def roundState : State :=
  { buildAt (memOf 200 [0x61, 0x62, 0x63]) 4073#32 200#32 3#32 with eth := ethFields, ip4 := ipFields, tcp := tcpFields }

/-- EthernetRoundTrip. -/
theorem witness_EthernetRoundTrip : ∃ (s t u : State) (pay : List Byte), exec .ethBuild s = .next t ∧ t.err = .ok ∧
    s.mem.readBytes s.payStart s.paySize = some pay ∧ u.config = s.config ∧ u.opnd.inOff = s.opnd.outOff ∧ u.opnd.inLen = t.outLen ∧
    (∀ a, inRegion a s.outStart t.outLen.toNat → u.mem.read a = t.mem.read a) :=
  ⟨roundState, after .ethBuild roundState, reparse (after .ethBuild roundState), [0x61, 0x62, 0x63], exec_after _ _ (by decide), by decide,
    by decide, by decide, by decide, by decide, fun _ _ => rfl⟩

/-- Ipv4RoundTrip, header bytes 10 and 11 rewritten in between. -/
theorem witness_Ipv4RoundTrip : ∃ s t u : State, exec .ip4Build s = .next t ∧ t.err = .ok ∧
    u.config = s.config ∧ u.opnd.inOff = s.opnd.outOff ∧ u.opnd.inLen = t.outLen ∧
    u.mem.read (s.outStart + 10) = some 0x37 ∧ u.mem.read (s.outStart + 11) = some 0xa5 ∧
    (∀ a, inRegion a s.outStart t.outLen.toNat → a ≠ s.outStart + 10 → a ≠ s.outStart + 11 → u.mem.read a = t.mem.read a) :=
  ⟨roundState, after .ip4Build roundState,
    { reparse (after .ip4Build roundState) with
      mem := ((after .ip4Build roundState).mem.write (roundState.outStart + 10) 0x37).write (roundState.outStart + 11) 0xa5 },
    exec_after _ _ (by decide), by decide, by decide, by decide, by decide, by decide, by decide,
    fun _ _ h10 h11 => (Memory.read_write_other _ _ h11).trans (Memory.read_write_other _ _ h10)⟩

/-- TcpRoundTrip, with both builds; BuiltSegmentVerifies has the hypotheses of the second. -/
theorem witness_TcpRoundTrip (i : Instr) (h : i = .tcpBuild ∨ i = .tcpBuildCsum) : ∃ s t u : State, exec i s = .next t ∧ t.err = .ok ∧
    u.config = s.config ∧ u.opnd.inOff = s.opnd.outOff ∧ u.opnd.inLen = t.outLen ∧
    (∀ a, inRegion a s.outStart t.outLen.toNat → u.mem.read a = t.mem.read a) := by
  rcases h with rfl | rfl
  · exact ⟨roundState, after .tcpBuild roundState, reparse (after .tcpBuild roundState), exec_after _ _ (by decide), by decide,
      by decide, by decide, by decide, fun _ _ => rfl⟩
  · exact ⟨roundState, after .tcpBuildCsum roundState, reparse (after .tcpBuildCsum roundState), exec_after _ _ (by decide), by decide,
      by decide, by decide, by decide, fun _ _ => rfl⟩

/-- WordsAreBigEndianPairs: the last whole word, the odd last byte, and an odd length. -/
theorem witness_WordsAreBigEndianPairs :
    ([0x01, 0x02, 0x03] : List Byte)[2 * 0]? = some 0x01 ∧ ([0x01, 0x02, 0x03] : List Byte)[2 * 0 + 1]? = some 0x02 ∧
    ([0x01, 0x02, 0x03] : List Byte)[2 * 1]? = some 0x03 ∧ ([0x01, 0x02, 0x03] : List Byte)[2 * 1 + 1]? = none ∧
    ([0x01, 0x02, 0x03] : List Byte).length % 2 = 1 := by decide

/-- InsertedChecksumVerifies: the checksum at the very start, and behind two bytes. -/
theorem witness_InsertedChecksumVerifies : ([] : List Byte).length % 2 = 0 ∧ ([0x45, 0x00] : List Byte).length % 2 = 0 := by decide

/-- AdjacentEvenRegionsAddUp: 2 bytes and 1 byte, as V-CS-8a. -/
theorem witness_AdjacentEvenRegionsAddUp : ∃ (s : State) (n1 n2 : Word) (t1 t2 t : State), n1.toNat % 2 = 0 ∧
    s.inStart + n1.toNat + n2.toNat ≤ s.config.memSize ∧
    exec .csumAddmem { s with opnd := { s.opnd with inLen := n1 } } = .next t1 ∧
    exec .csumAddmem { t1 with opnd := { s.opnd with inOff := s.opnd.inOff + n1, inLen := n2 } } = .next t2 ∧
    exec .csumAddmem { s with opnd := { s.opnd with inLen := n1 + n2 } } = .next t :=
  ⟨inputAt (memOf 4093 [0xab, 0xcd, 0xef]) 4093#32 0#32, 2#32, 1#32, _, _, _, by decide, by decide,
    exec_after _ _ (by decide), exec_after _ _ (by decide), exec_after _ _ (by decide)⟩

/-- DecodeOfEncode and EncodeOfDecode: the extreme immediates. -/
theorem witness_DecodeOfEncode :
    (Instr.csumAddi 0xFFFF#16).wellFormed = true ∧ (Instr.csumAddi 0x0000#16).wellFormed = true ∧ Instr.csumFin.wellFormed = true ∧
    decodeWord 0xFFFF0041#32 = .ok (.csumAddi 0xFFFF#16) ∧ decodeWord 0x00000041#32 = .ok (.csumAddi 0x0000#16) := ⟨rfl, rfl, rfl, rfl, rfl⟩

/-- IllegalWordsAreRule114, ResultCodesOfEachCommand, ErrorPriority and FailingCommandChangesOnlyErr, illegal word: one for each condition of R114,
accepted and due. -/
theorem witness_IllegalWord (w : Word) (h : w = 0x00000044#32 ∨ w = 0x00000141#32 ∨ w = 0x00010010#32) :
    (dueWith State.reset w).completing ∧ (dueWith State.reset w).eng.cmd = w ∧ (∀ i, decodeWord w ≠ .ok i) ∧
    step (dueWith State.reset w) = .next ((dueWith State.reset w).finished .illegalCommand) := by
  refine ⟨⟨rfl, rfl, rfl⟩, rfl, ?_, ?_⟩
  · rcases h with rfl | rfl | rfl <;> exact fun i hi => nomatch hi
  · rcases h with rfl | rfl | rfl <;> rfl

/-- StepRunsTheDecodedCommand. -/
theorem witness_StepRunsTheDecodedCommand :
    (dueWith State.reset 0xABCD0041#32).completing ∧
    decodeWord (dueWith State.reset 0xABCD0041#32).eng.cmd = .ok (.csumAddi 0xABCD#16) := ⟨⟨rfl, rfl, rfl⟩, rfl⟩

/-- Every command answers a next state somewhere: the hypothesis of ResultCodesOfEachCommand, ErrorPriority, ViewBitsFollowTheirParse,
CommandsWriteOnlyTheirRow and ReadsOnlyItsReadSet, the commands that read MEM reading nothing but written bytes. -/
theorem witness_EveryCommandAnswers (k : Half) :
    exec .ethParse (inputAt (memOf 0 ethHdr) 0#32 14#32) = .next (after .ethParse (inputAt (memOf 0 ethHdr) 0#32 14#32)) ∧
    exec .ip4Parse (ipAt 0#32 20#32 0x45) = .next (after .ip4Parse (ipAt 0#32 20#32 0x45)) ∧
    exec .tcpParse (tcpAt 0#32 20#32 0x50) = .next (after .tcpParse (tcpAt 0#32 20#32 0x50)) ∧
    (∀ i ∈ [Instr.ethBuild, .ip4Build, .ip4Csum, .tcpBuild, .tcpBuildCsum, .csumClr, .csumAddmem, .csumFin],
      exec i roundState = .next (after i roundState)) ∧
    exec (.csumAddi k) roundState = .next (after (.csumAddi k) roundState) :=
  ⟨exec_after _ _ (by decide), exec_after _ _ (by decide), exec_after _ _ (by decide),
    fun i hi => exec_after _ _ ((by decide : ∀ i ∈ [Instr.ethBuild, .ip4Build, .ip4Csum, .tcpBuild, .tcpBuildCsum, .csumClr, .csumAddmem,
      .csumFin], completes i roundState = true) i hi), rfl⟩

/-- The build of V-TCP-13, too long by one byte, with no byte of MEM written: the command stops before it reads any. -/
def tooLongBuild : State := { buildAt [] 0#32 0#32 65516#32 with config := Config.largest }

/-- ErrorPriority, one clause after another: region, too short, too long, version, success. -/
theorem witness_ErrorPriority :
    ((inputAt [] 4077#32 20#32).badRegion .ip4Parse ∧ completes .ip4Parse (inputAt [] 4077#32 20#32) = true) ∧
    (¬ (inputAt [] 4077#32 19#32).badRegion .ip4Parse ∧ (inputAt [] 4077#32 19#32).tooShort .ip4Parse ∧
      completes .ip4Parse (inputAt [] 4077#32 19#32) = true) ∧
    (¬ tooLongBuild.badRegion .tcpBuildCsum ∧ tooLongBuild.tooLong .tcpBuildCsum ∧ completes .tcpBuildCsum tooLongBuild = true) ∧
    (¬ (ipAt 4076#32 20#32 0x60).badRegion .ip4Parse ∧ ¬ (ipAt 4076#32 20#32 0x60).tooShort .ip4Parse ∧
      (ipAt 4076#32 20#32 0x60).wrongVersion .ip4Parse ∧ completes .ip4Parse (ipAt 4076#32 20#32 0x60) = true) ∧
    (¬ (ipAt 4076#32 20#32 0x45).badRegion .ip4Parse ∧ ¬ (ipAt 4076#32 20#32 0x45).tooShort .ip4Parse ∧
      ¬ (ipAt 4076#32 20#32 0x45).tooLong .ip4Parse ∧ ¬ (ipAt 4076#32 20#32 0x45).wrongVersion .ip4Parse ∧
      completes .ip4Parse (ipAt 4076#32 20#32 0x45) = true) := by
  refine ⟨⟨?_, by decide⟩, ⟨?_, ?_, by decide⟩, ⟨?_, ⟨rfl, ?_⟩, by decide⟩, ⟨?_, ?_, ⟨rfl, 0x60#8, ?_, by decide⟩, by decide⟩, ?_, ?_, ?_, ?_, by decide⟩
  · show Config.examples.memSize < 4077 + 20; decide
  · show ¬ Config.examples.memSize < 4077 + 19; decide
  · show 19 < 20; decide
  · show ¬ (Config.largest.memSize < 0 + 65516 ∨ Config.largest.memSize < 0 + 20 + 65516); decide
  · show 0xFFFF < 20 + 65516; decide
  · show ¬ Config.examples.memSize < 4076 + 20; decide
  · show ¬ 20 < 20; decide
  · decide
  · show ¬ Config.examples.memSize < 4076 + 20; decide
  · show ¬ 20 < 20; decide
  · exact fun h => nomatch h.1
  · rintro ⟨-, b, hb, hv⟩
    rw [show (ipAt 4076#32 20#32 0x45).mem.read (ipAt 4076#32 20#32 0x45).inStart = some 0x45#8 by decide] at hb
    cases hb
    exact hv (by decide)

/-- FailingCommandChangesOnlyErr: a parse and a build that fail. -/
theorem witness_FailingCommandChangesOnlyErr :
    exec .ip4Parse (inputAt [] 0#32 19#32) = .next (after .ip4Parse (inputAt [] 0#32 19#32)) ∧
    (after .ip4Parse (inputAt [] 0#32 19#32)).err ≠ .ok ∧
    exec .tcpBuild (buildAt [] 4077#32 0#32 0#32) = .next (after .tcpBuild (buildAt [] 4077#32 0#32 0#32)) ∧
    (after .tcpBuild (buildAt [] 4077#32 0#32 0#32)).err ≠ .ok :=
  ⟨exec_after _ _ (by decide), by decide, exec_after _ _ (by decide), by decide⟩

/-- CompletesOnceInputsAreWritten. -/
theorem witness_CompletesOnceInputsAreWritten : (inputAt (memOf 4095 [0xab]) 4095#32 1#32).inputsWritten .csumAddmem := by
  rintro a ⟨r, hr, h1, h2⟩
  cases List.mem_singleton.1 hr
  have : a = 4095 := Nat.le_antisymm (Nat.le_of_lt_succ h2) h1
  subst this
  decide

/-- OnlyUnwrittenReadsFault: a build whose payload nothing has written. -/
theorem witness_OnlyUnwrittenReadsFault :
    exec .ethBuild (buildAt [] 0#32 0#32 1#32) = .fault .unwrittenRead ∧
    ¬ (buildAt [] 0#32 0#32 1#32).badRegion .ethBuild ∧ ¬ (buildAt [] 0#32 0#32 1#32).tooShort .ethBuild ∧
    ¬ (buildAt [] 0#32 0#32 1#32).tooLong .ethBuild ∧
    ∃ a, (buildAt [] 0#32 0#32 1#32).reads .ethBuild a ∧ (buildAt [] 0#32 0#32 1#32).mem.read a = none := by
  refine ⟨rfl, ?_, ?_, ?_, 0, ⟨_, List.mem_singleton.2 rfl, Nat.le_refl _, by decide⟩, rfl⟩
  · show ¬ (Config.examples.memSize < 0 + 1 ∨ Config.examples.memSize < 0 + 14 + 1); decide
  · exact id
  · exact fun h => nomatch h.1

/-- OnlyUnwrittenReadsFault, IP4_PARSE: byte 0 unwritten; and version 4 with the last byte it reads, 19, unwritten. -/
theorem witness_OnlyUnwrittenReadsFault_ip4 :
    ¬ (inputAt [] 4076#32 20#32).badRegion .ip4Parse ∧ ¬ (inputAt [] 4076#32 20#32).tooShort .ip4Parse ∧
    (inputAt [] 4076#32 20#32).mem.read 4076 = none ∧
    (inputAt (memOf 4076 ((ipHdr 0x45).take 19)) 4076#32 20#32).mem.read 4076 = some 0x45 ∧ (0x45#8).toNat / 16 = 4 ∧
    (inputAt (memOf 4076 ((ipHdr 0x45).take 19)) 4076#32 20#32).reads .ip4Parse 4095 ∧
    (inputAt (memOf 4076 ((ipHdr 0x45).take 19)) 4076#32 20#32).mem.read 4095 = none := by
  refine ⟨?_, ?_, rfl, by decide, by decide, ?_, by decide⟩
  · show ¬ Config.examples.memSize < 4076 + 20; decide
  · show ¬ 20 < 20; decide
  · exact ⟨(4088, 8), List.mem_cons_of_mem _ (List.mem_cons_of_mem _ (List.mem_singleton.2 rfl)), by decide, by decide⟩

/-- ReadsOnlyItsReadSet: a MEM that differs outside the read set. -/
theorem witness_ReadsOnlyItsReadSet :
    ∀ a, (inputAt (memOf 0 [0xab]) 0#32 1#32).reads .csumAddmem a → (memOf 0 [0xab, 0xcd]).read a = (memOf 0 [0xab]).read a := by
  rintro a ⟨r, hr, h1, h2⟩
  cases List.mem_singleton.1 hr
  have : a = 0 := Nat.lt_one_iff.1 h2
  subst this
  decide

/-- IdleCmdWriteIsAccepted. -/
theorem witness_IdleCmdWriteIsAccepted :
    (idleWith [] [.write .w32 0x00004#17 0xFFFFFFFF#32]).idle ∧
    (idleWith [] [.write .w32 0x00004#17 0xFFFFFFFF#32]).bus = [.write .w32 0x00004#17 0xFFFFFFFF#32] := ⟨⟨rfl, rfl⟩, rfl⟩

/-- RunningCommandBecomesDue: a command due at once, and one with two cycles to go and the host polling and writing. -/
theorem witness_RunningCommandBecomesDue :
    (runningWith 2 0x40#32 [.poll, .write .w8 0x10FFF#17 1#32]).resetPin = false ∧
    (runningWith 2 0x40#32 [.poll, .write .w8 0x10FFF#17 1#32]).eng.busy = true ∧
    (∀ e ∈ (runningWith 2 0x40#32 [.poll, .write .w8 0x10FFF#17 1#32]).bus, orderly Config.examples e) ∧
    (runningWith 0 0x40#32 []).eng.busy = true := by
  refine ⟨rfl, rfl, fun e he => ?_, rfl⟩
  cases he with
  | head => trivial
  | tail _ he =>
    cases List.mem_singleton.1 he
    show busTarget Config.examples .w8 0x10FFF#17 ≠ none
    decide

/-- BusyWriteIsDropped: an access the map does not allow, a write to CMD, a write to MEM, and a write to STATUS. -/
theorem witness_BusyWriteIsDropped :
    (runningWith 1 0x40#32 [.write .w16 0x10000#17 0#32]).running ∧ ¬ allowedAccess Config.examples .w16 0x10000#17 ∧
    allowedAccess Config.examples .w32 0x00004#17 ∧ allowedAccess Config.examples .w8 0x10FFF#17 ∧ allowedAccess Config.examples .w32 0x00008#17 := by
  refine ⟨⟨rfl, rfl, Nat.one_pos⟩, ?_, ?_, ?_, ?_⟩ <;> unfold allowedAccess <;> decide

/-- BusyReadsHaveNoEffect: a pass of the polling loop, an idle event and nothing to come, on a running block. -/
theorem witness_BusyReads_quiet :
    (runningWith 1 0x40#32 [.poll]).running ∧ (runningWith 1 0x40#32 [.poll]).bus = [.poll] ∧
    (runningWith 1 0x40#32 [.idle]).running ∧ (runningWith 1 0x40#32 []).running :=
  ⟨⟨rfl, rfl, Nat.one_pos⟩, rfl, ⟨rfl, rfl, Nat.one_pos⟩, ⟨rfl, rfl, Nat.one_pos⟩⟩

/-- BusyReadsHaveNoEffect: the reads of ID, STATUS, CMD, another register and MEM. -/
theorem witness_BusyReadsHaveNoEffect (a : HostAddr)
    (h : a = 0x00000#17 ∨ a = 0x00008#17 ∨ a = 0x00004#17 ∨ a = 0x00104#17 ∨ a = 0x10FFC#17) :
    (runningWith 1 0x40#32 [.read .w32 a]).running ∧ (runningWith 1 0x40#32 [.read .w32 a]).bus = [.read .w32 a] ∧
    allowedAccess Config.examples .w32 a := by
  refine ⟨⟨rfl, rfl, Nat.one_pos⟩, rfl, ?_⟩
  rcases h with rfl | rfl | rfl | rfl | rfl <;> unfold allowedAccess <;> decide

/-- BusErrorsExactlyOutsideTheMap: the first address past the window, and past the registers, of an idle block and of a running one. -/
theorem witness_BusErrorsExactlyOutsideTheMap :
    (idleWith [] [.read .w8 0x11000#17]).idle ∧ step (idleWith [] [.read .w8 0x11000#17]) = .fault .busError ∧
    (runningWith 1 0x40#32 [.write .w32 0x00108#17 0#32]).running ∧
    step (runningWith 1 0x40#32 [.write .w32 0x00108#17 0#32]) = .fault .busError := ⟨⟨rfl, rfl⟩, rfl, ⟨rfl, rfl, Nat.one_pos⟩, rfl⟩

/-- IdleRegisterAccesses: a read, a write of a writable register, of STATUS and of a read-only register, a poll, and nothing to come. -/
theorem witness_IdleRegisterAccesses :
    (idleWith [] [.read .w32 (mapAddress .csumRes)]).idle ∧ (idleWith [] [.write .w32 (mapAddress .ethType) 0xFFFFFFFF#32]).idle ∧
    (idleWith [] [.write .w32 (mapAddress .status) 0x10000#32]).idle ∧ (idleWith [] [.write .w32 (mapAddress .ethPoff) 1#32]).idle ∧
    (idleWith [] [.poll]).idle ∧ (idleWith [] [.idle]).idle ∧ (idleWith [] []).idle ∧
    Reg.ethType ≠ .cmd ∧ Reg.status ≠ .cmd ∧ Reg.ethPoff ≠ .cmd ∧ Reg.ethPoff ≠ .status ∧ writableBits .ethPoff = 0#32 :=
  ⟨⟨rfl, rfl⟩, ⟨rfl, rfl⟩, ⟨rfl, rfl⟩, ⟨rfl, rfl⟩, ⟨rfl, rfl⟩, ⟨rfl, rfl⟩, ⟨rfl, rfl⟩, by decide⟩

/-- ReservedBitsReadZero and IdleRegisterAccesses are stated of every register but CMD: there is one. -/
theorem witness_ReservedBitsReadZero : Reg.tcpFlags ≠ .cmd := by decide

/-- IdIsConstant: a read and a write of ID, of an idle block and of a running one. -/
theorem witness_IdIsConstant :
    (idleWith [] [.read .w32 0x00000#17]).idle ∧ (runningWith 1 0x40#32 [.write .w32 0x00000#17 1#32]).running ∧
    (runningWith 1 0x40#32 [.write .w32 0x00000#17 1#32]).bus = [.write .w32 0x00000#17 1#32] := ⟨⟨rfl, rfl⟩, ⟨rfl, rfl, Nat.one_pos⟩, rfl⟩

/-- MemoryWindowAccesses, bytes: the first and the last of MEM; the write is one for ByteWriteUsesLowBits too. -/
theorem witness_MemoryWindow_bytes :
    (idleWith (memOf 4095 [0xab]) [.read .w8 0x10FFF#17]).idle ∧ (0x10FFF#17).toNat = 0x10000 + 4095 ∧ 4095 < Config.examples.memSize ∧
    (memOf 4095 [0xab]).read 4095 = some 0xab ∧ (idleWith [] [.write .w8 0x10000#17 ((0xcd#8).zeroExtend 32)]).idle ∧ (0x10000#17).toNat = 0x10000 + 0 :=
  ⟨⟨rfl, rfl⟩, by decide, by decide, by decide, ⟨rfl, rfl⟩, by decide⟩

/-- MemoryWindowAccesses, words: the last word of MEM, and the misaligned offset behind its start. -/
theorem witness_MemoryWindow_words :
    (idleWith (memOf 4092 [1, 2, 3, 4]) [.read .w32 0x10FFC#17]).idle ∧ (0x10FFC#17).toNat = 0x10000 + 4092 ∧ 4092 % 4 = 0 ∧
    (memOf 4092 [1, 2, 3, 4]).readBytes 4092 4 = some [1, 2, 3, 4] ∧ (idleWith [] [.write .w32 0x10FFC#17 0#32]).idle ∧
    (idleWith [] [.read .w32 0x10FFD#17]).idle ∧ (0x10FFD#17).toNat = 0x10000 + 4093 ∧ 4093 < Config.examples.memSize ∧ 4093 % 4 ≠ 0 ∧
    (idleWith [] [.read .w16 0x10000#17]).idle :=
  ⟨⟨rfl, rfl⟩, by decide, by decide, by decide, ⟨rfl, rfl⟩, ⟨rfl, rfl⟩, by decide, by decide, by decide, ⟨rfl, rfl⟩⟩

/-- MixedWidthReadsAgree: the last word of MEM. -/
theorem witness_MixedWidthReadsAgree : ∃ (s : State) (a : HostAddr) (v0 v1 v2 v3 : Word), s.eng.busy = false ∧ 0x10000 ≤ a.toNat ∧
    a.toNat % 4 = 0 ∧ busRead s .w8 a = .next (s.answer v0) ∧ busRead s .w8 (a + 1) = .next (s.answer v1) ∧
    busRead s .w8 (a + 2) = .next (s.answer v2) ∧ busRead s .w8 (a + 3) = .next (s.answer v3) :=
  ⟨idleWith (memOf 4092 [1, 2, 3, 4]) [], 0x10FFC#17, 1#32, 2#32, 3#32, 4#32, rfl, by decide, by decide, rfl, rfl, rfl, rfl⟩

/-- UnwrittenHostReadFaults: the last byte of MEM, and a word whose last byte nothing has written. -/
theorem witness_UnwrittenHostReadFaults :
    (idleWith [] [.read .w8 0x10FFF#17]).idle ∧ (0x10FFF#17).toNat = 0x10000 + 4095 ∧ Memory.read [] 4095 = none ∧
    (idleWith (memOf 4092 [1, 2, 3]) [.read .w32 0x10FFC#17]).idle ∧ (0x10FFC#17).toNat = 0x10000 + 4092 ∧ 4092 % 4 = 0 ∧
    3 < 4 ∧ (memOf 4092 [1, 2, 3]).read (4092 + 3) = none :=
  ⟨⟨rfl, rfl⟩, by decide, rfl, ⟨rfl, rfl⟩, by decide, by decide, by decide, by decide⟩

/-- AssertedResetClearsRegisters and ResetMakesMemoryUnspecified: reset asserted on an idle block, on a running build, and on a running
illegal word. -/
theorem witness_AssertedReset :
    (idleWith (memOf 0 [1]) [.assertReset]).idle ∧ (runningWith 1 0x11#32 [.assertReset]).running ∧
    (runningWith 1 0x11#32 [.assertReset]).bus = [.assertReset] ∧
    decodeWord (runningWith 1 0x11#32 [.assertReset]).eng.cmd = .ok .ethBuild ∧
    (runningWith 1 0x11#32 [.assertReset]).writes .ethBuild 13 ∧ ¬ (runningWith 1 0x11#32 [.assertReset]).writes .ethBuild 14 ∧
    (runningWith 1 0#32 [.assertReset]).running ∧ (∀ i, decodeWord (runningWith 1 0#32 [.assertReset]).eng.cmd ≠ .ok i) := by
  refine ⟨⟨rfl, rfl⟩, ⟨rfl, rfl, Nat.one_pos⟩, rfl, rfl, ?_, ?_, ⟨rfl, rfl, Nat.one_pos⟩, fun i hi => nomatch hi⟩
  · show 0 ≤ 13 ∧ 13 < 0 + 14; decide
  · show ¬ (0 ≤ 14 ∧ 14 < 0 + 14); decide

/-- AccessDuringResetFaults: reset asserted, and a read, a write and the polling loop to come. -/
theorem witness_AccessDuringResetFaults :
    (assertReset (idleWith [] [.read .w32 0x00000#17])).resetPin = true ∧
    (assertReset (idleWith [] [.read .w32 0x00000#17])).bus = [.read .w32 0x00000#17] ∧
    (assertReset (idleWith [] [.write .w8 0x10000#17 0#32])).bus = [.write .w8 0x10000#17 0#32] ∧
    (assertReset (idleWith [] [.poll])).bus = [.poll] := ⟨rfl, rfl, rfl, rfl⟩

/-- A build due, beside an IPv4 view that is POOR and points past MEM. -/
def invState : State :=
  dueWith { roundState with view := { roundState.view with ip4Poor := true }, ip4 := { ipFields with poff := 0xFFFFFFFF#32 } } 0x32#32

/-- StepKeepsInvariant: a state with the invariant, and a build that completes in the next step. -/
theorem witness_StepKeepsInvariant : invState.Inv ∧ step invState = .next (after .tcpBuildCsum invState) := by
  refine ⟨⟨?_, ?_, (fun h => nomatch h), (fun h => nomatch h), by decide, by decide, by decide, by decide, by decide⟩, ?_⟩
  · show Memory.wf (memOf 200 [0x61, 0x62, 0x63]); decide
  · show ∀ c ∈ memOf 200 [0x61, 0x62, 0x63], c.1 < Config.examples.memSize; decide
  · exact (show step invState = exec .tcpBuildCsum invState by rfl).trans (exec_after _ _ (by decide))

end Sys2Proof.Tests
end

