-- ==== Sys2Proof/Proofs/HostAccess.lean ====
section
/-! SUPPORT. What a host access to a register does, said once for an idle and for a running block (20_memory.md R80, R89;
70_reset_and_hazards.md R280, R281). -/

namespace Sys2Proof.Machine

@[simp] theorem afterEvent_config (s : State) (rest : List HostEvent) : (s.afterEvent rest).config = s.config := rfl
@[simp] theorem afterEvent_eng (s : State) (rest : List HostEvent) : (s.afterEvent rest).eng = s.eng := rfl
@[simp] theorem afterEvent_haz (s : State) (rest : List HostEvent) : (s.afterEvent rest).haz = s.haz := rfl

/-- A block that is idle, or runs a command not due, takes the next event from outside. -/
theorem step_event_of_idle_or_running {s : State} {e : HostEvent} {rest : List HostEvent} (h : s.idle ∨ s.running)
    (hb : s.bus = e :: rest) : step s = hostEvent (s.afterEvent rest) e := by
  rcases h with hi | hr
  · exact step_event (idle_not_completing hi) hi.1 hb
  · exact step_event (running_not_completing hr) hr.1 hb

/-- A 32-bit read at a register's address: never a bus error, and a next state whether or not a command runs. -/
theorem busRead_reg (s : State) (r : Reg) :
    busRead s .w32 (hostAddr r) = .next (if s.eng.busy then readBusy s (.reg r) else s.answer (s.readReg r)) := by
  have ht : busTarget s.config .w32 (hostAddr r) = some (.reg r) := busTarget_reg.2 ⟨rfl, rfl⟩
  cases hb : s.eng.busy <;> simp [busRead, ht, hb, readIdle]

/-- A 32-bit write at a register's address: performed on an idle block, subject to the busy write hazard on a running one. -/
theorem busWrite_reg (s : State) (r : Reg) (d : Word) :
    busWrite s .w32 (hostAddr r) d = .next (if s.eng.busy then writeBusy s d (.reg r) else s.writeReg r d) := by
  have ht : busTarget s.config .w32 (hostAddr r) = some (.reg r) := busTarget_reg.2 ⟨rfl, rfl⟩
  cases hb : s.eng.busy <;> simp [busWrite, ht, hb, writeIdle]

end Sys2Proof.Machine
end

