-- ==== Sys2Proof/Proofs/IdConstant.lean ====
section
/-! PROOF. ID reads its constant and ignores writes (10_state.md R37). -/

namespace Sys2Proof.Machine

/-- ID reads true while a command runs too (70_reset_and_hazards.md R281). -/
theorem busRead_id (s : State) : busRead s .w32 (hostAddr .id) = .next (s.answer idValue) := by
  rw [busRead_reg]
  cases s.eng.busy <;> rfl

/-- A write to ID leaves an idle block as it is; a running one drops it and sets HAZ (70_reset_and_hazards.md R280). -/
theorem busWrite_id (s : State) (d : Word) :
    busWrite s .w32 (hostAddr .id) d = .next { s with haz := s.haz || s.eng.busy } := by
  rw [busWrite_reg]
  cases s.eng.busy with
  | false => simp [State.writeReg]
  | true => simp [writeBusy]

/-- Settles O47: in the cycle that takes the access, `busRead_id` and `busWrite_id` say what it does. -/
theorem idIsConstant : Obligations.IdIsConstant := by
  unfold Obligations.IdIsConstant
  intro s rest h
  refine ⟨fun hb => ?read, fun d hb => ?write⟩
  case read => exact (step_event_of_idle_or_running h hb).trans (busRead_id _)
  case write => exact (step_event_of_idle_or_running h hb).trans (busWrite_id _ d)

end Sys2Proof.Machine
end

