-- ==== Sys2Proof/Proofs/ReservedBits.lean ====
section
/-! PROOF. Reserved bits read 0 and are ignored by writes (10_state.md R34). A register is a whole word, one field at bit 0, or the single
bits and the code of STATUS, VIEWSTAT and TCP_FLAGS. -/

namespace Sys2Proof.Machine

/-- A whole word has no reserved bit. -/
theorem word_reserved (w : Word) : w &&& ~~~0xFFFFFFFF#32 = 0#32 := by simp

/-- A field at bit 0, zero-extended, is 0 in every bit above it. -/
theorem zeroExtend_reserved {n : Nat} (x : BitVec n) :
    x.zeroExtend 32 &&& ~~~((BitVec.allOnes n).zeroExtend 32) = 0#32 := by
  ext i hi
  simp only [BitVec.zeroExtend, BitVec.getElem_and, BitVec.getElem_not, BitVec.getElem_setWidth, BitVec.getLsbD_allOnes,
    BitVec.getElem_zero, Bool.and_eq_false_imp, Bool.not_eq_false', decide_eq_true_eq]
  exact BitVec.lt_of_getLsbD

/-- ETH_TYPE is one field of 18 bits at bit 0, CLASS above VALUE. -/
theorem ethType_eq_zeroExtend (c : BitVec 2) (v : Half) : (0#14 ++ c ++ v : Word) = (c ++ v).zeroExtend 32 :=
  BitVec.append_assoc.trans (BitVec.setWidth_eq_append (by decide)).symm

/-- IP4_PROTO is one field of 11 bits at bit 0, CLASS above VALUE. -/
theorem ip4Proto_eq_zeroExtend (c : BitVec 3) (v : Byte) : (0#21 ++ c ++ v : Word) = (c ++ v).zeroExtend 32 :=
  BitVec.append_assoc.trans (BitVec.setWidth_eq_append (by decide)).symm

/-- STATUS is 0 outside BUSY, ERR and HAZ. -/
theorem statusWord_reserved (s : State) : s.statusWord &&& ~~~(namedBits .status) = 0#32 := by
  unfold State.statusWord
  cases s.eng.busy <;> cases s.haz <;> cases s.err <;> rfl

/-- VIEWSTAT is 0 outside the VALID and POOR bits. -/
theorem viewWord_reserved (v : ViewStat) : v.word &&& ~~~(namedBits .viewstat) = 0#32 := by
  obtain ⟨ethValid, ip4Valid, tcpValid, ip4Poor, tcpPoor⟩ := v
  revert ethValid ip4Valid tcpValid ip4Poor tcpPoor
  decide

/-- TCP_FLAGS is 0 outside FIN, SYN, RST and ACK. -/
theorem flagsWord_reserved (f : TcpFlags) : f.toByte.zeroExtend 32 &&& ~~~(namedBits .tcpFlags) = 0#32 := by
  obtain ⟨fin, syn, rst, ack⟩ := f
  revert fin syn rst ack
  decide

/-- Whatever a register holds, a read shows 0 in its reserved bits. -/
theorem readReg_reserved (s : State) (r : Reg) : s.readReg r &&& ~~~(namedBits r) = 0#32 := by
  cases r with
  | cmd => exact BitVec.zero_and
  | status => exact statusWord_reserved s
  | viewstat => exact viewWord_reserved s.view
  | tcpFlags => exact flagsWord_reserved s.tcp.flags
  | ethType => rw [State.readReg, ethType_eq_zeroExtend]; exact zeroExtend_reserved _
  | ip4Proto => rw [State.readReg, ip4Proto_eq_zeroExtend]; exact zeroExtend_reserved _
  | ethDstHi | ethSrcHi | tcpSport | tcpDport | tcpWin | ip4Csum | tcpCsum | csumAcc | csumRes | ip4Hlen | tcpHlen =>
    exact zeroExtend_reserved _
  | id | inOff | inLen | outOff | payOff | payLen | outLen | ethDstLo | ethSrcLo | ethPoff | ethPlen
  | ip4Src | ip4Dst | ip4Poff | ip4Plen | tcpSeq | tcpAck | tcpPoff | tcpPlen | tcpPhSrc | tcpPhDst =>
    exact word_reserved _

/-- A field at bit 0 does not see a mask that is all ones over it. -/
theorem extractLsb'_and_mask {n : Nat} {w m : Word} (hm : m.extractLsb' 0 n = BitVec.allOnes n) :
    (w &&& m).extractLsb' 0 n = w.extractLsb' 0 n := by
  rw [BitVec.extractLsb'_and, hm, BitVec.and_allOnes]

/-- The flags stored from a byte are those of its named bits. -/
theorem flagsOfByte_and_named (w : Word) :
    TcpFlags.ofByte ((w &&& namedBits .tcpFlags).extractLsb' 0 8) = TcpFlags.ofByte (w.extractLsb' 0 8) := by
  simp [TcpFlags.ofByte, namedBits]

/-- STATUS looks at bit 16 alone, which is HAZ. -/
theorem clearHaz_and_named (haz : Bool) (w : Word) : clearHaz haz (w &&& namedBits .status) = clearHaz haz w := by
  simp [clearHaz, namedBits]

/-- A write to a register but CMD does what it does with the reserved bits cleared. -/
theorem writeReg_and_named (s : State) {r : Reg} (w : Word) (hr : r ≠ .cmd) :
    s.writeReg r (w &&& namedBits r) = s.writeReg r w := by
  cases r with
  | cmd => exact absurd rfl hr
  | status => simp only [State.writeReg, State.writeStatus, clearHaz_and_named]
  | tcpFlags => simp only [State.writeReg, flagsOfByte_and_named]
  | ethDstHi | ethSrcHi | ethType | ip4Proto | tcpSport | tcpDport | tcpWin | csumAcc =>
    simp only [State.writeReg]
    rw [extractLsb'_and_mask (by decide)]
  | inOff | inLen | outOff | payOff | payLen | ethDstLo | ethSrcLo
  | ip4Src | ip4Dst | tcpSeq | tcpAck | tcpPhSrc | tcpPhDst =>
    exact congrArg (s.writeReg _) BitVec.and_allOnes
  | id | viewstat | outLen | ethPoff | ethPlen | ip4Hlen | ip4Poff | ip4Plen | ip4Csum
  | tcpHlen | tcpPoff | tcpPlen | tcpCsum | csumRes =>
    rfl

/-- Settles O45: `readReg_reserved` for reads, `writeReg_and_named` for writes. -/
theorem reservedBitsReadZero : Obligations.ReservedBitsReadZero := by
  unfold Obligations.ReservedBitsReadZero
  exact fun s r => ⟨readReg_reserved s r, fun w hr => (writeReg_and_named s w hr).symm⟩

end Sys2Proof.Machine
end

section
/-! SUPPORT. What a host access does in the cycle that takes it, said once: when it is a bus error, and what an idle block does with one that
reaches something (20_memory.md R80 to R83; 60_exceptions.md R247). -/

namespace Sys2Proof.Machine

@[simp] theorem afterEvent_mem (s : State) (rest : List HostEvent) : (s.afterEvent rest).mem = s.mem := rfl

/-- An idle read that reaches something is no bus error: it answers, or it stops at an unwritten byte. -/
theorem readIdle_ne_busError (s : State) (t : BusTarget) : readIdle s t ≠ .fault .busError := by
  cases t with
  | reg r => simp [readIdle]
  | memByte i => cases h : s.mem.read i <;> simp [readIdle, h]
  | memWord i => cases h : s.mem.readBE i 4 <;> simp [readIdle, h]

/-- A host read is a bus error exactly where the address map answers nothing. -/
theorem busRead_busError_iff {s : State} {w : Width} {a : HostAddr} :
    busRead s w a = .fault .busError ↔ busTarget s.config w a = none := by
  rcases busRead_cases s w a with ⟨ht, hr⟩ | ⟨t, ht, -, hr⟩ | ⟨t, ht, -, hr⟩
  · simp [ht, hr]
  · simp [ht, hr]
  · simp [ht, hr, readIdle_ne_busError]

/-- A host write is a bus error exactly where the address map answers nothing. -/
theorem busWrite_busError_iff {s : State} {w : Width} {a : HostAddr} {d : Word} :
    busWrite s w a d = .fault .busError ↔ busTarget s.config w a = none := by
  rcases busWrite_cases s w a d with ⟨ht, hr⟩ | ⟨t, ht, -, hr⟩ | ⟨t, ht, -, hr⟩ <;> simp [ht, hr]

section
variable {s : State} {w : Width} {a : HostAddr} {rest : List HostEvent}

theorem step_read_busError_iff (h : s.idle ∨ s.running) (hb : s.bus = .read w a :: rest) :
    step s = .fault .busError ↔ busTarget s.config w a = none := by
  rw [step_event_of_idle_or_running h hb]
  exact busRead_busError_iff

theorem step_write_busError_iff {d : Word} (h : s.idle ∨ s.running) (hb : s.bus = .write w a d :: rest) :
    step s = .fault .busError ↔ busTarget s.config w a = none := by
  rw [step_event_of_idle_or_running h hb]
  exact busWrite_busError_iff

/-- An idle block answers a read that reaches something as `readIdle` says. -/
theorem step_read_of_busTarget {t : BusTarget} (h : s.idle) (hb : s.bus = .read w a :: rest)
    (ht : busTarget s.config w a = some t) : step s = readIdle (s.afterEvent rest) t := by
  rw [step_event_of_idle_or_running (.inl h) hb]
  simp [hostEvent, busRead, ht, h.2]

/-- An idle block performs a write that reaches something as `writeIdle` says. -/
theorem step_write_of_busTarget {t : BusTarget} {d : Word} (h : s.idle) (hb : s.bus = .write w a d :: rest)
    (ht : busTarget s.config w a = some t) : step s = .next (writeIdle (s.afterEvent rest) d t) := by
  rw [step_event_of_idle_or_running (.inl h) hb]
  simp [hostEvent, busWrite, ht, h.2]

end

end Sys2Proof.Machine
end

section
/-! PROOF. Bus errors are exactly the accesses outside the address map (20_memory.md R80, R82; 60_exceptions.md R247). -/

namespace Sys2Proof.Machine

/-- Settles O44: the accesses that reach nothing are those the map does not allow, by `allowedAccess_iff`. -/
theorem busErrorsExactlyOutsideTheMap : Obligations.BusErrorsExactlyOutsideTheMap := by
  unfold Obligations.BusErrorsExactlyOutsideTheMap
  intro s w a h
  rw [allowedAccess_iff, not_not]
  exact ⟨fun _ hb => step_read_busError_iff h hb, fun _ _ hb => step_write_busError_iff h hb⟩

end Sys2Proof.Machine
end

section
/-! PROOF. The MEM window of an idle block (20_memory.md R83): bytes, aligned big-endian words, and no other access. -/

namespace Sys2Proof.Machine

/-- MEM_SIZE is a multiple of 4, so a word that begins inside MEM at a multiple of 4 ends inside it. -/
theorem aligned_word_inside {c : Config} {i : Nat} (hi : i < c.memSize) (h4 : i % 4 = 0) : i + 3 < c.memSize := by
  have := memSize_mod c
  omega

/-- The byte that a word made of a byte carries. -/
theorem extractLsb'_zeroExtend (b : Byte) : (b.zeroExtend 32).extractLsb' 0 8 = b := by
  apply BitVec.eq_of_toNat_eq
  simpa using b.isLt

/-- The data of a word whose four bytes have been written: the lowest byte in bits 31:24. -/
theorem readIdle_memWord {s : State} {i : Nat} {b0 b1 b2 b3 : Byte} (h : s.mem.readBytes i 4 = some [b0, b1, b2, b3]) :
    readIdle s (.memWord i) = .next (s.answer (b0 ++ b1 ++ b2 ++ b3)) := by
  simp [readIdle, Memory.readBE, h, ofNat_beNat_four]

section
variable {s : State} {a : HostAddr} {i : Nat} {rest : List HostEvent}
  (h : s.idle) (ha : a.toNat = 0x10000 + i) (hi : i < s.config.memSize)
include h ha hi

theorem step_read_memByte {b : Byte} (hm : s.mem.read i = some b) (hb : s.bus = .read .w8 a :: rest) :
    step s = .next { s.afterEvent rest with lastRead := some (b.zeroExtend 32) } := by
  rw [step_read_of_busTarget h hb (busTarget_memByte.2 ⟨rfl, ha, hi⟩)]
  simp [readIdle, hm, State.answer]

/-- A byte write stores the low byte of its data and changes no other byte. -/
theorem step_write_memByte {d : Word} (hb : s.bus = .write .w8 a d :: rest) :
    ∃ m, step s = .next { s.afterEvent rest with mem := m } ∧
      m.read i = some (d.extractLsb' 0 8) ∧ ∀ j, j ≠ i → m.read j = s.mem.read j :=
  ⟨_, step_write_of_busTarget h hb (busTarget_memByte.2 ⟨rfl, ha, hi⟩), Memory.read_write_same _ _ _,
    fun _ hj => Memory.read_write_other _ _ hj⟩

theorem step_read_memWord {b0 b1 b2 b3 : Byte} (h4 : i % 4 = 0) (hm : s.mem.readBytes i 4 = some [b0, b1, b2, b3])
    (hb : s.bus = .read .w32 a :: rest) :
    step s = .next { s.afterEvent rest with lastRead := some (b0 ++ b1 ++ b2 ++ b3) } := by
  rw [step_read_of_busTarget h hb (busTarget_memWord.2 ⟨rfl, ha, hi, h4⟩)]
  exact readIdle_memWord hm

/-- A word write stores the four bytes of its data, the highest first, and changes no other byte. -/
theorem step_write_memWord {d : Word} (h4 : i % 4 = 0) (hb : s.bus = .write .w32 a d :: rest) :
    ∃ m, step s = .next { s.afterEvent rest with mem := m } ∧
      m.readBytes i 4 = some (wordBytes d) ∧ ∀ j, ¬ inRegion j i 4 → m.read j = s.mem.read j := by
  refine ⟨_, step_write_of_busTarget h hb (busTarget_memWord.2 ⟨rfl, ha, hi, h4⟩), ?bytes, fun j hj => ?frame⟩
  case bytes => exact Memory.readBytes_writeBytes _ _ _ _ rfl
  case frame =>
    have hout : j < i ∨ i + (wordBytes d).length ≤ j := by
      simp only [inRegion] at hj
      simp only [wordBytes, List.length_cons, List.length_nil]
      omega
    exact Memory.read_writeBytes_outside _ _ _ _ hout

end

/-- Inside the window a 16-bit access reaches nothing. -/
theorem busTarget_window_w16 {c : Config} {a : HostAddr} {i : Nat} (ha : a.toNat = 0x10000 + i) (hi : i < c.memSize) :
    busTarget c .w16 a = none := by
  rw [busTarget_mem ha hi]

/-- Inside the window a misaligned 32-bit access reaches nothing. -/
theorem busTarget_window_misaligned {c : Config} {a : HostAddr} {i : Nat} (ha : a.toNat = 0x10000 + i)
    (hi : i < c.memSize) (h4 : i % 4 ≠ 0) : busTarget c .w32 a = none := by
  rw [busTarget_mem ha hi]
  exact if_neg h4

/-- Settles O51: one of the lemmas above for each access; the accesses that reach nothing are bus errors. -/
theorem memoryWindowAccesses : Obligations.MemoryWindowAccesses := by
  unfold Obligations.MemoryWindowAccesses
  intro s a i rest h ha hi
  refine ⟨?readByte, ?writeByte, ?word, ?readHalf, ?writeHalf, ?readMisaligned, ?writeMisaligned⟩
  case readByte => exact fun b hm hb => step_read_memByte h ha hi hm hb
  case writeByte =>
    intro b hb
    have stored := step_write_memByte h ha hi hb
    rwa [extractLsb'_zeroExtend] at stored
  case word =>
    exact fun h4 => ⟨aligned_word_inside hi h4, fun b0 b1 b2 b3 hm hb => step_read_memWord h ha hi h4 hm hb,
      fun d hb => step_write_memWord h ha hi h4 hb⟩
  case readHalf => exact fun hb => (step_read_busError_iff (.inl h) hb).2 (busTarget_window_w16 ha hi)
  case writeHalf => exact fun d hb => (step_write_busError_iff (.inl h) hb).2 (busTarget_window_w16 ha hi)
  case readMisaligned => exact fun h4 hb => (step_read_busError_iff (.inl h) hb).2 (busTarget_window_misaligned ha hi h4)
  case writeMisaligned =>
    exact fun h4 d hb => (step_write_busError_iff (.inl h) hb).2 (busTarget_window_misaligned ha hi h4)

end Sys2Proof.Machine
end

section
/-! PROOF. The illegal command words and their completion (30_encoding.md R114). -/

namespace Sys2Proof

/-- The fields that decode to no command: one case for each condition of 30_encoding.md R114, tried in the rule's order. -/
theorem decodeFields_ne_ok_iff (f : CmdFields) : (∀ i, decodeFields f ≠ .ok i) ↔
    opcodeInstr f.opc f.imm16 = none ∨ f.rsv ≠ 0#8 ∨ (f.opc ≠ 0x41#8 ∧ f.imm16 ≠ 0#16) := by
  unfold decodeFields
  cases opcodeInstr f.opc f.imm16 with
  | none => simp
  | some i =>
    by_cases hrsv : f.rsv = 0#8
    · by_cases himm : f.opc ≠ 0x41#8 ∧ f.imm16 ≠ 0#16 <;> simp [hrsv, himm]
    · simp [hrsv]

/-- The same of a word, its fields read as numbers. -/
theorem decodeWord_ne_ok_iff (w : Word) : (∀ i, decodeWord w ≠ .ok i) ↔
    w.toNat % 0x100 ∉ [0x10, 0x11, 0x20, 0x21, 0x22, 0x30, 0x31, 0x32, 0x40, 0x41, 0x42, 0x43] ∨
    w.toNat / 0x100 % 0x100 ≠ 0 ∨ (w.toNat % 0x100 ≠ 0x41 ∧ w.toNat / 0x10000 ≠ 0) := by
  have fields := decodeFields_ne_ok_iff (CmdFields.ofWord w)
  rw [opcodeInstr_eq_none, ← BitVec.toNat_ne_iff_ne, ← BitVec.toNat_ne_iff_ne, ← BitVec.toNat_ne_iff_ne,
    CmdFields.ofWord_opc, CmdFields.ofWord_rsv, CmdFields.ofWord_imm16] at fields
  exact fields

end Sys2Proof

namespace Sys2Proof.Machine

/-- The step of a state whose command is due is that command's completion (10_state.md R70). -/
theorem step_of_completing {s : State} (h : s.completing) : step s = runCommand s := by
  rcases step_cases s with ⟨_, hs⟩ | ⟨hn, _⟩
  · exact hs
  · exact absurd h hn

/-- An illegal word completes with ILLEGAL_COMMAND and writes nothing else. -/
theorem runCommand_of_illegal {s : State} (h : ∀ i, decodeWord s.eng.cmd ≠ .ok i) :
    runCommand s = .next (s.finished .illegalCommand) := by
  rcases runCommand_cases s with ⟨i, hi, _⟩ | ⟨_, hr⟩
  · exact absurd hi (h i)
  · exact hr

/-- Settles O27: `decodeWord_ne_ok_iff` for the words, `runCommand_of_illegal` for the completion. -/
theorem illegalWordsAreRule114 : Obligations.IllegalWordsAreRule114 := by
  unfold Obligations.IllegalWordsAreRule114
  intro w
  refine ⟨decodeWord_ne_ok_iff w, ?completion⟩
  case completion =>
    rintro s hdue rfl hw
    exact (step_of_completing hdue).trans (runCommand_of_illegal hw)

end Sys2Proof.Machine
end

section
/-! SUPPORT. What the shared build answers on each of its paths (20_memory.md R86, R90; 40_ethernet.md R142), for every header. -/

namespace Sys2Proof.Machine

variable {s t : State} {n : Nat} {frame : List Byte → List Byte} {pay : List Byte}

/-- A build with a region outside MEM ends with REGION_RANGE and writes nothing else. -/
theorem buildFrame_of_range
    (h : s.config.memSize < s.payStart + s.paySize ∨ s.config.memSize < s.outStart + n + s.paySize) :
    buildFrame s n frame = .next (s.finished .regionRange) := by
  have notOk : ¬ s.buildOk n = true := fun hb => by rw [buildOk_iff] at hb; omega
  rw [buildFrame, if_neg notOk, raiseError_eq]

/-- A build that completes OK had both its regions inside MEM. -/
theorem regions_of_buildFrame_ok (h : buildFrame s n frame = .next t) (hok : t.err = .ok) :
    s.payStart + s.paySize ≤ s.config.memSize ∧ s.outStart + n + s.paySize ≤ s.config.memSize := by
  by_contra hc
  rw [buildFrame_of_range (by omega)] at h
  rw [← Host.Outcome.next.inj h, finished_err] at hok
  cases hok

/-- A build with both regions inside MEM and a written payload: the frame stands at OUT_OFF, OUT_LEN is its length, and nothing else
changes. -/
theorem buildFrame_of_regions (hp : s.payStart + s.paySize ≤ s.config.memSize)
    (ho : s.outStart + n + s.paySize ≤ s.config.memSize) (hpay : s.payload = some pay)
    (hlen : (frame pay).length = n + s.paySize) :
    ∃ t, buildFrame s n frame = .next t ∧
      t = State.finished { s with mem := t.mem, outLen := BitVec.ofNat 32 n + s.opnd.payLen } .ok ∧
      t.mem.readBytes s.outStart (n + s.paySize) = some (frame pay) ∧
      ∀ a, ¬ inRegion a s.outStart (n + s.paySize) → t.mem.read a = s.mem.read a := by
  have ok : s.buildOk n = true := (buildOk_iff s n).2 ⟨hp, by omega⟩
  have answer : buildFrame s n frame = .next ((s.emit (frame pay)).finished .ok) := by
    rw [buildFrame, if_pos ok, hpay, withRead_some, complete_eq]
  have outLen : (s.emit (frame pay)).outLen = BitVec.ofNat 32 n + s.opnd.payLen := by
    rw [emit_outLen, hlen, paySize_ofNat]
  refine ⟨_, answer, ?registers, ?written, fun a ha => ?outside⟩
  case registers => rw [← outLen]; rfl
  case written =>
    rw [finished_mem, emit_mem]
    exact Memory.readBytes_writeBytes _ _ _ _ hlen
  case outside =>
    rw [finished_mem, emit_mem]
    exact Memory.read_writeBytes_outside _ _ _ _ (by simp only [inRegion] at ha; omega)

end Sys2Proof.Machine
end

section
/-! PROOF. ETH_PARSE and ETH_BUILD follow their rules (40_ethernet.md R140, R142). -/

namespace Sys2Proof.Machine

/-- The header fields read where the 14 header bytes stand (30_encoding.md R118). -/
theorem readEthHeader_of_bytes {m : Memory} {o : Nat} {d0 d1 d2 d3 d4 d5 e0 e1 e2 e3 e4 e5 t0 t1 : Byte}
    (h : m.readBytes o 14 = some [d0, d1, d2, d3, d4, d5, e0, e1, e2, e3, e4, e5, t0, t1]) :
    readEthHeader m o = some
      { dst := beNat [d0, d1, d2, d3, d4, d5], src := beNat [e0, e1, e2, e3, e4, e5], etype := beNat [t0, t1] } := by
  have dst : m.readBytes o 6 = some [d0, d1, d2, d3, d4, d5] := Memory.readBytes_slice h (p := 0) (by omega)
  have src : m.readBytes (o + 6) 6 = some [e0, e1, e2, e3, e4, e5] := Memory.readBytes_slice h (by omega)
  have etype : m.readBytes (o + 12) 2 = some [t0, t1] := Memory.readBytes_slice h (by omega)
  simp [readEthHeader, Memory.readBE, dst, src, etype]

/-- ETH_PARSE of an input region outside MEM. -/
theorem execEthParse_of_range {s : State} (h : s.config.memSize < s.inStart + s.inSize) :
    execEthParse s = .next ((s.setEthValid false).finished .regionRange) := by
  rcases execEthParse_cases s with ⟨_, e⟩ | ⟨ho, _⟩ | ⟨ho, _⟩ | ⟨ho, _⟩
  · exact e
  all_goals rw [inputOk_iff] at ho; omega

/-- ETH_PARSE of an input region too short for the header. -/
theorem execEthParse_of_short {s : State} (ho : s.inStart + s.inSize ≤ s.config.memSize) (hn : s.inSize < 14) :
    execEthParse s = .next ((s.setEthValid false).finished .notEnoughBytes) := by
  rcases execEthParse_cases s with ⟨hc, _⟩ | ⟨_, _, e⟩ | ⟨_, hc, _⟩ | ⟨_, hc, _⟩
  · have := not_inputOk hc; omega
  · exact e
  all_goals omega

/-- ETH_PARSE of an input region that holds the 14 header bytes. -/
theorem execEthParse_of_bytes {s : State} (ho : s.inStart + s.inSize ≤ s.config.memSize) (hn : 14 ≤ s.inSize)
    {d0 d1 d2 d3 d4 d5 e0 e1 e2 e3 e4 e5 t0 t1 : Byte}
    (h : s.mem.readBytes s.inStart 14 = some [d0, d1, d2, d3, d4, d5, e0, e1, e2, e3, e4, e5, t0, t1]) :
    execEthParse s = .next (State.finished { s with
      eth :=
        { dstHi := d0 ++ d1, dstLo := d2 ++ d3 ++ d4 ++ d5, srcHi := e0 ++ e1, srcLo := e2 ++ e3 ++ e4 ++ e5
          etype := t0 ++ t1, poff := s.opnd.inOff + 14#32, plen := s.opnd.inLen - 14#32 }
      view := { s.view with ethValid := true } } .ok) := by
  have header := readEthHeader_of_bytes h
  obtain ⟨dstHi, dstLo⟩ := ofNat_beNat_mac d0 d1 d2 d3 d4 d5
  obtain ⟨srcHi, srcLo⟩ := ofNat_beNat_mac e0 e1 e2 e3 e4 e5
  rcases execEthParse_cases s with ⟨hc, _⟩ | ⟨_, hc, _⟩ | ⟨_, _, hc, _⟩ | ⟨_, _, x, hx, e⟩
  · have := not_inputOk hc; omega
  · omega
  · rw [header] at hc; cases hc
  · rw [header] at hx
    cases hx
    rw [e]
    simp only [State.latchEth, State.setEthValid, dstHi, dstLo, srcHi, srcLo, ofNat_beNat_two, inStart_ofNat, inSize_ofNat s 14 hn]

/-- Settles O1: each of the three answers of ETH_PARSE on its own path. -/
theorem ethParseFollowsItsRule : Obligations.EthParseFollowsItsRule := by
  unfold Obligations.EthParseFollowsItsRule
  refine ⟨rfl, fun s => ⟨?range, ?short, ?runs⟩⟩
  case range => exact execEthParse_of_range
  case short => exact execEthParse_of_short
  case runs =>
    intro ho hn _ _ _ _ _ _ _ _ _ _ _ _ _ _ h
    exact execEthParse_of_bytes ho hn h

/-- The frame ETH_BUILD writes is the header's 14 bytes longer than the payload. -/
theorem wireEth_length (r : EthRegs) (pay : List Byte) : (wireEth r pay).length = 14 + pay.length := by
  rw [← ethHeaderBytes_wire, List.length_append, ethHeaderBytes_length]

/-- ETH_BUILD is the shared build of the frame of 30_encoding.md R118. -/
theorem execEthBuild_eq (s : State) : execEthBuild s = buildFrame s 14 (wireEth s.eth) := by
  simp only [execEthBuild, ethHeaderBytes_wire]

/-- Settles O2: ETH_BUILD is the shared build, whose two answers are `buildFrame_of_range` and `buildFrame_of_regions`. -/
theorem ethBuildFollowsItsRule : Obligations.EthBuildFollowsItsRule := by
  unfold Obligations.EthBuildFollowsItsRule
  refine ⟨rfl, fun s => ?_⟩
  rw [exec, execEthBuild_eq]
  refine ⟨buildFrame_of_range, fun hp ho pay hpay => ?_⟩
  exact buildFrame_of_regions hp ho hpay (by rw [wireEth_length, payload_length hpay])

end Sys2Proof.Machine
end

section
/-! PROOF. The Ethernet round trip (40_ethernet.md R143): the parse of a region that holds a frame finds the registers the frame was made
from, and the build leaves such a region. -/

namespace Sys2Proof.Machine

/-- The input region holds the frame of 30_encoding.md R118 for these registers and this payload. -/
def State.HoldsEthFrame (s : State) (r : EthRegs) (pay : List Byte) : Prop :=
  s.inSize = 14 + pay.length ∧ s.mem.readBytes s.inStart s.inSize = some (wireEth r pay)

/-- ETH_PARSE of a frame latches the registers it was made from, and the payload's offset and length. -/
theorem execEthParse_of_frame {s : State} {r : EthRegs} {pay : List Byte}
    (ho : s.inStart + s.inSize ≤ s.config.memSize) (h : s.HoldsEthFrame r pay) :
    execEthParse s = .next (State.finished { s with
      eth := { r with poff := s.opnd.inOff + 14#32, plen := s.opnd.inLen - 14#32 }
      view := { s.view with ethValid := true } } .ok) := by
  obtain ⟨hsize, hread⟩ := h
  have header : s.mem.readBytes s.inStart 14 = some ((wireEth r pay).take 14) :=
    Memory.readBytes_slice hread (p := 0) (by omega)
  rw [execEthParse_of_bytes ho (by omega) header]
  simp only [half_join, word_join]

/-- The payload of a frame stands behind its 14 header bytes. -/
theorem readBytes_payload_of_frame {s : State} {r : EthRegs} {pay : List Byte} (h : s.HoldsEthFrame r pay) :
    s.mem.readBytes (s.inStart + 14) pay.length = some pay := by
  obtain ⟨hsize, hread⟩ := h
  rw [Memory.readBytes_slice hread (by omega)]
  simp [wireEth]

/-- Where ETH_BUILD completed OK from `s` leaving `t`, a later input region at OUT_OFF of OUT_LEN bytes that reads as in `t` lies inside MEM and
holds the frame. -/
theorem holdsEthFrame_of_build {s t u : State} {pay : List Byte} (hbuild : exec .ethBuild s = .next t) (hok : t.err = .ok)
    (hpay : s.payload = some pay) (hin : u.opnd.inOff = s.opnd.outOff) (hlen : u.opnd.inLen = t.outLen)
    (hmem : ∀ a, inRegion a s.outStart t.outLen.toNat → u.mem.read a = t.mem.read a) :
    u.inStart + u.inSize ≤ s.config.memSize ∧ t.outLen = 14#32 + s.opnd.payLen ∧ u.HoldsEthFrame s.eth pay := by
  rw [exec, execEthBuild_eq] at hbuild
  obtain ⟨hp, ho⟩ := regions_of_buildFrame_ok hbuild hok
  obtain ⟨t', hbuild', hregs, hframe, _⟩ :=
    buildFrame_of_regions hp ho hpay (frame := wireEth s.eth) (by rw [wireEth_length, payload_length hpay])
  obtain rfl : t = t' := Host.Outcome.next.inj (hbuild.symm.trans hbuild')
  have hout : t.outLen = 14#32 + s.opnd.payLen := by rw [hregs]; rfl
  have houtNat : t.outLen.toNat = 14 + s.paySize := by
    have := (memSize_bounds s.config).2
    rw [hout, ← paySize_ofNat, BitVec.toNat_ofNat]
    omega
  have hstart : u.inStart = s.outStart := by rw [State.inStart, State.outStart, hin]
  have hsize : u.inSize = 14 + s.paySize := by rw [State.inSize, hlen, houtNat]
  refine ⟨by omega, hout, by rw [hsize, payload_length hpay], ?_⟩
  rw [hstart, hsize, ← hframe]
  exact Memory.readBytes_congr _ _ _ _ fun c h1 h2 => hmem c ⟨h1, by omega⟩

/-- Settles O14: the build leaves a frame (`holdsEthFrame_of_build`), and the parse of a frame finds its registers and its payload. -/
theorem ethernetRoundTrip : Obligations.EthernetRoundTrip := by
  unfold Obligations.EthernetRoundTrip
  intro s t u pay hbuild hok hpay hconfig hin hlen hmem
  obtain ⟨hinside, hout, hframe⟩ := holdsEthFrame_of_build hbuild hok hpay hin hlen hmem
  have plen : u.opnd.inLen - 14#32 = s.opnd.payLen := by rw [hlen, hout]; bv_omega
  have poff : (s.opnd.outOff + 14#32).toNat = u.inStart + 14 := by
    have := hframe.1
    have := (memSize_bounds s.config).2
    rw [BitVec.toNat_add, ← hin, ← State.inStart, BitVec.toNat_ofNat]
    omega
  have parse := execEthParse_of_frame (hconfig ▸ hinside) hframe
  rw [plen, hin] at parse
  refine ⟨_, parse, rfl, rfl, rfl, ?payload⟩
  case payload =>
    show u.mem.readBytes (s.opnd.outOff + 14#32).toNat s.paySize = some pay
    rw [poff, ← payload_length hpay]
    exact readBytes_payload_of_frame hframe

end Sys2Proof.Machine
end

section
/-! PROOF. The units are independent (40_ethernet.md R144; 41_ipv4.md R168; 42_tcp.md R198). What the units share, the operand registers, MEM
and completion, does not touch the other units' registers; each command then adds only its own unit's. -/

namespace Sys2Proof.Machine

/-- A change of registers that the operations shared by the units neither read nor write: it keeps MEM and the operand registers, and
commutes with the writing of a frame and with completion. -/
structure Bystander (f : State → State) : Prop where
  config : ∀ s, (f s).config = s.config
  opnd : ∀ s, (f s).opnd = s.opnd
  mem : ∀ s, (f s).mem = s.mem
  emit : ∀ s frame, (f s).emit frame = f (s.emit frame)
  finished : ∀ s c, (f s).finished c = f (s.finished c)

@[simp] theorem mapNext_next (f : State → State) (s : State) : mapNext f (.next s) = .next (f s) := rfl

/-- The registers of every unit but the Ethernet unit, put in place of those a state holds. -/
theorem bystander_of_ethernet (p : Ip4Regs) (q : TcpRegs) (c : AccRegs) :
    Bystander fun t => { t with ip4 := p, tcp := q, acc := c } :=
  ⟨fun _ => rfl, fun _ => rfl, fun _ => rfl, fun _ _ => rfl, fun _ _ => rfl⟩

theorem bystander_of_ipv4 (e : EthRegs) (q : TcpRegs) (c : AccRegs) :
    Bystander fun t => { t with eth := e, tcp := q, acc := c } :=
  ⟨fun _ => rfl, fun _ => rfl, fun _ => rfl, fun _ _ => rfl, fun _ _ => rfl⟩

theorem bystander_of_tcp (e : EthRegs) (p : Ip4Regs) (c : AccRegs) :
    Bystander fun t => { t with eth := e, ip4 := p, acc := c } :=
  ⟨fun _ => rfl, fun _ => rfl, fun _ => rfl, fun _ _ => rfl, fun _ _ => rfl⟩

/-- TCP_BUILD_CSUM with what it emits named, so that no proof opens the checksum. -/
theorem execTcpBuildCsum_eq (s : State) : execTcpBuildCsum s =
    if !s.buildOk 20 then .next (s.finished .regionRange)
    else if 20 + s.paySize > 0xFFFF then .next (s.finished .segmentTooLong)
    else withRead s.payload fun pay => .next ((s.emitTcpCsum pay).finished .ok) := by
  simp only [execTcpBuildCsum, raiseError_eq, complete_eq, State.emit, State.emitTcpCsum, State.sealedSegment]

/-- The sealed segment is made of the TCP registers and the payload alone. -/
theorem emitTcpCsum_with_others (e : EthRegs) (p : Ip4Regs) (c : AccRegs) (s : State) (pay : List Byte) :
    State.emitTcpCsum { s with eth := e, ip4 := p, acc := c } pay = { s.emitTcpCsum pay with eth := e, ip4 := p, acc := c } := by
  simp only [State.emitTcpCsum, State.sealedSegment, State.outStart]

section
variable {f : State → State} (hf : Bystander f) (s : State)
include hf

theorem Bystander.inStart : (f s).inStart = s.inStart := by rw [State.inStart, hf.opnd, State.inStart]

theorem Bystander.inSize : (f s).inSize = s.inSize := by rw [State.inSize, hf.opnd, State.inSize]

theorem Bystander.paySize : (f s).paySize = s.paySize := by rw [State.paySize, hf.opnd, State.paySize]

theorem Bystander.inputOk : (f s).inputOk = s.inputOk := by
  rw [State.inputOk, hf.config, hf.inStart, hf.inSize, State.inputOk]

theorem Bystander.inputBytes : (f s).inputBytes = s.inputBytes := by
  rw [State.inputBytes, hf.mem, hf.inStart, hf.inSize, State.inputBytes]

theorem Bystander.buildOk (n : Nat) : (f s).buildOk n = s.buildOk n := by
  simp only [State.buildOk, State.payStart, State.outStart, State.paySize, hf.config, hf.opnd]

theorem Bystander.payload : (f s).payload = s.payload := by
  simp only [State.payload, State.payStart, State.paySize, hf.mem, hf.opnd]

/-- A build whose frame is the same answers alike and leaves the bystander in place. -/
theorem Bystander.buildFrame (n : Nat) (frame : List Byte → List Byte) :
    buildFrame (f s) n frame = mapNext f (buildFrame s n frame) := by
  simp only [Machine.buildFrame, mapNext_ite, mapNext_withRead, complete_eq, raiseError_eq, mapNext_next, hf.buildOk, hf.payload,
    hf.emit, hf.finished]

/-- ETH_PARSE writes only what it latches and ETH_VALID. -/
theorem Bystander.execEthParse (hv : ∀ s v, (f s).setEthValid v = f (s.setEthValid v))
    (hl : ∀ s h, (f s).latchEth h = f (s.latchEth h)) : execEthParse (f s) = mapNext f (execEthParse s) := by
  simp only [Machine.execEthParse, mapNext_ite, mapNext_withRead, complete_eq, raiseError_eq, mapNext_next, hf.inputOk, hf.inSize,
    hf.inStart, hf.mem, hl, hv, hf.finished]

/-- IP4_PARSE writes only what it latches and IP4_VALID. -/
theorem Bystander.execIp4Parse (hv : ∀ s v, (f s).setIp4Valid v = f (s.setIp4Valid v))
    (hl : ∀ s b h, (f s).latchIp4 b h = f (s.latchIp4 b h)) : execIp4Parse (f s) = mapNext f (execIp4Parse s) := by
  simp only [Machine.execIp4Parse, mapNext_ite, mapNext_withRead, complete_eq, raiseError_eq, mapNext_next, hf.inputOk, hf.inSize,
    hf.inStart, hf.mem, hl, hv, hf.finished]

/-- TCP_PARSE writes only what it latches and TCP_VALID. -/
theorem Bystander.execTcpParse (hv : ∀ s v, (f s).setTcpValid v = f (s.setTcpValid v))
    (hl : ∀ s h, (f s).latchTcp h = f (s.latchTcp h)) : execTcpParse (f s) = mapNext f (execTcpParse s) := by
  simp only [Machine.execTcpParse, mapNext_ite, mapNext_withRead, complete_eq, raiseError_eq, mapNext_next, hf.inputOk, hf.inSize,
    hf.inStart, hf.mem, hl, hv, hf.finished]

/-- IP4_CSUM writes only its result register. -/
theorem Bystander.execIp4Csum
    (hc : ∀ (s : State) (v : Half), { f s with ip4 := { (f s).ip4 with csum := v } } = f { s with ip4 := { s.ip4 with csum := v } }) :
    execIp4Csum (f s) = mapNext f (execIp4Csum s) := by
  simp only [Machine.execIp4Csum, mapNext_ite, mapNext_withRead, complete_eq, raiseError_eq, mapNext_next, hf.inputOk, hf.inputBytes,
    hc, hf.finished]

/-- TCP_BUILD_CSUM writes only its sealed segment and its result register. -/
theorem Bystander.execTcpBuildCsum (hc : ∀ s pay, (f s).emitTcpCsum pay = f (s.emitTcpCsum pay)) :
    execTcpBuildCsum (f s) = mapNext f (execTcpBuildCsum s) := by
  simp only [execTcpBuildCsum_eq, mapNext_ite, mapNext_withRead, mapNext_next, hf.buildOk, hf.paySize, hf.payload, hc, hf.finished]

end

/-- Settles O38: for each unit the others' registers are bystanders of its parse, its builds and its checksum. -/
theorem unitsAreIndependent : Obligations.UnitsAreIndependent := by
  unfold Obligations.UnitsAreIndependent
  intro s e p q c
  simp only [List.forall_mem_cons, List.not_mem_nil, false_implies, implies_true, and_true]
  refine ⟨⟨?ethParse, ?ethBuild⟩, ⟨?ip4Parse, ?ip4Build, ?ip4Csum⟩, ?tcpParse, ?tcpBuild, ?tcpBuildCsum⟩
  case ethParse => exact (bystander_of_ethernet p q c).execEthParse s (fun _ _ => rfl) (fun _ _ => rfl)
  case ethBuild => exact (bystander_of_ethernet p q c).buildFrame s 14 _
  case ip4Parse => exact (bystander_of_ipv4 e q c).execIp4Parse s (fun _ _ => rfl) (fun _ _ _ => rfl)
  case ip4Build => exact (bystander_of_ipv4 e q c).buildFrame s 20 _
  case ip4Csum => exact (bystander_of_ipv4 e q c).execIp4Csum s (fun _ _ => rfl)
  case tcpParse => exact (bystander_of_tcp e p c).execTcpParse s (fun _ _ => rfl) (fun _ _ => rfl)
  case tcpBuild => exact (bystander_of_tcp e p c).buildFrame s 20 _
  case tcpBuildCsum => exact (bystander_of_tcp e p c).execTcpBuildCsum s (emitTcpCsum_with_others e p c)

end Sys2Proof.Machine
end

section
/-! SUPPORT. Folding keeps the residue modulo 0xFFFF (00_scope.md R19; 43_checksum.md R221, law 2), so the Internet checksum is given by N. -/

namespace Sys2Proof.Machine

/-- N of a value that needs no folding is the value. -/
theorem onesResidue_of_le {x : Nat} (h : x ≤ 0xFFFF) : onesResidue x = x := by
  unfold onesResidue
  split <;> omega

/-- A round of folding takes a multiple of 0xFFFF off, and reaches 0 only from 0. -/
theorem onesResidue_foldOnce (x : Nat) : onesResidue (foldOnce x) = onesResidue x := by
  rw [foldOnce_eq]
  unfold onesResidue
  split <;> split <;> omega

theorem foldFuel_eq_onesResidue (fuel x : Nat) (h : x ≤ fuel) : foldFuel fuel x = onesResidue x := by
  induction fuel generalizing x with
  | zero =>
    obtain rfl : x = 0 := by omega
    rfl
  | succ fuel ih =>
    by_cases hx : x > 0xFFFF
    · have smaller := foldOnce_lt x hx
      rw [foldFuel, if_pos hx, ih _ (by omega), onesResidue_foldOnce]
    · rw [foldFuel, if_neg hx, onesResidue_of_le (by omega)]

theorem fold_eq_onesResidue (x : Nat) : fold x = onesResidue x := foldFuel_eq_onesResidue x x le_rfl

end Sys2Proof.Machine
end

section
/-! SUPPORT. The payload window of both parses as the registers show it (41_ipv4.md R161; 42_tcp.md R191). -/

namespace Sys2Proof.Machine

variable {s : State} {h : Nat}

/-- The window on the operand registers. -/
theorem payloadWindow_registers (s : State) (h : Nat) :
    BitVec.ofNat 32 (payloadWindow s.inStart s.inSize h).1 = s.opnd.inOff + BitVec.ofNat 32 h ∧
    BitVec.ofNat 32 (payloadWindow s.inStart s.inSize h).2.1 =
      (if h ≤ s.inSize then s.opnd.inLen - BitVec.ofNat 32 h else 0#32) ∧
    (payloadWindow s.inStart s.inSize h).2.2 = decide (s.inSize < h) := by
  rcases payloadWindow_cases s.inStart s.inSize h with ⟨hle, e⟩ | ⟨hlt, e⟩
  · rw [e, if_pos hle, inStart_ofNat, inSize_ofNat s h hle]
    exact ⟨rfl, rfl, (decide_eq_false (by omega)).symm⟩
  · rw [e, if_neg (by omega), inStart_ofNat]
    exact ⟨rfl, rfl, (decide_eq_true hlt).symm⟩

/-- The header length and the window as numbers: no register wraps, since the region is inside MEM and a header has at most 60 bytes. -/
theorem payloadWindow_toNat (ho : s.inStart + s.inSize ≤ s.config.memSize) (hh : h ≤ 60) :
    (BitVec.ofNat 6 h).toNat = h ∧
    (BitVec.ofNat 32 (payloadWindow s.inStart s.inSize h).1).toNat = s.inStart + h ∧
    (h ≤ s.inSize →
      (BitVec.ofNat 32 (payloadWindow s.inStart s.inSize h).2.1).toNat = s.inSize - h ∧
      (payloadWindow s.inStart s.inSize h).2.2 = false) ∧
    (s.inSize < h →
      (BitVec.ofNat 32 (payloadWindow s.inStart s.inSize h).2.1).toNat = 0 ∧
      (payloadWindow s.inStart s.inSize h).2.2 = true) := by
  have := (memSize_bounds s.config).2
  have hlen : (BitVec.ofNat 6 h).toNat = h := (BitVec.toNat_ofNat h 6).trans (Nat.mod_eq_of_lt (by omega))
  have kept (x : Nat) (hx : x ≤ 65596) : (BitVec.ofNat 32 x).toNat = x :=
    (BitVec.toNat_ofNat x 32).trans (Nat.mod_eq_of_lt (by omega))
  rcases payloadWindow_cases s.inStart s.inSize h with ⟨hle, e⟩ | ⟨hlt, e⟩ <;> rw [e]
  · exact ⟨hlen, kept _ (by omega), fun _ => ⟨kept (s.inSize - h) (by omega), rfl⟩, fun _ => by omega⟩
  · exact ⟨hlen, kept _ (by omega), fun _ => by omega, fun _ => ⟨rfl, rfl⟩⟩

/-- The header length IP4_PARSE decodes is at most 60, and so is TCP_PARSE's. -/
theorem ip4HeaderLen_le (b0 : Byte) : ip4HeaderLen b0 ≤ 60 := by
  rw [ip4HeaderLen_eq]
  omega

theorem tcpHeaderLen_le (b12 : Byte) : tcpHeaderLen b12 ≤ 60 := by
  have := b12.isLt
  rw [tcpHeaderLen_eq]
  omega

end Sys2Proof.Machine
end

section
/-! SUPPORT. The header fields IP4_PARSE and TCP_PARSE have read (41_ipv4.md R160; 42_tcp.md R190), and what either parse answers once its
checks have passed. -/

namespace Sys2Proof.Machine

variable {s : State} {m : Memory} {o : Nat} {b0 : Byte}

/-- A value read from `n` bytes is below 256^n. -/
theorem Memory.readBE_lt {m : Memory} {a n v : Nat} (h : m.readBE a n = some v) : v < 256 ^ n := by
  obtain ⟨bs, hbs, rfl⟩ := Option.map_eq_some_iff.1 h
  have len := ((Memory.readBytes_eq_some _ _ _ _).1 hbs).1
  exact len ▸ beNat_lt bs

/-- A 32-bit register holds a value read from four bytes whole. -/
theorem toNat_of_readBE_four {m : Memory} {a v : Nat} (h : m.readBE a 4 = some v) : (BitVec.ofNat 32 v).toNat = v :=
  (BitVec.toNat_ofNat v 32).trans (Nat.mod_eq_of_lt (Memory.readBE_lt h))

/-- The value of one byte is that byte. -/
theorem Memory.readBE_one (m : Memory) (a : Nat) : m.readBE a 1 = (m.read a).map BitVec.toNat := by
  cases h : m.read a <;> simp [Memory.readBE, Memory.readBytes, h, beNat_one]

theorem readIp4Header_eq_some {h : Ip4Header} :
    readIp4Header m o = some h ↔
      m.readBE (o + 9) 1 = some h.proto ∧ m.readBE (o + 12) 4 = some h.src ∧ m.readBE (o + 16) 4 = some h.dst := by
  obtain ⟨p, a, c⟩ := h
  unfold readIp4Header
  cases m.readBE (o + 9) 1 <;> cases m.readBE (o + 12) 4 <;> cases m.readBE (o + 16) 4 <;> simp

/-- Byte 12 of a TCP header that has been read. -/
theorem read_of_readTcpHeader {h : TcpHeader} (hr : readTcpHeader m o = some h) : m.read (o + 12) = some h.b12 := by
  unfold readTcpHeader at hr
  split at hr
  · next h12 _ _ => rw [← Option.some.inj hr]; exact h12
  · cases hr

/-- IP4_PARSE past its first two checks: byte 0 decides between UNSUPPORTED_VERSION and the read of the fields. -/
theorem execIp4Parse_of_byte0 (ho : s.inStart + s.inSize ≤ s.config.memSize) (hn : 20 ≤ s.inSize)
    (hb : s.mem.read s.inStart = some b0) :
    execIp4Parse s =
      if b0.toNat / 16 = 4 then
        withRead (readIp4Header s.mem s.inStart) fun h => .next (((s.latchIp4 b0 h).setIp4Valid true).finished .ok)
      else .next ((s.setIp4Valid false).finished .unsupportedVersion) := by
  rcases execIp4Parse_cases s with ⟨hc, _⟩ | ⟨_, hc, _⟩ | ⟨_, _, hc, _⟩ | ⟨_, _, b, hc, answers⟩
  · have := not_inputOk hc; omega
  · omega
  · rw [hb] at hc; cases hc
  · obtain rfl : b0 = b := Option.some.inj (hb.symm.trans hc)
    rw [ip4Version_eq_four] at answers
    rcases answers with ⟨hv, e⟩ | ⟨hv, hr, e⟩ | ⟨hv, h, hr, e⟩
    · rw [e, if_neg (mt (ip4Version_eq_four b0).2 hv)]
    · rw [e, if_pos hv, hr, withRead_none]
    · rw [e, if_pos hv, hr, withRead_some]

/-- TCP_PARSE past its two checks. -/
theorem execTcpParse_of_size (ho : s.inStart + s.inSize ≤ s.config.memSize) (hn : 20 ≤ s.inSize) :
    execTcpParse s = withRead (readTcpHeader s.mem s.inStart) fun h =>
      .next (((s.latchTcp h).setTcpValid true).finished .ok) := by
  rcases execTcpParse_cases s with ⟨hc, _⟩ | ⟨_, hc, _⟩ | ⟨_, _, hr, e⟩ | ⟨_, _, h, hr, e⟩
  · have := not_inputOk hc; omega
  · omega
  · rw [e, hr, withRead_none]
  · rw [e, hr, withRead_some]

end Sys2Proof.Machine
end

section
/-! PROOF. IP4_PARSE, IP4_BUILD and IP4_CSUM follow their rules (41_ipv4.md R160, R163, R165). -/

namespace Sys2Proof.Machine

variable {s : State}

/-- The fields read where bytes 9 and 12 to 19 of the header stand (30_encoding.md R119). -/
theorem readIp4Header_of_bytes {m : Memory} {o : Nat} {p a0 a1 a2 a3 c0 c1 c2 c3 : Byte} (hp : m.read (o + 9) = some p)
    (h : m.readBytes (o + 12) 8 = some [a0, a1, a2, a3, c0, c1, c2, c3]) :
    readIp4Header m o = some { proto := p.toNat, src := beNat [a0, a1, a2, a3], dst := beNat [c0, c1, c2, c3] } := by
  have src : m.readBytes (o + 12) 4 = some [a0, a1, a2, a3] := Memory.readBytes_slice h (p := 0) (by omega)
  have dst : m.readBytes (o + 16) 4 = some [c0, c1, c2, c3] := Memory.readBytes_slice h (p := 4) (by omega)
  rw [readIp4Header_eq_some, Memory.readBE_one]
  simp [Memory.readBE, hp, src, dst]

/-- IP4_PARSE of an input region outside MEM. -/
theorem execIp4Parse_of_range (h : s.config.memSize < s.inStart + s.inSize) :
    execIp4Parse s = .next ((s.setIp4Valid false).finished .regionRange) := by
  rcases execIp4Parse_cases s with ⟨_, e⟩ | ⟨ho, _⟩ | ⟨ho, _⟩ | ⟨ho, _⟩
  · exact e
  all_goals rw [inputOk_iff] at ho; omega

/-- IP4_PARSE of an input region too short for the header. -/
theorem execIp4Parse_of_short (ho : s.inStart + s.inSize ≤ s.config.memSize) (hn : s.inSize < 20) :
    execIp4Parse s = .next ((s.setIp4Valid false).finished .notEnoughBytes) := by
  rcases execIp4Parse_cases s with ⟨hc, _⟩ | ⟨_, _, e⟩ | ⟨_, hc, _⟩ | ⟨_, hc, _⟩
  · have := not_inputOk hc; omega
  · exact e
  all_goals omega

/-- IP4_PARSE of an input region that holds the bytes it reads. -/
theorem execIp4Parse_of_bytes {b0 p a0 a1 a2 a3 c0 c1 c2 c3 : Byte} (ho : s.inStart + s.inSize ≤ s.config.memSize)
    (hn : 20 ≤ s.inSize) (hb : s.mem.read s.inStart = some b0) (hv : b0.toNat / 16 = 4) (hp : s.mem.read (s.inStart + 9) = some p)
    (haddr : s.mem.readBytes (s.inStart + 12) 8 = some [a0, a1, a2, a3, c0, c1, c2, c3]) :
    execIp4Parse s = .next (State.finished { s with
      ip4 :=
        { s.ip4 with
          proto := p, src := a0 ++ a1 ++ a2 ++ a3, dst := c0 ++ c1 ++ c2 ++ c3
          hlen := BitVec.ofNat 6 (4 * (b0.toNat % 16))
          poff := s.opnd.inOff + BitVec.ofNat 32 (4 * (b0.toNat % 16))
          plen := if 4 * (b0.toNat % 16) ≤ s.inSize then s.opnd.inLen - BitVec.ofNat 32 (4 * (b0.toNat % 16)) else 0#32 }
      view := { s.view with ip4Valid := true, ip4Poor := decide (s.inSize < 4 * (b0.toNat % 16)) } } .ok) := by
  obtain ⟨poff, plen, poor⟩ := payloadWindow_registers s (4 * (b0.toNat % 16))
  rw [execIp4Parse_of_byte0 ho hn hb, if_pos hv, readIp4Header_of_bytes hp haddr, withRead_some]
  simp only [State.latchIp4, State.setIp4Valid, ip4HeaderLen_eq, poff, plen, poor, ofNat_beNat_four, BitVec.ofNat_toNat,
    BitVec.setWidth_eq]

/-- Settles O3: each of the four answers of IP4_PARSE on its own path. -/
theorem ip4ParseFollowsItsRule : Obligations.Ip4ParseFollowsItsRule := by
  unfold Obligations.Ip4ParseFollowsItsRule
  refine ⟨rfl, fun s => ⟨?range, ?short, fun ho hn b0 hb => ⟨?version, ?runs⟩⟩⟩
  case range => exact execIp4Parse_of_range
  case short => exact execIp4Parse_of_short
  case version => exact fun hv => (execIp4Parse_of_byte0 ho hn hb).trans (if_neg hv)
  case runs =>
    intro hv _ _ _ _ _ _ _ _ _ hp haddr
    exact execIp4Parse_of_bytes ho hn hb hv hp haddr

/-- The packet IP4_BUILD writes is the header's 20 bytes longer than the payload. -/
theorem wireIp4_length (r : Ip4Regs) (pay : List Byte) : (wireIp4 r pay).length = 20 + pay.length := by
  rw [← ip4HeaderBytes_wire, List.length_append, ip4HeaderBytes_length]

/-- IP4_BUILD is the shared build of the packet of 30_encoding.md R119. -/
theorem execIp4Build_eq (s : State) : execIp4Build s = buildFrame s 20 (wireIp4 s.ip4) := by
  simp only [execIp4Build, ip4HeaderBytes_wire]

/-- Settles O4: IP4_BUILD is the shared build, whose two answers are `buildFrame_of_range` and `buildFrame_of_regions`. -/
theorem ip4BuildFollowsItsRule : Obligations.Ip4BuildFollowsItsRule := by
  unfold Obligations.Ip4BuildFollowsItsRule
  refine ⟨rfl, fun s => ?_⟩
  rw [exec, execIp4Build_eq]
  refine ⟨buildFrame_of_range, fun hp ho pay hpay => ?_⟩
  exact buildFrame_of_regions hp ho hpay (by rw [wireIp4_length, payload_length hpay])

/-- The Internet checksum by N instead of by folding (43_checksum.md R221, R222). -/
theorem inetChecksum_eq_onesResidue (bs : List Byte) :
    inetChecksum bs = ~~~(BitVec.ofNat 16 (onesResidue (sumWords (words bs)))) := by
  rw [inetChecksum, fold_eq_onesResidue]

/-- Settles O5: the two answers of IP4_CSUM, the checksum rewritten by `inetChecksum_eq_onesResidue`. -/
theorem ip4CsumFollowsItsRule : Obligations.Ip4CsumFollowsItsRule := by
  unfold Obligations.Ip4CsumFollowsItsRule
  refine ⟨rfl, fun s => ⟨fun hrange => ?range, fun ho bs hbs => ?runs⟩⟩
  case range =>
    rcases execIp4Csum_cases s with ⟨_, e⟩ | ⟨hc, _⟩ | ⟨hc, _⟩
    · exact e
    all_goals rw [inputOk_iff] at hc; omega
  case runs =>
    rcases execIp4Csum_cases s with ⟨hc, _⟩ | ⟨_, hc, _⟩ | ⟨_, bs', hbs', e⟩
    · have := not_inputOk hc; omega
    · rw [State.inputBytes, hbs] at hc; cases hc
    · obtain rfl : bs = bs' := Option.some.inj (hbs.symm.trans hbs')
      rw [exec, e, inetChecksum_eq_onesResidue]

end Sys2Proof.Machine
end

section
/-! PROOF. The payload windows of both parses (41_ipv4.md R161; 42_tcp.md R191), and the IHL that is decoded and not validated
(41_ipv4.md R162). -/

namespace Sys2Proof.Machine

variable {s t : State} {b0 : Byte}

/-- A next state of IP4_PARSE past its checks: byte 0 and the fields that were read have been latched. -/
theorem execIp4Parse_next (h : exec .ip4Parse s = .next t) (ho : s.inStart + s.inSize ≤ s.config.memSize) (hn : 20 ≤ s.inSize)
    (hb : s.mem.read s.inStart = some b0) (hv : b0.toNat / 16 = 4) :
    ∃ hdr, readIp4Header s.mem s.inStart = some hdr ∧ t = ((s.latchIp4 b0 hdr).setIp4Valid true).finished .ok := by
  rw [exec, execIp4Parse_of_byte0 ho hn hb, if_pos hv] at h
  obtain ⟨hdr, hread, e⟩ := withRead_next h
  exact ⟨hdr, hread, (Host.Outcome.next.inj e).symm⟩

/-- The same of TCP_PARSE. -/
theorem execTcpParse_next (h : exec .tcpParse s = .next t) (ho : s.inStart + s.inSize ≤ s.config.memSize) (hn : 20 ≤ s.inSize) :
    ∃ hdr, readTcpHeader s.mem s.inStart = some hdr ∧ t = ((s.latchTcp hdr).setTcpValid true).finished .ok := by
  rw [exec, execTcpParse_of_size ho hn] at h
  obtain ⟨hdr, hread, e⟩ := withRead_next h
  exact ⟨hdr, hread, (Host.Outcome.next.inj e).symm⟩

/-- Settles O12: both parses latch the window of the length they decoded, which `payloadWindow_toNat` gives. -/
theorem payloadWindowsFollowTheirRule : Obligations.PayloadWindowsFollowTheirRule := by
  unfold Obligations.PayloadWindowsFollowTheirRule
  refine ⟨?ip4, ?tcp⟩
  case ip4 =>
    intro s t b0 h hexec ho hn hb hv hlen
    obtain ⟨hdr, _, rfl⟩ := execIp4Parse_next hexec ho hn hb hv
    obtain rfl : h = ip4HeaderLen b0 := by rw [hlen, ip4HeaderLen_eq]
    exact ⟨rfl, payloadWindow_toNat ho (ip4HeaderLen_le b0)⟩
  case tcp =>
    intro s t b12 h hexec ho hn hb hlen
    obtain ⟨hdr, hread, rfl⟩ := execTcpParse_next hexec ho hn
    obtain rfl : b12 = hdr.b12 := Option.some.inj (hb.symm.trans (read_of_readTcpHeader hread))
    obtain rfl : h = tcpHeaderLen hdr.b12 := by rw [hlen, tcpHeaderLen_eq]
    exact ⟨rfl, payloadWindow_toNat ho (tcpHeaderLen_le hdr.b12)⟩

/-- The protocol and the two addresses IP4_PARSE latches are those at their fixed offsets, whatever the header length. -/
theorem latchIp4_fields {hdr : Ip4Header} (h : readIp4Header s.mem s.inStart = some hdr) (b0 : Byte) :
    s.mem.read (s.inStart + 9) = some (s.latchIp4 b0 hdr).ip4.proto ∧
    s.mem.readBE (s.inStart + 12) 4 = some (s.latchIp4 b0 hdr).ip4.src.toNat ∧
    s.mem.readBE (s.inStart + 16) 4 = some (s.latchIp4 b0 hdr).ip4.dst.toNat := by
  obtain ⟨proto, src, dst⟩ := readIp4Header_eq_some.1 h
  rw [latchIp4_ip4]
  refine ⟨?proto, ?src, ?dst⟩
  case proto =>
    rw [Memory.readBE_one] at proto
    obtain ⟨p, hp, hnat⟩ := Option.map_eq_some_iff.1 proto
    rw [hp, ← hnat, BitVec.ofNat_toNat, BitVec.setWidth_eq]
  case src => rw [toNat_of_readBE_four src, src]
  case dst => rw [toNat_of_readBE_four dst, dst]

/-- Settles O11: the window is that of O12, and a header length below 20 is below IN_LEN, so the window ends at the region's end. -/
theorem ihlIsDecodedNotValidated : Obligations.IhlIsDecodedNotValidated := by
  unfold Obligations.IhlIsDecodedNotValidated
  intro s t b0 ho hn hb hv hexec
  obtain ⟨hok, hlen, hpoff, hwhole, -⟩ := payloadWindowsFollowTheirRule.1 s t b0 _ hexec ho hn hb hv rfl
  obtain ⟨hdr, hread, ht⟩ := execIp4Parse_next hexec ho hn hb hv
  refine ⟨hok, hlen, fun h5 => ?below5, fun h0 => ?zero, ?fields⟩
  case below5 =>
    have hplen := (hwhole (by omega)).1
    omega
  case zero =>
    have hplen := (hwhole (by omega)).1
    exact ⟨BitVec.eq_of_toNat_eq (by rw [hpoff, h0]; rfl), BitVec.eq_of_toNat_eq (by rw [hplen, h0]; rfl)⟩
  case fields =>
    rw [ht]
    exact latchIp4_fields hread b0

end Sys2Proof.Machine
end

section
/-! SUPPORT. What a build leaves for a later parse of its output region (40_ethernet.md R143; 41_ipv4.md R164; 42_tcp.md R197). -/

namespace Sys2Proof.Machine

/-- Where a build of an `n`-byte header completed OK from `s` leaving `t`, a later input region at OUT_OFF of OUT_LEN bytes is the output
region, which lies inside MEM and holds the frame in `t`. -/
theorem outputRegion_of_buildFrame {s t u : State} {n : Nat} {frame : List Byte → List Byte}
    (hframe : ∀ pay, (frame pay).length = n + pay.length) (hbuild : buildFrame s n frame = .next t) (hok : t.err = .ok)
    (hin : u.opnd.inOff = s.opnd.outOff) (hlen : u.opnd.inLen = t.outLen) :
    u.inStart = s.outStart ∧ u.inSize = n + s.paySize ∧ s.outStart + (n + s.paySize) ≤ s.config.memSize ∧
    t.outLen = BitVec.ofNat 32 n + s.opnd.payLen ∧
    ∃ pay, s.payload = some pay ∧ t.mem.readBytes s.outStart (n + s.paySize) = some (frame pay) := by
  obtain ⟨hp, ho⟩ := regions_of_buildFrame_ok hbuild hok
  obtain ⟨pay, hpay⟩ : ∃ pay, s.payload = some pay := by
    rcases buildFrame_cases s n frame with ⟨hc, _⟩ | ⟨_, _, e⟩ | ⟨_, pay, hpay, _⟩
    · have := not_buildOk hc; omega
    · rw [e] at hbuild; cases hbuild
    · exact ⟨pay, hpay⟩
  obtain ⟨t', hbuild', hregs, hread, _⟩ :=
    buildFrame_of_regions (n := n) (frame := frame) hp ho hpay (by rw [hframe, payload_length hpay])
  obtain rfl : t = t' := Host.Outcome.next.inj (hbuild.symm.trans hbuild')
  have hout : t.outLen = BitVec.ofNat 32 n + s.opnd.payLen := by rw [hregs]; rfl
  have houtNat : t.outLen.toNat = n + s.paySize := by
    have := (memSize_bounds s.config).2
    rw [hout, ← paySize_ofNat, BitVec.toNat_ofNat]
    omega
  exact ⟨by rw [State.inStart, State.outStart, hin], by rw [State.inSize, hlen, houtNat], by omega, hout, pay, hpay, hread⟩

end Sys2Proof.Machine
end

section
/-! PROOF. The IPv4 round trip (41_ipv4.md R164): a build leaves a header whose bytes 10 and 11 no parse reads, and the parse of a header
finds the registers it was made from. -/

namespace Sys2Proof.Machine

/-- The bytes IP4_PARSE reads are those of the header of 30_encoding.md R119 for these registers; bytes 10 and 11 may be any. -/
structure State.HoldsIp4Header (s : State) (r : Ip4Regs) : Prop where
  size : 20 ≤ s.inSize
  version : s.mem.read s.inStart = some 0x45#8
  proto : s.mem.read (s.inStart + 9) = some r.proto
  addresses : s.mem.readBytes (s.inStart + 12) 8 = some
    [r.src.extractLsb' 24 8, r.src.extractLsb' 16 8, r.src.extractLsb' 8 8, r.src.extractLsb' 0 8,
     r.dst.extractLsb' 24 8, r.dst.extractLsb' 16 8, r.dst.extractLsb' 8 8, r.dst.extractLsb' 0 8]

/-- IP4_PARSE of a header latches the registers it was made from, with a header length of 20 and what is behind it as payload. -/
theorem execIp4Parse_of_header {s : State} {r : Ip4Regs} (ho : s.inStart + s.inSize ≤ s.config.memSize)
    (h : s.HoldsIp4Header r) :
    execIp4Parse s = .next (State.finished { s with
      ip4 := { r with hlen := 20#6, poff := s.opnd.inOff + 20#32, plen := s.opnd.inLen - 20#32, csum := s.ip4.csum }
      view := { s.view with ip4Valid := true, ip4Poor := false } } .ok) := by
  have hlen : 4 * ((0x45#8).toNat % 16) = 20 := by decide
  have whole : decide (s.inSize < 20) = false := decide_eq_false (by have := h.size; omega)
  rw [execIp4Parse_of_bytes ho h.size h.version (by decide) h.proto h.addresses]
  simp only [hlen, whole, if_pos h.size, word_join]

/-- A packet read whole holds its header, and so does a region that differs from it in bytes 10 and 11 only. -/
theorem holdsIp4Header_of_packet {s : State} {r : Ip4Regs} {m : Memory} {pay : List Byte} (hsize : 20 ≤ s.inSize)
    (hread : m.readBytes s.inStart s.inSize = some (wireIp4 r pay))
    (hsame : ∀ k, k < s.inSize → k ≠ 10 → k ≠ 11 → s.mem.read (s.inStart + k) = m.read (s.inStart + k)) :
    s.HoldsIp4Header r where
  size := hsize
  version := (hsame 0 (by omega) (by omega) (by omega)).trans (Memory.read_of_readBytes hread (p := 0) (by omega))
  proto := (hsame 9 (by omega) (by omega) (by omega)).trans (Memory.read_of_readBytes hread (by omega))
  addresses := by
    have same : s.mem.readBytes (s.inStart + 12) 8 = m.readBytes (s.inStart + 12) 8 :=
      Memory.readBytes_congr _ _ _ _ fun c h1 h2 => by
        obtain ⟨k, rfl⟩ : ∃ k, c = s.inStart + k := ⟨c - s.inStart, by omega⟩
        exact hsame k (by omega) (by omega) (by omega)
    exact same.trans (Memory.readBytes_slice hread (by omega))

/-- Settles O15: the build leaves a packet (`outputRegion_of_buildFrame`), the later region still holds its header, and the parse of a
header finds its registers. -/
theorem ipv4RoundTrip : Obligations.Ipv4RoundTrip := by
  unfold Obligations.Ipv4RoundTrip
  intro s t u hbuild hok hconfig hin hlen hmem
  rw [exec, execIp4Build_eq] at hbuild
  obtain ⟨hstart, hsize, hinside, hout, pay, -, hread⟩ := outputRegion_of_buildFrame
    (wireIp4_length s.ip4) hbuild hok hin hlen
  have houtNat : t.outLen.toNat = u.inSize := by rw [State.inSize, hlen]
  rw [← hstart, ← hsize] at hread hinside
  rw [← hstart, houtNat] at hmem
  have header : u.HoldsIp4Header s.ip4 := holdsIp4Header_of_packet (by omega) hread
    fun k hk h10 h11 => hmem _ ⟨by omega, by omega⟩ (by omega) (by omega)
  have plen : u.opnd.inLen - 20#32 = s.opnd.payLen := by rw [hlen, hout]; bv_omega
  have parse := execIp4Parse_of_header (hconfig ▸ hinside) header
  rw [plen, hin] at parse
  exact ⟨_, parse, rfl, rfl, rfl⟩

end Sys2Proof.Machine
end

section
/-! PROOF. TCP_PARSE follows its rule (42_tcp.md R190), and its flags are bits of byte 13 (R192). -/

namespace Sys2Proof.Machine

variable {s : State}

/-- The header fields read where bytes 0 to 15 of the header stand (30_encoding.md R120). -/
theorem readTcpHeader_of_bytes {m : Memory} {o : Nat} {p0 p1 d0 d1 q0 q1 q2 q3 k0 k1 k2 k3 b12 b13 w0 w1 : Byte}
    (h : m.readBytes o 16 = some [p0, p1, d0, d1, q0, q1, q2, q3, k0, k1, k2, k3, b12, b13, w0, w1]) :
    readTcpHeader m o = some
      { sport := beNat [p0, p1], dport := beNat [d0, d1], seq := beNat [q0, q1, q2, q3], ack := beNat [k0, k1, k2, k3]
        b12 := b12, b13 := b13, win := beNat [w0, w1] } := by
  have sport : m.readBytes o 2 = some [p0, p1] := Memory.readBytes_slice h (p := 0) (by omega)
  have dport : m.readBytes (o + 2) 2 = some [d0, d1] := Memory.readBytes_slice h (by omega)
  have seq : m.readBytes (o + 4) 4 = some [q0, q1, q2, q3] := Memory.readBytes_slice h (by omega)
  have ack : m.readBytes (o + 8) 4 = some [k0, k1, k2, k3] := Memory.readBytes_slice h (by omega)
  have byte12 : m.read (o + 12) = some b12 := Memory.read_of_readBytes h (by omega)
  have byte13 : m.read (o + 13) = some b13 := Memory.read_of_readBytes h (by omega)
  have win : m.readBytes (o + 14) 2 = some [w0, w1] := Memory.readBytes_slice h (by omega)
  simp [readTcpHeader, Memory.readBE, sport, dport, seq, ack, byte12, byte13, win]

/-- TCP_PARSE of an input region outside MEM. -/
theorem execTcpParse_of_range (h : s.config.memSize < s.inStart + s.inSize) :
    execTcpParse s = .next ((s.setTcpValid false).finished .regionRange) := by
  rcases execTcpParse_cases s with ⟨_, e⟩ | ⟨ho, _⟩ | ⟨ho, _⟩ | ⟨ho, _⟩
  · exact e
  all_goals rw [inputOk_iff] at ho; omega

/-- TCP_PARSE of an input region too short for the header. -/
theorem execTcpParse_of_short (ho : s.inStart + s.inSize ≤ s.config.memSize) (hn : s.inSize < 20) :
    execTcpParse s = .next ((s.setTcpValid false).finished .notEnoughBytes) := by
  rcases execTcpParse_cases s with ⟨hc, _⟩ | ⟨_, _, e⟩ | ⟨_, hc, _⟩ | ⟨_, hc, _⟩
  · have := not_inputOk hc; omega
  · exact e
  all_goals omega

/-- TCP_PARSE of an input region that holds bytes 0 to 15 of a header. -/
theorem execTcpParse_of_bytes (ho : s.inStart + s.inSize ≤ s.config.memSize) (hn : 20 ≤ s.inSize)
    {p0 p1 d0 d1 q0 q1 q2 q3 k0 k1 k2 k3 b12 b13 w0 w1 : Byte}
    (h : s.mem.readBytes s.inStart 16 = some [p0, p1, d0, d1, q0, q1, q2, q3, k0, k1, k2, k3, b12, b13, w0, w1]) :
    execTcpParse s = .next (State.finished { s with
      tcp :=
        { s.tcp with
          sport := p0 ++ p1, dport := d0 ++ d1, seq := q0 ++ q1 ++ q2 ++ q3, ack := k0 ++ k1 ++ k2 ++ k3
          flags := TcpFlags.ofByte b13, win := w0 ++ w1
          hlen := BitVec.ofNat 6 (4 * (b12.toNat / 16))
          poff := s.opnd.inOff + BitVec.ofNat 32 (4 * (b12.toNat / 16))
          plen := if 4 * (b12.toNat / 16) ≤ s.inSize then s.opnd.inLen - BitVec.ofNat 32 (4 * (b12.toNat / 16)) else 0#32 }
      view := { s.view with tcpValid := true, tcpPoor := decide (s.inSize < 4 * (b12.toNat / 16)) } } .ok) := by
  obtain ⟨poff, plen, poor⟩ := payloadWindow_registers s (4 * (b12.toNat / 16))
  rw [execTcpParse_of_size ho hn, readTcpHeader_of_bytes h, withRead_some]
  simp only [State.latchTcp, State.setTcpValid, tcpHeaderLen_eq, poff, plen, poor, ofNat_beNat_two, ofNat_beNat_four]

/-- Settles O6: each of the three answers of TCP_PARSE on its own path. -/
theorem tcpParseFollowsItsRule : Obligations.TcpParseFollowsItsRule := by
  unfold Obligations.TcpParseFollowsItsRule
  refine ⟨rfl, fun s => ⟨?range, ?short, ?runs⟩⟩
  case range => exact execTcpParse_of_range
  case short => exact execTcpParse_of_short
  case runs =>
    intro ho hn _ _ _ _ _ _ _ _ _ _ _ _ _ _ _ _ h
    exact execTcpParse_of_bytes ho hn h

/-- Byte 13 of a TCP header that has been read. -/
theorem read13_of_readTcpHeader {m : Memory} {o : Nat} {h : TcpHeader} (hr : readTcpHeader m o = some h) :
    m.read (o + 13) = some h.b13 := by
  unfold readTcpHeader at hr
  split at hr
  · next h13 _ => rw [← Option.some.inj hr]; exact h13
  · cases hr

/-- A TCP_PARSE that completes OK has read a header and latched its fields. -/
theorem execTcpParse_ok {t : State} (h : exec .tcpParse s = .next t) (hok : t.err = .ok) :
    ∃ hdr, readTcpHeader s.mem s.inStart = some hdr ∧ t = ((s.latchTcp hdr).setTcpValid true).finished .ok := by
  rw [exec] at h
  rcases execTcpParse_cases s with ⟨_, e⟩ | ⟨_, _, e⟩ | ⟨_, _, _, e⟩ | ⟨_, _, hdr, hread, e⟩ <;> rw [e] at h
  · rw [← Host.Outcome.next.inj h] at hok; cases hok
  · rw [← Host.Outcome.next.inj h] at hok; cases hok
  · cases h
  · exact ⟨hdr, hread, (Host.Outcome.next.inj h).symm⟩

/-- A mask of one bit sees exactly that bit. -/
theorem getLsbD_iff_and_twoPow {w : Nat} (b : BitVec w) {i : Nat} (hi : i < w) :
    b.getLsbD i = true ↔ b &&& BitVec.twoPow w i ≠ 0#w := by
  have one : BitVec.twoPow w i ≠ 0#w := fun h => by
    have bit := congrArg (·.getLsbD i) h
    simp [hi] at bit
  rw [BitVec.and_twoPow]
  by_cases hb : b.getLsbD i = true <;> simp [hb, one]

/-- TCP_FLAGS shows of a byte 13 its bits 0, 1, 2 and 4 (10_state.md R53). -/
theorem toByte_ofByte (b : Byte) : (TcpFlags.ofByte b).toByte = b &&& 0x17#8 := by
  revert b
  decide

/-- Settles O13: byte 13 of the header that was read is the one the flags were latched from. -/
theorem tcpFlagsAreBitsOfByte13 : Obligations.TcpFlagsAreBitsOfByte13 := by
  unfold Obligations.TcpFlagsAreBitsOfByte13
  intro s t b13 hexec hok hb
  obtain ⟨hdr, hread, rfl⟩ := execTcpParse_ok hexec hok
  obtain rfl : b13 = hdr.b13 := Option.some.inj (hb.symm.trans (read13_of_readTcpHeader hread))
  refine ⟨?register, ?fin, ?syn, ?rst, ?ack⟩
  case register => exact congrArg (BitVec.zeroExtend 32) (toByte_ofByte hdr.b13)
  case fin => exact getLsbD_iff_and_twoPow hdr.b13 (by decide : 0 < 8)
  case syn => exact getLsbD_iff_and_twoPow hdr.b13 (by decide : 1 < 8)
  case rst => exact getLsbD_iff_and_twoPow hdr.b13 (by decide : 2 < 8)
  case ack => exact getLsbD_iff_and_twoPow hdr.b13 (by decide : 4 < 8)

end Sys2Proof.Machine
end

section
/-! PROOF. TCP_BUILD and TCP_BUILD_CSUM follow their rules (42_tcp.md R193, R195). TCP_BUILD_CSUM is the shared build of the segment that
carries its checksum, followed by the write of TCP_CSUM. -/

namespace Sys2Proof.Machine

variable {s t : State} {pay : List Byte}

/-- The segment TCP_BUILD writes is the header's 20 bytes longer than the payload. -/
theorem wireTcp_length (r : TcpRegs) (c : Half) (pay : List Byte) : (wireTcp r c pay).length = 20 + pay.length := by
  rw [← insertTcpChecksum_wire, insertTcpChecksum, List.length_set, List.length_set, tcpSegment_length]

/-- TCP_BUILD is the shared build of the segment of 30_encoding.md R120 with a zero checksum field. -/
theorem execTcpBuild_eq (s : State) : execTcpBuild s = buildFrame s 20 (wireTcp s.tcp 0#16) := by
  simp only [execTcpBuild, tcpSegment_wire]

/-- Settles O7: TCP_BUILD is the shared build, whose two answers are `buildFrame_of_range` and `buildFrame_of_regions`. -/
theorem tcpBuildFollowsItsRule : Obligations.TcpBuildFollowsItsRule := by
  unfold Obligations.TcpBuildFollowsItsRule
  refine ⟨rfl, fun s => ?_⟩
  rw [exec, execTcpBuild_eq]
  refine ⟨buildFrame_of_range, fun hp ho pay hpay => ?_⟩
  exact buildFrame_of_regions hp ho hpay (by rw [wireTcp_length, payload_length hpay])

/-- The checksum over the pseudo-header and the segment with a zero checksum field (42_tcp.md R195), each byte written out. -/
def State.segmentChecksum (s : State) (pay : List Byte) : Half :=
  inetChecksum (wirePseudo s.tcp.phSrc s.tcp.phDst (BitVec.ofNat 16 (20 + s.paySize)) ++ wireTcp s.tcp 0#16 pay)

/-- It is the checksum TCP_BUILD_CSUM computes. -/
theorem tcpChecksum_eq_segmentChecksum (hpay : s.payload = some pay) :
    tcpChecksum s.tcp (tcpSegment s.tcp pay) = s.segmentChecksum pay := by
  rw [tcpChecksum, tcpSegment_length, payload_length hpay, pseudoHeader_wire, tcpSegment_wire, State.segmentChecksum]

/-- The segment TCP_BUILD_CSUM writes is the wire segment with that checksum. -/
theorem sealedSegment_wire (hpay : s.payload = some pay) :
    s.sealedSegment pay = wireTcp s.tcp (s.segmentChecksum pay) pay := by
  rw [State.sealedSegment, tcpChecksum_eq_segmentChecksum hpay, insertTcpChecksum_wire]

/-- Write TCP_CSUM. -/
def State.setTcpCsum (s : State) (c : Half) : State := { s with tcp := { s.tcp with csum := c } }

@[simp] theorem setTcpCsum_mem (c : Half) : (s.setTcpCsum c).mem = s.mem := rfl

/-- What TCP_BUILD_CSUM leaves is what the shared build of the sealed segment leaves, with TCP_CSUM written. -/
theorem emitTcpCsum_eq (hpay : s.payload = some pay) :
    (s.emitTcpCsum pay).finished .ok = ((s.emit (s.sealedSegment pay)).finished .ok).setTcpCsum (s.segmentChecksum pay) := by
  rw [State.emitTcpCsum, tcpChecksum_eq_segmentChecksum hpay]
  generalize s.sealedSegment pay = seg, s.segmentChecksum pay = c
  rfl

/-- TCP_BUILD_CSUM with a region outside MEM. -/
theorem execTcpBuildCsum_of_range
    (h : s.config.memSize < s.payStart + s.paySize ∨ s.config.memSize < s.outStart + 20 + s.paySize) :
    execTcpBuildCsum s = .next (s.finished .regionRange) := by
  rcases execTcpBuildCsum_cases s with ⟨_, e⟩ | ⟨hb, _⟩ | ⟨hb, _⟩ | ⟨hb, _⟩
  · exact e
  all_goals rw [buildOk_iff] at hb; omega

/-- TCP_BUILD_CSUM of a segment longer than a 16-bit length can say. -/
theorem execTcpBuildCsum_of_long (hp : s.payStart + s.paySize ≤ s.config.memSize)
    (ho : s.outStart + 20 + s.paySize ≤ s.config.memSize) (hn : 0xFFFF < 20 + s.paySize) :
    execTcpBuildCsum s = .next (s.finished .segmentTooLong) := by
  rcases execTcpBuildCsum_cases s with ⟨hb, _⟩ | ⟨_, _, e⟩ | ⟨_, hc, _⟩ | ⟨_, hc, _⟩
  · have := not_buildOk hb; omega
  · exact e
  all_goals omega

/-- Past its checks TCP_BUILD_CSUM is the shared build of the sealed segment, followed by the write of TCP_CSUM. -/
theorem execTcpBuildCsum_eq_buildFrame (hb : s.buildOk 20 = true) (hn : 20 + s.paySize ≤ 0xFFFF) (hpay : s.payload = some pay) :
    ∃ t, buildFrame s 20 s.sealedSegment = .next t ∧ t.err = .ok ∧
      execTcpBuildCsum s = .next (t.setTcpCsum (s.segmentChecksum pay)) := by
  have build : buildFrame s 20 s.sealedSegment = .next ((s.emit (s.sealedSegment pay)).finished .ok) := by
    rw [buildFrame, if_pos hb, hpay, withRead_some, complete_eq]
  refine ⟨_, build, finished_err _ _, ?_⟩
  rw [execTcpBuildCsum_eq, hb, if_neg (by simp), if_neg (by omega), hpay, withRead_some, emitTcpCsum_eq hpay]

/-- A TCP_BUILD_CSUM that completes OK had passed its checks and its payload had been written. -/
theorem checks_of_execTcpBuildCsum_ok (h : execTcpBuildCsum s = .next t) (hok : t.err = .ok) :
    s.buildOk 20 = true ∧ 20 + s.paySize ≤ 0xFFFF ∧ ∃ pay, s.payload = some pay := by
  rcases execTcpBuildCsum_cases s with ⟨_, e⟩ | ⟨_, _, e⟩ | ⟨_, _, _, e⟩ | ⟨hb, hn, pay, hpay, _⟩
  · rw [e] at h; rw [← Host.Outcome.next.inj h] at hok; cases hok
  · rw [e] at h; rw [← Host.Outcome.next.inj h] at hok; cases hok
  · rw [e] at h; cases h
  · exact ⟨hb, hn, pay, hpay⟩

/-- TCP_BUILD_CSUM with both regions inside MEM, a written payload and a segment that is not too long. -/
theorem execTcpBuildCsum_of_regions (hp : s.payStart + s.paySize ≤ s.config.memSize)
    (ho : s.outStart + 20 + s.paySize ≤ s.config.memSize) (hn : 20 + s.paySize ≤ 0xFFFF) (hpay : s.payload = some pay) :
    ∃ t, execTcpBuildCsum s = .next t ∧
      t = State.finished { s with
        mem := t.mem, outLen := 20#32 + s.opnd.payLen, tcp := { s.tcp with csum := s.segmentChecksum pay } } .ok ∧
      t.mem.readBytes s.outStart (20 + s.paySize) = some (wireTcp s.tcp (s.segmentChecksum pay) pay) ∧
      ∀ a, ¬ inRegion a s.outStart (20 + s.paySize) → t.mem.read a = s.mem.read a := by
  obtain ⟨t, hbuild, -, answer⟩ := execTcpBuildCsum_eq_buildFrame ((buildOk_iff s 20).2 ⟨hp, by omega⟩) hn hpay
  obtain ⟨t', hbuild', hregs, hread, hout⟩ := buildFrame_of_regions (frame := s.sealedSegment) hp ho hpay
    (by rw [sealedSegment_length, payload_length hpay])
  obtain rfl : t = t' := Host.Outcome.next.inj (hbuild.symm.trans hbuild')
  rw [sealedSegment_wire hpay] at hread
  refine ⟨_, answer, ?registers, hread, hout⟩
  case registers =>
    rw [setTcpCsum_mem]
    conv_lhs => rw [hregs]
    rfl

/-- Settles O8: each of the three answers of TCP_BUILD_CSUM on its own path. -/
theorem tcpBuildCsumFollowsItsRule : Obligations.TcpBuildCsumFollowsItsRule := by
  unfold Obligations.TcpBuildCsumFollowsItsRule
  refine ⟨rfl, fun s => ⟨?range, fun hp ho => ⟨fun hn => ⟨?largest, ?long⟩, fun hn pay hpay => ?runs⟩⟩⟩
  case range => exact execTcpBuildCsum_of_range
  case largest =>
    have := (memSize_bounds s.config).2
    omega
  case long => exact execTcpBuildCsum_of_long hp ho hn
  case runs =>
    obtain ⟨t, answer, hregs, hread, hout⟩ := execTcpBuildCsum_of_regions hp ho hn hpay
    exact ⟨t, s.segmentChecksum pay, rfl, answer, hregs, hread, hout⟩

end Sys2Proof.Machine
end

section
/-! PROOF. The TCP round trip (42_tcp.md R197): either build leaves a segment, and the parse of a segment finds the registers it was made
from, whatever the checksum. -/

namespace Sys2Proof.Machine

/-- The input region holds a segment of 30_encoding.md R120 for these registers; the checksum and the payload may be any. -/
def State.HoldsTcpSegment (s : State) (r : TcpRegs) : Prop :=
  20 ≤ s.inSize ∧ ∃ c pay, s.mem.readBytes s.inStart s.inSize = some (wireTcp r c pay)

/-- The flags stored from the flags byte of a built segment are those it was made from. -/
theorem ofByte_wireFlags (f : TcpFlags) : TcpFlags.ofByte (wireFlags f) = f := by
  obtain ⟨fin, syn, rst, ack⟩ := f
  revert fin syn rst ack
  decide

/-- TCP_PARSE of a segment latches the registers it was made from, with a header length of 20 and what is behind it as payload. -/
theorem execTcpParse_of_segment {s : State} {r : TcpRegs} (ho : s.inStart + s.inSize ≤ s.config.memSize)
    (h : s.HoldsTcpSegment r) :
    execTcpParse s = .next (State.finished { s with
      tcp :=
        { r with
          hlen := 20#6, poff := s.opnd.inOff + 20#32, plen := s.opnd.inLen - 20#32
          phSrc := s.tcp.phSrc, phDst := s.tcp.phDst, csum := s.tcp.csum }
      view := { s.view with tcpValid := true, tcpPoor := false } } .ok) := by
  obtain ⟨hn, c, pay, hread⟩ := h
  have header : s.mem.readBytes s.inStart 16 = some ((wireTcp r c pay).take 16) :=
    Memory.readBytes_slice hread (p := 0) (by omega)
  have hlen : 4 * ((0x50#8).toNat / 16) = 20 := by decide
  have whole : decide (s.inSize < 20) = false := decide_eq_false (by omega)
  rw [execTcpParse_of_bytes ho hn header]
  simp only [hlen, whole, if_pos hn, half_join, word_join, ofByte_wireFlags]

/-- Where TCP_BUILD or TCP_BUILD_CSUM completed OK from `s` leaving `t`, a later input region at OUT_OFF of OUT_LEN bytes is the output
region, which lies inside MEM and holds a segment in `t`. -/
theorem outputRegion_of_tcpBuild {i : Instr} {s t u : State} (hi : i = .tcpBuild ∨ i = .tcpBuildCsum) (hbuild : exec i s = .next t)
    (hok : t.err = .ok) (hin : u.opnd.inOff = s.opnd.outOff) (hlen : u.opnd.inLen = t.outLen) :
    u.inStart = s.outStart ∧ u.inSize = 20 + s.paySize ∧ s.outStart + (20 + s.paySize) ≤ s.config.memSize ∧
    t.outLen = 20#32 + s.opnd.payLen ∧ ∃ c pay, t.mem.readBytes s.outStart (20 + s.paySize) = some (wireTcp s.tcp c pay) := by
  rcases hi with rfl | rfl
  · rw [exec, execTcpBuild_eq] at hbuild
    obtain ⟨hstart, hsize, hinside, hout, pay, -, hread⟩ :=
      outputRegion_of_buildFrame (wireTcp_length s.tcp 0#16) hbuild hok hin hlen
    exact ⟨hstart, hsize, hinside, hout, _, pay, hread⟩
  · rw [exec] at hbuild
    obtain ⟨hb, hn, _, hpay⟩ := checks_of_execTcpBuildCsum_ok hbuild hok
    obtain ⟨t', hbuild', hok', answer⟩ := execTcpBuildCsum_eq_buildFrame hb hn hpay
    obtain rfl : t = t'.setTcpCsum _ := Host.Outcome.next.inj (hbuild.symm.trans answer)
    obtain ⟨hstart, hsize, hinside, hout, pay, hpay', hread⟩ :=
      outputRegion_of_buildFrame (sealedSegment_length s) hbuild' hok' hin hlen
    exact ⟨hstart, hsize, hinside, hout, _, pay, sealedSegment_wire hpay' ▸ hread⟩

/-- Settles O16: either build leaves a segment (`outputRegion_of_tcpBuild`), which the later region still holds, and the parse of a segment
finds its registers. -/
theorem tcpRoundTrip : Obligations.TcpRoundTrip := by
  unfold Obligations.TcpRoundTrip
  intro i s t u hi hbuild hok hconfig hin hlen hmem
  obtain ⟨hstart, hsize, hinside, hout, c, pay, hread⟩ := outputRegion_of_tcpBuild hi hbuild hok hin hlen
  have houtNat : t.outLen.toNat = u.inSize := by rw [State.inSize, hlen]
  rw [← hstart, ← hsize] at hread hinside
  rw [← hstart, houtNat] at hmem
  have same : u.mem.readBytes u.inStart u.inSize = t.mem.readBytes u.inStart u.inSize :=
    Memory.readBytes_congr _ _ _ _ fun a h1 h2 => hmem a ⟨h1, h2⟩
  have segment : u.HoldsTcpSegment s.tcp := ⟨by omega, c, pay, same.trans hread⟩
  have plen : u.opnd.inLen - 20#32 = s.opnd.payLen := by rw [hlen, hout]; bv_omega
  have parse := execTcpParse_of_segment (hconfig ▸ hinside) segment
  rw [plen, hin] at parse
  exact ⟨_, parse, rfl, rfl, rfl⟩

end Sys2Proof.Machine
end

section
/-! SUPPORT. A checksum put in place of two zero bytes makes the whole sum to 0xFFFF (43_checksum.md R221, law 6; R227, law 2). -/

namespace Sys2Proof.Machine

/-- The complement of N of a sum, added to the sum, gives a positive multiple of 0xFFFF. -/
theorem onesResidue_add_complement (x : Nat) :
    onesResidue (x + (~~~(BitVec.ofNat 16 (onesResidue x))).toNat) = 0xFFFF := by
  have small : onesResidue x ≤ 0xFFFF := by unfold onesResidue; split <;> omega
  have complement : (~~~(BitVec.ofNat 16 (onesResidue x))).toNat = 0xFFFF - onesResidue x := by
    rw [BitVec.toNat_not, BitVec.toNat_ofNat, Nat.mod_eq_of_lt (by omega)]
  rw [complement]
  unfold onesResidue
  split <;> split <;> omega

/-- Words of the bytes with a 16-bit value standing at an even place. -/
theorem sumWords_of_half {pre : List Byte} (post : List Byte) (c : Half) (heven : pre.length % 2 = 0) :
    sumWords (words (pre ++ [c.extractLsb' 8 8, c.extractLsb' 0 8] ++ post)) =
      sumWords (words pre) + c.toNat + sumWords (words post) := by
  rw [words_append _ post (by simp; omega), words_append pre _ heven]
  simp [half_join, Nat.add_assoc]

/-- Bytes with their checksum in place of two zero bytes at an even place fold to 0xFFFF. -/
theorem fold_of_inserted_checksum {pre : List Byte} (post : List Byte) (heven : pre.length % 2 = 0) {c : Half}
    (hc : c = inetChecksum (pre ++ [0x00#8, 0x00#8] ++ post)) :
    fold (sumWords (words (pre ++ [c.extractLsb' 8 8, c.extractLsb' 0 8] ++ post))) = 0xFFFF := by
  have zero := sumWords_of_half post 0#16 heven
  rw [BitVec.toNat_ofNat, Nat.zero_mod, Nat.add_zero] at zero
  have checksum : c = ~~~(BitVec.ofNat 16 (onesResidue (sumWords (words pre) + sumWords (words post)))) := by
    rw [hc, inetChecksum_eq_onesResidue, ← zero]
    rfl
  rw [fold_eq_onesResidue, sumWords_of_half post c heven, Nat.add_right_comm, checksum]
  exact onesResidue_add_complement _

/-- Bytes that fold to 0xFFFF have checksum 0. -/
theorem inetChecksum_of_fold {bs : List Byte} (h : fold (sumWords (words bs)) = 0xFFFF) : inetChecksum bs = 0x0000#16 := by
  rw [inetChecksum, h]
  rfl

end Sys2Proof.Machine
end

section
/-! PROOF. A segment built with its checksum verifies with its pseudo-header (42_tcp.md R196). -/

namespace Sys2Proof.Machine

/-- The bytes in front of the checksum of a segment with its pseudo-header. -/
def checksumPrefix (r : TcpRegs) (len : Half) : List Byte := wirePseudo r.phSrc r.phDst len ++ (wireTcp r 0#16 []).take 16

theorem checksumPrefix_length (r : TcpRegs) (len : Half) : (checksumPrefix r len).length = 28 := rfl

/-- The checksum of a segment stands behind the 12 bytes of the pseudo-header and the first 16 of the segment. -/
theorem wirePseudo_append_wireTcp (r : TcpRegs) (len c : Half) (pay : List Byte) :
    wirePseudo r.phSrc r.phDst len ++ wireTcp r c pay =
      checksumPrefix r len ++ [c.extractLsb' 8 8, c.extractLsb' 0 8] ++ ([0x00#8, 0x00#8] ++ pay) := rfl

/-- The segment with its checksum and its pseudo-header fold to 0xFFFF: the checksum stands at an even place. -/
theorem fold_of_sealedSegment (s : State) (pay : List Byte) :
    fold (sumWords (words (wirePseudo s.tcp.phSrc s.tcp.phDst (BitVec.ofNat 16 (20 + s.paySize)) ++
      wireTcp s.tcp (s.segmentChecksum pay) pay))) = 0xFFFF := by
  rw [wirePseudo_append_wireTcp]
  refine fold_of_inserted_checksum _ (by rw [checksumPrefix_length]) ?checksum
  case checksum =>
    rw [State.segmentChecksum, wirePseudo_append_wireTcp]
    rfl

/-- Settles O22: the output region holds the sealed segment, which folds to 0xFFFF with its pseudo-header. -/
theorem builtSegmentVerifies : Obligations.BuiltSegmentVerifies := by
  unfold Obligations.BuiltSegmentVerifies
  intro s t hexec hok
  rw [exec] at hexec
  obtain ⟨hb, hn, pay, hpay⟩ := checks_of_execTcpBuildCsum_ok hexec hok
  obtain ⟨hp, ho⟩ := (buildOk_iff s 20).1 hb
  obtain ⟨t', answer, hregs, hread, -⟩ := execTcpBuildCsum_of_regions hp (by omega) hn hpay
  obtain rfl : t = t' := Host.Outcome.next.inj (hexec.symm.trans answer)
  have hout : t.outLen.toNat = 20 + s.paySize := by
    have outLen : t.outLen = 20#32 + s.opnd.payLen := by rw [hregs]; rfl
    rw [outLen, ← paySize_ofNat, BitVec.toNat_ofNat]
    omega
  have sums := fold_of_sealedSegment s pay
  rw [hout, pseudoHeader_wire]
  exact ⟨_, hread, sums, inetChecksum_of_fold sums⟩

end Sys2Proof.Machine
end

section
/-! SUPPORT. Ones-complement addition is addition followed by N (43_checksum.md R221, laws 1 and 4), so its laws are those of addition. -/

namespace Sys2Proof.Machine

/-- N is 0 for 0 alone. -/
theorem onesResidue_eq_zero {x : Nat} : onesResidue x = 0 ↔ x = 0 := by
  unfold onesResidue
  split <;> omega

/-- N of a part of a sum may be taken before the rest is added. -/
theorem onesResidue_add_left (x y : Nat) : onesResidue (onesResidue x + y) = onesResidue (x + y) := by
  unfold onesResidue
  split <;> split <;> split <;> omega

/-- `a +' b` is N of the sum: the end-around carry takes 0xFFFF off a sum above 0xFFFF. -/
theorem onesAdd_eq_onesResidue (a b : Half) : (onesAdd a b).toNat = onesResidue (a.toNat + b.toNat) := by
  have := a.isLt; have := b.isLt
  rw [onesAdd_toNat]
  unfold onesResidue
  split <;> split <;> omega

theorem onesAdd_comm (a b : Half) : onesAdd a b = onesAdd b a := by
  apply BitVec.eq_of_toNat_eq
  rw [onesAdd_eq_onesResidue, onesAdd_eq_onesResidue, Nat.add_comm]

theorem onesAdd_assoc (a b c : Half) : onesAdd (onesAdd a b) c = onesAdd a (onesAdd b c) := by
  apply BitVec.eq_of_toNat_eq
  rw [onesAdd_comm a (onesAdd b c)]
  simp only [onesAdd_eq_onesResidue, onesResidue_add_left]
  rw [Nat.add_comm _ a.toNat, Nat.add_assoc]

theorem zero_onesAdd (a : Half) : onesAdd 0#16 a = a := by
  have := a.isLt
  apply BitVec.eq_of_toNat_eq
  rw [onesAdd_eq_onesResidue, BitVec.toNat_ofNat, Nat.zero_mod, Nat.zero_add, onesResidue_of_le (by omega)]

theorem onesAdd_not (a : Half) : onesAdd a (~~~a) = 0xFFFF#16 := by
  have whole : a.toNat + (~~~a).toNat = 0xFFFF := by
    have := a.isLt
    rw [BitVec.toNat_not]
    omega
  apply BitVec.eq_of_toNat_eq
  rw [onesAdd_eq_onesResidue, whole, onesResidue_of_le le_rfl]
  rfl

/-- Adding words one after another is adding their plain sum and taking N once. -/
theorem foldl_onesAdd_toNat (a : Half) (ws : List Half) :
    (ws.foldl onesAdd a).toNat = onesResidue (a.toNat + sumWords ws) := by
  induction ws generalizing a with
  | nil =>
    have := a.isLt
    rw [List.foldl_nil, sumWords_nil, Nat.add_zero, onesResidue_of_le (by omega)]
  | cons w ws ih =>
    rw [List.foldl_cons, ih, onesAdd_eq_onesResidue, onesResidue_add_left, sumWords_cons, Nat.add_assoc]

/-- From 0, that is folding their plain sum. -/
theorem foldl_onesAdd_zero_toNat (ws : List Half) : (ws.foldl onesAdd 0#16).toNat = fold (sumWords ws) := by
  rw [foldl_onesAdd_toNat, fold_eq_onesResidue, BitVec.toNat_ofNat, Nat.zero_mod, Nat.zero_add]

theorem sumWords_eq_zero_iff (ws : List Half) : sumWords ws = 0 ↔ ∀ w ∈ ws, w = 0#16 := by
  induction ws with
  | nil => simp
  | cons w ws ih =>
    rw [sumWords_cons, Nat.add_eq_zero_iff, ih, List.forall_mem_cons, ← BitVec.toNat_inj, BitVec.toNat_zero]

/-- A sum of words is 0 only where nothing but zeros was added: N is 0 for 0 alone. -/
theorem foldl_onesAdd_eq_zero_iff (a : Half) (ws : List Half) :
    ws.foldl onesAdd a = 0#16 ↔ a = 0#16 ∧ ∀ w ∈ ws, w = 0#16 := by
  rw [← BitVec.toNat_inj, foldl_onesAdd_toNat, BitVec.toNat_zero, onesResidue_eq_zero, Nat.add_eq_zero_iff,
    sumWords_eq_zero_iff, ← BitVec.toNat_inj (x := a), BitVec.toNat_zero]

end Sys2Proof.Machine
end

section
/-! PROOF. The checksum arithmetic: the ones-complement laws, word formation and the two forms of the Internet checksum (43_checksum.md R220,
R221, R222). -/

namespace Sys2Proof.Machine

/-- Settles O17: each law from `+'` being N of the sum. -/
theorem onesComplementLaws : Obligations.OnesComplementLaws := by
  unfold Obligations.OnesComplementLaws
  refine ⟨onesAdd_eq_onesResidue, fold_eq_onesResidue, fun a b c => ⟨?comm, ?assoc, ?zero⟩, fun a ws => ⟨?sum, ?sumFromZero⟩,
    foldl_onesAdd_eq_zero_iff, onesAdd_not⟩
  case comm => exact onesAdd_comm a b
  case assoc => exact onesAdd_assoc a b c
  case zero => exact zero_onesAdd a
  case sum => exact foldl_onesAdd_toNat a ws
  case sumFromZero => exact foldl_onesAdd_zero_toNat ws

theorem words_length (bs : List Byte) : (words bs).length = (bs.length + 1) / 2 := by
  induction bs using words.induct with
  | case1 => rfl
  | case2 b => simp
  | case3 hi lo bs ih =>
    rw [words_cons_cons, List.length_cons, ih, List.length_cons, List.length_cons]
    omega

/-- Word i is made of bytes 2i and 2i + 1. -/
theorem words_getElem?_of_pair (bs : List Byte) (i : Nat) (h l : Byte) (hh : bs[2 * i]? = some h) (hl : bs[2 * i + 1]? = some l) :
    (words bs)[i]? = some (h ++ l) := by
  induction bs using words.induct generalizing i with
  | case1 => simp at hh
  | case2 b => simp at hl
  | case3 hi lo bs ih =>
    cases i with
    | zero =>
      obtain rfl : hi = h := by simpa using hh
      obtain rfl : lo = l := by simpa using hl
      rfl
    | succ i => exact ih i hh hl

/-- A byte 2i that is the last one is the high half of word i. -/
theorem words_getElem?_of_last (bs : List Byte) (i : Nat) (h : Byte) (hh : bs[2 * i]? = some h) (hl : bs[2 * i + 1]? = none) :
    (words bs)[i]? = some (h ++ 0x00#8) := by
  induction bs using words.induct generalizing i with
  | case1 => simp at hh
  | case2 b =>
    obtain ⟨rfl, rfl⟩ : i = 0 ∧ b = h := by simpa [List.getElem?_singleton] using hh
    rfl
  | case3 hi lo bs ih =>
    cases i with
    | zero => simp at hl
    | succ i => exact ih i hh hl

/-- An odd sequence is read as if a zero byte followed it. -/
theorem words_append_zero (bs : List Byte) (hodd : bs.length % 2 = 1) : words bs = words (bs ++ [0x00#8]) := by
  induction bs using words.induct with
  | case1 => simp at hodd
  | case2 b => rfl
  | case3 hi lo bs ih =>
    rw [List.length_cons, List.length_cons] at hodd
    rw [List.cons_append, List.cons_append, words_cons_cons, words_cons_cons, ih (by omega)]

/-- Settles O18, by the recursion of `words` over pairs of bytes. -/
theorem wordsAreBigEndianPairs : Obligations.WordsAreBigEndianPairs := by
  unfold Obligations.WordsAreBigEndianPairs
  intro bs
  exact ⟨words_length bs, words_getElem?_of_pair bs, words_getElem?_of_last bs, words_append_zero bs⟩

/-- The Internet checksum accumulated word by word. -/
theorem inetChecksum_eq_foldl (bs : List Byte) : inetChecksum bs = ~~~((words bs).foldl onesAdd 0#16) := by
  rw [inetChecksum, ← foldl_onesAdd_zero_toNat, BitVec.ofNat_toNat, BitVec.setWidth_eq]

/-- Settles O19: the complement of the words added one after another, whose value `foldl_onesAdd_zero_toNat` gives. -/
theorem internetChecksumForms : Obligations.InternetChecksumForms := by
  unfold Obligations.InternetChecksumForms
  refine ⟨inetChecksum_eq_foldl, fun bs => ?folded, ?empty⟩
  case folded => rw [inetChecksum_eq_foldl, BitVec.toNat_not, foldl_onesAdd_zero_toNat]
  case empty => rw [inetChecksum_eq_foldl, words_nil, List.foldl_nil]; rfl

end Sys2Proof.Machine
end

section
/-! PROOF. CSUM_CLR, CSUM_ADDI, CSUM_FIN and CSUM_ADDMEM follow their rules (43_checksum.md R223 to R226). -/

namespace Sys2Proof.Machine

/-- `a +' b` in 16 bits: the sum, and 1 more where it carries out of bit 15. -/
theorem onesAdd_eq_add_carry (a b : Half) :
    onesAdd a b = a + b + (if 0x10000 ≤ a.toNat + b.toNat then 1#16 else 0#16) := by
  have := a.isLt; have := b.isLt
  apply BitVec.eq_of_toNat_eq
  rw [onesAdd_toNat, BitVec.toNat_add, BitVec.toNat_add]
  split <;> simp only [BitVec.toNat_ofNat] <;> omega

/-- Settles O9: each command's answer, the carry and the complement rewritten as arithmetic. -/
theorem accumulatorCommandsFollowTheirRules : Obligations.AccumulatorCommandsFollowTheirRules := by
  unfold Obligations.AccumulatorCommandsFollowTheirRules
  refine ⟨rfl, rfl, fun k s => ⟨rfl, ?clr, ?addi, ?fin⟩⟩
  case clr => rw [exec, execCsumClr, complete_eq, State.setAcc]
  case addi => rw [exec, execCsumAddi, complete_eq, State.setAcc, onesAdd_eq_add_carry]
  case fin =>
    have complement : 0xFFFF#16 - s.acc.acc = ~~~s.acc.acc := BitVec.allOnes_sub_eq_not _
    rw [exec, execCsumFin, complete_eq, State.setRes, complement]

/-- What adding words leaves in the accumulator, by N. -/
theorem accumulate_eq_onesResidue (a : Half) (ws : List Half) :
    accumulate a ws = BitVec.ofNat 16 (onesResidue (a.toNat + sumWords ws)) := by
  rw [accumulate, ← foldl_onesAdd_toNat, BitVec.ofNat_toNat, BitVec.setWidth_eq]

/-- CSUM_ADDMEM of an input region outside MEM. -/
theorem execCsumAddmem_of_range {s : State} (h : s.config.memSize < s.inStart + s.inSize) :
    execCsumAddmem s = .next (s.finished .regionRange) := by
  rcases execCsumAddmem_cases s with ⟨_, e⟩ | ⟨ho, _⟩ | ⟨ho, _⟩
  · exact e
  all_goals rw [inputOk_iff] at ho; omega

/-- CSUM_ADDMEM of an input region inside MEM whose bytes are written. -/
theorem execCsumAddmem_of_bytes {s : State} {bs : List Byte} (ho : s.inStart + s.inSize ≤ s.config.memSize)
    (h : s.inputBytes = some bs) :
    execCsumAddmem s = .next ((s.setAcc (accumulate s.acc.acc (words bs))).finished .ok) := by
  rcases execCsumAddmem_cases s with ⟨hc, _⟩ | ⟨_, hc, _⟩ | ⟨_, bs', h', e⟩
  · have := not_inputOk hc; omega
  · rw [h] at hc; cases hc
  · obtain rfl : bs = bs' := Option.some.inj (h.symm.trans h')
    exact e

/-- Settles O10: the two answers of CSUM_ADDMEM, the accumulator rewritten by `accumulate_eq_onesResidue`. -/
theorem csumAddmemFollowsItsRule : Obligations.CsumAddmemFollowsItsRule := by
  unfold Obligations.CsumAddmemFollowsItsRule
  refine ⟨rfl, fun s => ⟨?range, fun ho bs hbs => ?runs⟩⟩
  case range => exact execCsumAddmem_of_range
  case runs => rw [exec, execCsumAddmem_of_bytes ho hbs, State.setAcc, accumulate_eq_onesResidue]

end Sys2Proof.Machine
end

section
/-! PROOF. The three checksum engines are independent (43_checksum.md R228): what each leaves, and that the other engines' result registers
are bystanders of its commands. -/

namespace Sys2Proof.Machine

variable {s t : State}

/-- IP4_CSUM leaves its result register and the result code. -/
theorem execIp4Csum_frame (h : exec .ip4Csum s = .next t) :
    ∃ c e, t = State.finished { s with ip4 := { s.ip4 with csum := c } } e := by
  rw [exec] at h
  rcases execIp4Csum_cases s with ⟨_, e⟩ | ⟨_, _, e⟩ | ⟨_, bs, _, e⟩ <;> rw [e] at h
  · exact ⟨s.ip4.csum, _, (Host.Outcome.next.inj h).symm⟩
  · cases h
  · exact ⟨inetChecksum bs, _, (Host.Outcome.next.inj h).symm⟩

/-- TCP_BUILD_CSUM leaves its result register, OUT_LEN, MEM and the result code. -/
theorem execTcpBuildCsum_frame (h : exec .tcpBuildCsum s = .next t) :
    ∃ c n m e, t = State.finished { s with tcp := { s.tcp with csum := c }, outLen := n, mem := m } e := by
  rw [exec] at h
  rcases execTcpBuildCsum_cases s with ⟨_, e⟩ | ⟨_, _, e⟩ | ⟨_, _, _, e⟩ | ⟨_, _, pay, _, e⟩ <;> rw [e] at h
  · exact ⟨s.tcp.csum, s.outLen, s.mem, _, (Host.Outcome.next.inj h).symm⟩
  · exact ⟨s.tcp.csum, s.outLen, s.mem, _, (Host.Outcome.next.inj h).symm⟩
  · cases h
  · rw [State.emitTcpCsum] at h
    exact ⟨_, _, _, _, (Host.Outcome.next.inj h).symm⟩

section
variable {i : Instr} (hi : i = .csumClr ∨ (∃ k, i = .csumAddi k) ∨ i = .csumAddmem ∨ i = .csumFin)
include hi

/-- An accumulator command leaves the accumulator's registers and the result code. -/
theorem exec_accumulator_frame (h : exec i s = .next t) : ∃ a e, t = State.finished { s with acc := a } e := by
  rcases hi with rfl | ⟨k, rfl⟩ | rfl | rfl
  · exact ⟨_, _, (Host.Outcome.next.inj h).symm⟩
  · exact ⟨_, _, (Host.Outcome.next.inj h).symm⟩
  · rw [exec] at h
    rcases execCsumAddmem_cases s with ⟨_, e⟩ | ⟨_, _, e⟩ | ⟨_, bs, _, e⟩ <;> rw [e] at h
    · exact ⟨s.acc, _, (Host.Outcome.next.inj h).symm⟩
    · cases h
    · exact ⟨_, _, (Host.Outcome.next.inj h).symm⟩
  · exact ⟨_, _, (Host.Outcome.next.inj h).symm⟩

/-- The accumulator commands write only CSUM_ACC and CSUM_RES, and read no register of another unit. -/
theorem Bystander.exec_accumulator {f : State → State} (hf : Bystander f) (s : State) (hacc : ∀ s, (f s).acc = s.acc)
    (ha : ∀ s a, (f s).setAcc a = f (s.setAcc a)) (hr : ∀ s r, (f s).setRes r = f (s.setRes r)) :
    exec i (f s) = mapNext f (exec i s) := by
  rcases hi with rfl | ⟨k, rfl⟩ | rfl | rfl
  · simp only [exec, execCsumClr, complete_eq, mapNext_next, ha, hf.finished]
  · simp only [exec, execCsumAddi, complete_eq, mapNext_next, hacc, ha, hf.finished]
  · simp only [exec, execCsumAddmem, mapNext_ite, mapNext_withRead, complete_eq, raiseError_eq, mapNext_next, hf.inputOk,
      hf.inputBytes, hacc, ha, hf.finished]
  · simp only [exec, execCsumFin, complete_eq, mapNext_next, hacc, hr, hf.finished]

end

/-- The result registers of the other two engines, put in place of those a state holds: what IP4_CSUM leaves alone. -/
theorem bystander_of_ip4Csum (y : Half) (c : AccRegs) : Bystander fun t => { t with tcp := { t.tcp with csum := y }, acc := c } :=
  ⟨fun _ => rfl, fun _ => rfl, fun _ => rfl, fun _ _ => rfl, fun _ _ => rfl⟩

theorem bystander_of_tcpBuildCsum (x : Half) (c : AccRegs) : Bystander fun t => { t with ip4 := { t.ip4 with csum := x }, acc := c } :=
  ⟨fun _ => rfl, fun _ => rfl, fun _ => rfl, fun _ _ => rfl, fun _ _ => rfl⟩

theorem bystander_of_accumulator (x y : Half) :
    Bystander fun t => { t with ip4 := { t.ip4 with csum := x }, tcp := { t.tcp with csum := y } } :=
  ⟨fun _ => rfl, fun _ => rfl, fun _ => rfl, fun _ _ => rfl, fun _ _ => rfl⟩

/-- The sealed segment is made without IP4_CSUM and the accumulator. -/
theorem emitTcpCsum_with_results (x : Half) (c : AccRegs) (s : State) (pay : List Byte) :
    State.emitTcpCsum { s with ip4 := { s.ip4 with csum := x }, acc := c } pay =
      { s.emitTcpCsum pay with ip4 := { (s.emitTcpCsum pay).ip4 with csum := x }, acc := c } := by
  simp only [State.emitTcpCsum, State.sealedSegment, State.outStart]

/-- Settles O39: the frame of each engine's commands, and for each engine the others' result registers as bystanders. -/
theorem checksumEnginesAreIndependent : Obligations.ChecksumEnginesAreIndependent := by
  unfold Obligations.ChecksumEnginesAreIndependent
  refine ⟨fun s t h => ?ip4Frame, fun s t h => ?tcpFrame, fun i s t hi h => ?accFrame,
    fun s x y c => ⟨?ip4Alike, ?tcpAlike, fun i hi => ?accAlike⟩⟩
  case ip4Frame =>
    obtain ⟨c, e, rfl⟩ := execIp4Csum_frame h
    rfl
  case tcpFrame =>
    obtain ⟨c, n, m, e, rfl⟩ := execTcpBuildCsum_frame h
    rfl
  case accFrame =>
    obtain ⟨a, e, rfl⟩ := exec_accumulator_frame hi h
    rfl
  case ip4Alike => exact (bystander_of_ip4Csum y c).execIp4Csum s (fun _ _ => rfl)
  case tcpAlike => exact (bystander_of_tcpBuildCsum x c).execTcpBuildCsum s (emitTcpCsum_with_results x c)
  case accAlike =>
    exact (bystander_of_accumulator x y).exec_accumulator hi s (fun _ => rfl) (fun _ _ => rfl) (fun _ _ => rfl)

end Sys2Proof.Machine
end

section
/-! SUPPORT. How a command ends (60_exceptions.md R240 to R244), said once: it fails with the first of its causes and leaves the state of R244, or
it has no cause and ends OK. -/

namespace Sys2Proof.Machine

variable {i : Instr} {s t : State}

/-- The state a failing command ends in, before its result code: a parse clears the VALID bit of its own layer (60_exceptions.md R244). -/
def State.invalidated (s : State) : Instr → State
  | .ethParse => s.setEthValid false
  | .ip4Parse => s.setIp4Valid false
  | .tcpParse => s.setTcpValid false
  | .ethBuild | .ip4Build | .ip4Csum | .tcpBuild | .tcpBuildCsum | .csumClr | .csumAddi _ | .csumAddmem | .csumFin => s

/-- The same as a change of the VALID bits alone. -/
theorem invalidated_eq (s : State) (i : Instr) : s.invalidated i = { s with
    view :=
      { s.view with
        ethValid := if i = .ethParse then false else s.view.ethValid
        ip4Valid := if i = .ip4Parse then false else s.view.ip4Valid
        tcpValid := if i = .tcpParse then false else s.view.tcpValid } } := by
  cases i <;> simp [State.invalidated, State.setEthValid, State.setIp4Valid, State.setTcpValid]

/-- A command fails with a code when that code's cause is the first that applies (60_exceptions.md R243). -/
inductive FailsWith (i : Instr) (s : State) : ResultCode → Prop
  | range (h : s.badRegion i) : FailsWith i s .regionRange
  | short (hr : ¬ s.badRegion i) (h : s.tooShort i) : FailsWith i s .notEnoughBytes
  | long (hr : ¬ s.badRegion i) (h : s.tooLong i) : FailsWith i s .segmentTooLong
  | version (hr : ¬ s.badRegion i) (hs : ¬ s.tooShort i) (h : s.wrongVersion i) : FailsWith i s .unsupportedVersion

/-- No cause of 60_exceptions.md R241 applies to the command. -/
structure NoCause (i : Instr) (s : State) : Prop where
  range : ¬ s.badRegion i
  short : ¬ s.tooShort i
  long : ¬ s.tooLong i
  version : ¬ s.wrongVersion i

theorem not_tooLong (s : State) (h : i ≠ .tcpBuildCsum) : ¬ s.tooLong i := fun hl => h hl.1

theorem not_wrongVersion (s : State) (h : i ≠ .ip4Parse) : ¬ s.wrongVersion i := fun hv => h hv.1

/-- Only a parse can be too short and only TCP_BUILD_CSUM too long. -/
theorem tooLong_not_tooShort (h : s.tooLong i) : ¬ s.tooShort i := by
  obtain ⟨rfl, _⟩ := h
  exact id

/-- TCP_BUILD_CSUM checks no version. -/
theorem tooLong_not_wrongVersion (h : s.tooLong i) : ¬ s.wrongVersion i := by
  obtain ⟨rfl, _⟩ := h
  exact not_wrongVersion s nofun

/-- An admitted input region, in the form `State.badRegion` denies it. -/
theorem inputOk_inside (h : s.inputOk = true) : ¬ s.config.memSize < s.inStart + s.inSize :=
  ((inputOk_iff s).1 h).not_gt

/-- The admitted regions of a build, in the form `State.badRegion` denies them. -/
theorem buildOk_inside {n : Nat} (h : s.buildOk n = true) :
    ¬ (s.config.memSize < s.payStart + s.paySize ∨ s.config.memSize < s.outStart + n + s.paySize) := by
  rw [buildOk_iff] at h
  omega

/-- IP4_PARSE finds the version wrong exactly when byte 0, which it has read, does not begin with 4. -/
theorem wrongVersion_iff {b : Byte} (hb : s.mem.read s.inStart = some b) : s.wrongVersion .ip4Parse ↔ ip4Version b ≠ 4#4 := by
  simp [State.wrongVersion, hb, ip4Version_eq_four]

/-- Every next state of a command is one of R244, for the first cause of R243, or a success without a cause. -/
theorem CommandNext.ends (h : CommandNext i s t) :
    (∃ c, FailsWith i s c ∧ t = (s.invalidated i).finished c) ∨ (NoCause i s ∧ t.err = .ok) := by
  cases h with
  | ethRange _ h | ip4Range _ h | tcpRange _ h => exact .inl ⟨_, .range (not_inputOk h), rfl⟩
  | sumRange _ _ hi h => rcases hi with rfl | rfl <;> exact .inl ⟨_, .range (not_inputOk h), rfl⟩
  | buildRange _ _ _ hi h =>
    rcases hi with ⟨rfl, rfl⟩ | ⟨rfl | rfl | rfl, rfl⟩ <;> exact .inl ⟨_, .range (not_buildOk h), rfl⟩
  | ethShort _ ho hn | ip4Short _ ho hn | tcpShort _ ho hn => exact .inl ⟨_, .short (inputOk_inside ho) hn, rfl⟩
  | tcpLong _ hb hn => exact .inl ⟨_, .long (buildOk_inside hb) ⟨rfl, hn⟩, rfl⟩
  | ip4Version _ b ho hn hb hv =>
    exact .inl ⟨_, .version (inputOk_inside ho) (Nat.not_lt.2 hn) ((wrongVersion_iff hb).2 hv), rfl⟩
  | ip4Ok _ b _ ho hn hb hv =>
    have version : ¬ s.wrongVersion .ip4Parse := fun hw => (wrongVersion_iff hb).1 hw hv
    exact .inr ⟨⟨inputOk_inside ho, Nat.not_lt.2 hn, not_tooLong s nofun, version⟩, finished_err _ _⟩
  | ethOk _ _ ho hn | tcpOk _ _ ho hn =>
    exact .inr ⟨⟨inputOk_inside ho, Nat.not_lt.2 hn, not_tooLong s nofun, not_wrongVersion s nofun⟩, finished_err _ _⟩
  | ethFrame _ _ hb | ip4Frame _ _ hb | tcpFrame _ _ hb =>
    exact .inr ⟨⟨buildOk_inside hb, id, not_tooLong s nofun, not_wrongVersion s nofun⟩, finished_err _ _⟩
  | tcpSealed _ _ hb hn =>
    exact .inr ⟨⟨buildOk_inside hb, id, fun hl => Nat.not_lt.2 hn hl.2, not_wrongVersion s nofun⟩, finished_err _ _⟩
  | summed _ _ ho | accSummed _ _ ho =>
    exact .inr ⟨⟨inputOk_inside ho, id, not_tooLong s nofun, not_wrongVersion s nofun⟩, finished_err _ _⟩
  | accCleared | accAdded | accFinished =>
    exact .inr ⟨⟨id, id, not_tooLong s nofun, not_wrongVersion s nofun⟩, finished_err _ _⟩

/-- The completion of an illegal word (30_encoding.md R114, R116). -/
theorem step_of_illegal (hdue : s.completing) (hw : ∀ i, decodeWord s.eng.cmd ≠ .ok i) :
    step s = .next (s.finished .illegalCommand) :=
  (step_of_completing hdue).trans (runCommand_of_illegal hw)

end Sys2Proof.Machine
end

section
/-! PROOF. The result codes of each command, their priority, and what a failing command changes (60_exceptions.md R242 to R244). -/

namespace Sys2Proof.Machine

/-- Settles O32: a command that does not end OK ends in the state of `CommandNext.ends`, and an illegal word by `step_of_illegal`. -/
theorem failingCommandChangesOnlyErr : Obligations.FailingCommandChangesOnlyErr := by
  unfold Obligations.FailingCommandChangesOnlyErr
  refine ⟨fun i s t h herr => ?fails, fun s t hdue hw h => ?illegal⟩
  case fails =>
    rcases (exec_next h).ends with ⟨c, _, rfl⟩ | ⟨_, hok⟩
    · rw [finished_err, invalidated_eq]
    · exact absurd hok herr
  case illegal => exact Host.Outcome.next.inj (h.symm.trans (step_of_illegal hdue hw))

/-- Settles O31: the causes of R243 exclude each other where their order does not say which is first. -/
theorem errorPriority : Obligations.ErrorPriority := by
  unfold Obligations.ErrorPriority
  refine ⟨fun s hdue hw => ⟨_, step_of_illegal hdue hw, finished_err _ _⟩, fun i s t hnext => ?_⟩
  have longNotShort : s.tooLong i → ¬ s.tooShort i := tooLong_not_tooShort
  have longNotVersion : s.tooLong i → ¬ s.wrongVersion i := tooLong_not_wrongVersion
  rcases (exec_next hnext).ends with ⟨c, hf, rfl⟩ | ⟨⟨hr, hs, hl, hv⟩, hok⟩
  · rw [finished_err]
    cases hf with
    | range | short | long | version => tauto
  · tauto

/-- Settles O30: OK is a code of every command, and each cause of R241 applies only to commands whose row holds its code. -/
theorem resultCodesOfEachCommand : Obligations.ResultCodesOfEachCommand := by
  unfold Obligations.ResultCodesOfEachCommand
  refine ⟨fun i s t hnext => ?_, fun s hdue hw => ⟨_, step_of_illegal hdue hw, finished_err _ _⟩⟩
  rcases (exec_next hnext).ends with ⟨c, hf, rfl⟩ | ⟨_, hok⟩
  · rw [finished_err]
    cases hf with
    | range h =>
      cases i with
      | csumClr | csumAddi _ | csumFin => exact h.elim
      | _ => simp
    | short _ h =>
      cases i with
      | ethParse | ip4Parse | tcpParse => simp
      | _ => exact h.elim
    | long _ h => obtain ⟨rfl, _⟩ := h; simp
    | version _ _ h => obtain ⟨rfl, _⟩ := h; simp
  · cases i <;> simp [hok]

end Sys2Proof.Machine
end

section
/-! PROOF. The reset values of the registers and of the engine (70_reset_and_hazards.md R271). The table does not depend on MEM_SIZE or on
what MEM holds, so it is proved for both arbitrary. -/

namespace Sys2Proof.Machine

/-- Reset leaves the engine idle, and it is not asserted itself. -/
theorem resetWith_idle (c : Config) (m : Memory) : (State.resetWith c m).idle := ⟨rfl, rfl⟩

/-- STATUS after reset: not busy, ERR = OK, HAZ clear. -/
@[simp] theorem resetWith_statusWord (c : Config) (m : Memory) : (State.resetWith c m).statusWord = 0#32 := by
  simp only [State.statusWord, State.resetWith]
  decide

/-- VIEWSTAT after reset: no view valid, none poor. -/
@[simp] theorem resetWith_viewWord (c : Config) (m : Memory) : (State.resetWith c m).view.word = 0#32 := by
  simp only [ViewStat.word, State.resetWith]
  decide

/-- EtherType 0 is of class Unknown, so ETH_TYPE reads 0 where VALUE is 0. -/
theorem ethType_zero : (0#14 ++ classifyEtherType 0#16 ++ 0#16 : Word) = 0#32 := by decide

/-- Protocol 0 is of class Unknown, so IP4_PROTO reads 0 where VALUE is 0. -/
theorem ip4Proto_zero : (0#21 ++ classifyProtocol 0#8 ++ 0#8 : Word) = 0#32 := by decide

/-- TCP_FLAGS after reset: no flag set. -/
@[simp] theorem resetWith_flagsByte (c : Config) (m : Memory) : (State.resetWith c m).tcp.flags.toByte = 0#8 := by
  simp only [TcpFlags.toByte, State.resetWith]
  decide

/-- The table of R271 but for ID: single bits that are clear, words and fields that hold 0, and a VALUE of 0 with its CLASS. -/
theorem readReg_resetWith_of_ne_id (c : Config) (m : Memory) {r : Reg} (hr : r ≠ .id) :
    (State.resetWith c m).readReg r = 0#32 := by
  cases r with
  | id => exact absurd rfl hr
  | status => exact resetWith_statusWord c m
  | viewstat => exact resetWith_viewWord c m
  | tcpFlags => rw [State.readReg, resetWith_flagsByte]; exact BitVec.setWidth_zero 32 8
  | ethType => exact ethType_zero
  | ip4Proto => exact ip4Proto_zero
  | ethDstHi | ethSrcHi | tcpSport | tcpDport | tcpWin | ip4Csum | tcpCsum | csumAcc | csumRes | ip4Hlen | tcpHlen =>
    rfl
  | cmd | inOff | inLen | outOff | payOff | payLen | outLen | ethDstLo | ethSrcLo | ethPoff | ethPlen
  | ip4Src | ip4Dst | ip4Poff | ip4Plen | tcpSeq | tcpAck | tcpPoff | tcpPlen | tcpPhSrc | tcpPhDst =>
    rfl

/-- What every register reads after reset. -/
theorem readReg_resetWith (c : Config) (m : Memory) (r : Reg) :
    (State.resetWith c m).readReg r = if r = .id then 0x434C4231#32 else 0#32 := by
  split
  case isTrue hid => rw [hid]; rfl
  case isFalse hr => exact readReg_resetWith_of_ne_id c m hr

/-- Settles O55: `State.reset` is the reset state of the examples' block, so both parts are `resetWith_idle` and `readReg_resetWith`. -/
theorem resetValues : Obligations.ResetValues := by
  unfold Obligations.ResetValues
  have values (c : Config) : (State.resetWith c []).idle ∧
      ∀ r, (State.resetWith c []).readReg r = if r = .id then 0x434C4231#32 else 0#32 :=
    ⟨resetWith_idle c [], readReg_resetWith c []⟩
  exact ⟨values Config.examples, values⟩

end Sys2Proof.Machine
end


section
/-! PROOF. Decoder and encoder are inverse to each other (30_encoding.md R110 to R112), and a step that completes a legal word is its command
(R116). -/

namespace Sys2Proof

/-- An instruction's word is the word of its fields, which are a legal command. -/
theorem encodesItsFields (i : Instr) : encode i = i.fields.toWord ∧ i.fields.legal = true := by
  cases i with
  | ethParse => exact Laws.EncodesItsFields.ethParse
  | ethBuild => exact Laws.EncodesItsFields.ethBuild
  | ip4Parse => exact Laws.EncodesItsFields.ip4Parse
  | ip4Build => exact Laws.EncodesItsFields.ip4Build
  | ip4Csum => exact Laws.EncodesItsFields.ip4Csum
  | tcpParse => exact Laws.EncodesItsFields.tcpParse
  | tcpBuild => exact Laws.EncodesItsFields.tcpBuild
  | tcpBuildCsum => exact Laws.EncodesItsFields.tcpBuildCsum
  | csumClr => exact Laws.EncodesItsFields.csumClr
  | csumAddi k => exact Laws.EncodesItsFields.csumAddi k
  | csumAddmem => exact Laws.EncodesItsFields.csumAddmem
  | csumFin => exact Laws.EncodesItsFields.csumFin

/-- The fields of an instruction decode to it, CSUM_ADDI's for every immediate. -/
theorem decodeFields_fields (i : Instr) : decodeFields i.fields = .ok i := by
  cases i <;> rfl

/-- Fields that decode are those of the instruction they decode to: RSV is 0, and so is IMM16 but for CSUM_ADDI. -/
theorem fields_of_decodeFields {f : CmdFields} {i : Instr} (h : decodeFields f = .ok i) : i.fields = f := by
  unfold decodeFields at h
  split at h
  · cases h
  · next j hj =>
    obtain ⟨hopc, hrsv, himm⟩ := opcodeInstr_eq_some hj
    split_ifs at h with hr hi
    obtain rfl : j = i := Except.ok.inj h
    have opc : j.fields.opc.toNat = f.opc.toNat := by rw [hopc]
    have rsv : j.fields.rsv.toNat = f.rsv.toNat := by rw [hrsv, not_not.1 hr]
    have imm : j.fields.imm16.toNat = f.imm16.toNat := by
      rw [himm]
      split_ifs with ho
      · rfl
      · rw [show f.imm16 = 0#16 by tauto]
    exact CmdFields.eq_of_toNat opc rsv imm

/-- Settles O25: the word of an instruction splits into its fields again, and these decode to it. -/
theorem decodeOfEncode : Obligations.DecodeOfEncode := by
  unfold Obligations.DecodeOfEncode
  intro i _
  rw [(encodesItsFields i).1, decodeWord, CmdFields.ofWord_toWord]
  exact decodeFields_fields i

/-- Settles O26: a word that decodes has the fields of the instruction, so it is their word, and IMM16 is its upper half. -/
theorem encodeOfDecode : Obligations.EncodeOfDecode := by
  unfold Obligations.EncodeOfDecode
  intro w i h
  have fields : i.fields = CmdFields.ofWord w := fields_of_decodeFields h
  refine ⟨?word, (encodesItsFields i).2, ?immediate⟩
  case word => rw [(encodesItsFields i).1, fields, CmdFields.toWord_ofWord]
  case immediate =>
    rintro k rfl
    rw [← CmdFields.ofWord_imm16, ← fields]
    rfl

/-- Settles O28: the decoder computes on the words of the table. -/
theorem tableWordsDecode : Obligations.TableWordsDecode := by
  unfold Obligations.TableWordsDecode
  exact ⟨by decide, by decide, by decide, by decide, by decide, by decide⟩

end Sys2Proof

namespace Sys2Proof.Machine

/-- Settles O29: the step of a due command is its completion, which runs what the accepted word decodes to. -/
theorem stepRunsTheDecodedCommand : Obligations.StepRunsTheDecodedCommand := by
  unfold Obligations.StepRunsTheDecodedCommand
  intro s i hdue hword
  rw [step_of_completing hdue, runCommand, hword]

end Sys2Proof.Machine
end

section
/-! SUPPORT. The operations of the block keep its invariant (10_state.md R60; 41_ipv4.md R161; 70_reset_and_hazards.md R270), one lemma for each
operation the commands and the host's accesses are made of. -/

namespace Sys2Proof.Machine

variable {s : State}

/-- Completion leaves the engine idle with no latency outstanding, where the command was due. -/
theorem State.Inv.finished (hs : s.Inv) (hw : s.wait = 0) (c : ResultCode) : (s.finished c).Inv :=
  { hs with
    resetIdle := fun _ => rfl
    idleWait := fun _ => hw }

theorem State.Inv.setEthValid (hs : s.Inv) (v : Bool) : (s.setEthValid v).Inv := { hs with }

theorem State.Inv.setIp4Valid (hs : s.Inv) (v : Bool) : (s.setIp4Valid v).Inv := { hs with }

theorem State.Inv.setTcpValid (hs : s.Inv) (v : Bool) : (s.setTcpValid v).Inv := { hs with }

theorem State.Inv.setAcc (hs : s.Inv) (a : Half) : (s.setAcc a).Inv := { hs with }

theorem State.Inv.setRes (hs : s.Inv) (r : Half) : (s.setRes r).Inv := { hs with }

theorem State.Inv.setTcpCsum (hs : s.Inv) (c : Half) : (s.setTcpCsum c).Inv := { hs with }

theorem State.Inv.setIp4Csum (hs : s.Inv) (c : Half) : State.Inv { s with ip4 := { s.ip4 with csum := c } } := { hs with }

/-- Other contents of MEM, in canonical form and below MEM_SIZE. -/
theorem State.Inv.setMem (hs : s.Inv) {m : Memory} (hwf : m.wf) (hrange : ∀ c ∈ m, c.1 < s.config.memSize) :
    State.Inv { s with mem := m } :=
  { hs with
    memCanonical := hwf
    memInRange := hrange }

/-- A sequence of bytes written inside MEM. -/
theorem State.Inv.writeBytes (hs : s.Inv) {a : Nat} {bs : List Byte} (h : a + bs.length ≤ s.config.memSize) :
    State.Inv { s with mem := s.mem.writeBytes a bs } :=
  hs.setMem (Memory.writeBytes_wf bs _ _ hs.memCanonical) (Memory.writeBytes_below _ bs _ _ h hs.memInRange)

/-- A frame written at OUT_OFF inside MEM. -/
theorem State.Inv.emit (hs : s.Inv) {frame : List Byte} (h : s.outStart + frame.length ≤ s.config.memSize) :
    (s.emit frame).Inv :=
  { hs.writeBytes h with }

/-- The Ethernet window a parse latches ends where the input region ends. -/
theorem State.Inv.latchEth (hs : s.Inv) (ho : s.inputOk = true) (hn : 14 ≤ s.inSize) (h : EthHeader) : (s.latchEth h).Inv := by
  rw [inputOk_iff] at ho
  have := (memSize_bounds s.config).2
  have window : (BitVec.ofNat 32 (s.inStart + 14)).toNat + (BitVec.ofNat 32 (s.inSize - 14)).toNat ≤ s.config.memSize := by
    rw [BitVec.toNat_ofNat, BitVec.toNat_ofNat]
    omega
  exact { hs with ethWindow := window }

/-- The window of either parse lies inside MEM, or it is empty and POOR is set. -/
theorem payloadWindow_inside {h : Nat} (ho : s.inputOk = true) (hh : h ≤ 60) :
    ((payloadWindow s.inStart s.inSize h).2.2 = true → BitVec.ofNat 32 (payloadWindow s.inStart s.inSize h).2.1 = 0#32) ∧
    ((payloadWindow s.inStart s.inSize h).2.2 = false →
      (BitVec.ofNat 32 (payloadWindow s.inStart s.inSize h).1).toNat +
        (BitVec.ofNat 32 (payloadWindow s.inStart s.inSize h).2.1).toNat ≤ s.config.memSize) := by
  rw [inputOk_iff] at ho
  obtain ⟨-, hpoff, hwhole, hpoor⟩ := payloadWindow_toNat ho hh
  rcases Nat.lt_or_ge s.inSize h with hlt | hle
  · obtain ⟨hplen, hp⟩ := hpoor hlt
    exact ⟨fun _ => BitVec.eq_of_toNat_eq hplen, fun hf => by rw [hp] at hf; cases hf⟩
  · obtain ⟨hplen, hp⟩ := hwhole hle
    exact ⟨fun ht => (by rw [hp] at ht; cases ht), fun _ => by rw [hpoff, hplen]; omega⟩

/-- Six bits of a multiple of 4 are a multiple of 4. -/
theorem headerLen_mod {h n : Nat} (h4 : h = 4 * n) : (BitVec.ofNat 6 h).toNat % 4 = 0 := by
  rw [BitVec.toNat_ofNat]
  omega

theorem State.Inv.latchIp4 (hs : s.Inv) (ho : s.inputOk = true) (b : Byte) (h : Ip4Header) : (s.latchIp4 b h).Inv :=
  { hs with
    ip4Hlen := headerLen_mod (ip4HeaderLen_eq b)
    ip4Window := payloadWindow_inside ho (ip4HeaderLen_le b) }

theorem State.Inv.latchTcp (hs : s.Inv) (ho : s.inputOk = true) (h : TcpHeader) : (s.latchTcp h).Inv :=
  { hs with
    tcpHlen := headerLen_mod (tcpHeaderLen_eq h.b12)
    tcpWindow := payloadWindow_inside ho (tcpHeaderLen_le h.b12) }

/-- A frame of the length its build has checked ends inside MEM. -/
theorem frame_inside {n : Nat} {pay frame : List Byte} (hb : s.buildOk n = true) (hp : s.payload = some pay)
    (hlen : frame.length = n + pay.length) : s.outStart + frame.length ≤ s.config.memSize := by
  rw [buildOk_iff] at hb
  rw [hlen, payload_length hp]
  exact hb.2

/-- The next state of a command that was due has the invariant. -/
theorem CommandNext.inv {i : Instr} {t : State} (h : CommandNext i s t) (hs : s.Inv) (hw : s.wait = 0) : t.Inv := by
  cases h with
  | ethRange | ethShort => exact (hs.setEthValid false).finished hw _
  | ip4Range | ip4Short | ip4Version => exact (hs.setIp4Valid false).finished hw _
  | tcpRange | tcpShort => exact (hs.setTcpValid false).finished hw _
  | sumRange | buildRange | tcpLong => exact hs.finished hw _
  | ethOk _ x ho hn => exact ((hs.latchEth ho hn x).setEthValid true).finished hw _
  | ip4Ok _ b x ho => exact ((hs.latchIp4 ho b x).setIp4Valid true).finished hw _
  | tcpOk _ x ho => exact ((hs.latchTcp ho x).setTcpValid true).finished hw _
  | ethFrame _ pay hb hp => exact (hs.emit (frame_inside hb hp (by simp))).finished hw _
  | ip4Frame _ pay hb hp => exact (hs.emit (frame_inside hb hp (by simp))).finished hw _
  | tcpFrame _ pay hb hp => exact (hs.emit (frame_inside hb hp (by simp))).finished hw _
  | tcpSealed _ pay hb _ hp =>
    rw [emitTcpCsum_eq hp]
    exact ((hs.emit (frame_inside hb hp (by simp))).finished hw _).setTcpCsum _
  | summed _ bs => exact (hs.setIp4Csum (inetChecksum bs)).finished hw _
  | accSummed _ bs => exact (hs.setAcc (accumulate s.acc.acc (words bs))).finished hw _
  | accCleared => exact (hs.setAcc 0x0000#16).finished hw _
  | accAdded k => exact (hs.setAcc (onesAdd s.acc.acc k)).finished hw _
  | accFinished => exact (hs.setRes (~~~s.acc.acc)).finished hw _

/-- No command changes MEM_SIZE. -/
theorem CommandNext.config_eq {i : Instr} {t : State} (h : CommandNext i s t) : t.config = s.config := by
  cases h <;> simp

/-- An event taken from the list, and a cycle of latency passed. -/
theorem State.Inv.afterEvent (hs : s.Inv) (rest : List HostEvent) : (s.afterEvent rest).Inv :=
  { hs with idleWait := fun hb => Nat.sub_eq_zero_of_le (by rw [hs.idleWait hb]; omega) }

/-- What the host has read, the count of free values, HAZ and the events left are no part of the invariant. -/
theorem State.Inv.withHost (hs : s.Inv) (l : Option Word) (n : Nat) (z : Bool) (es : List HostEvent) :
    State.Inv { s with lastRead := l, draws := n, haz := z, bus := es } := { hs with }

theorem State.Inv.pollStatus (hs : s.Inv) : (pollStatus s).Inv := by
  unfold Machine.pollStatus
  split
  · exact hs.withHost _ _ _ _
  · exact hs.withHost _ _ _ _

/-- An idle write to a register: the header lengths and the windows are read-only, and CMD starts a command only outside reset. -/
theorem State.Inv.writeReg (hs : s.Inv) (hr : s.resetPin = false) (r : Reg) (w : Word) : (s.writeReg r w).Inv := by
  cases r with
  | cmd =>
    exact { hs with
      resetIdle := fun h => by rw [State.writeReg, acceptCommand_resetPin, hr] at h; cases h
      idleWait := nofun }
  | id | viewstat | outLen | ethPoff | ethPlen | ip4Hlen | ip4Poff | ip4Plen | ip4Csum
  | tcpHlen | tcpPoff | tcpPlen | tcpCsum | csumRes => exact hs
  | status | inOff | inLen | outOff | payOff | payLen | ethDstHi | ethDstLo | ethSrcHi | ethSrcLo | ethType
  | ip4Src | ip4Dst | ip4Proto | tcpSport | tcpDport | tcpSeq | tcpAck | tcpFlags | tcpWin | tcpPhSrc | tcpPhDst | csumAcc =>
    exact { hs with }

/-- No register write changes MEM_SIZE. -/
theorem writeReg_config (s : State) (r : Reg) (w : Word) : (s.writeReg r w).config = s.config := by
  cases r <;> rfl

/-- The reset values on a block whose MEM has its canonical form: the engine idle and every window at 0. -/
theorem resetWith_inv {c : Config} {m : Memory} (hwf : m.wf) (hrange : ∀ x ∈ m, x.1 < c.memSize) :
    (State.resetWith c m).Inv where
  memCanonical := hwf
  memInRange := hrange
  resetIdle := fun _ => rfl
  idleWait := fun _ => rfl
  ip4Hlen := rfl
  tcpHlen := rfl
  ethWindow := Nat.zero_le _
  ip4Window := ⟨nofun, fun _ => Nat.zero_le _⟩
  tcpWindow := ⟨nofun, fun _ => Nat.zero_le _⟩

/-- Reset asserted: the reset values, and of MEM nothing but bytes it held before. -/
theorem State.Inv.assertReset (hs : s.Inv) (hr : s.resetPin = false) : (assertReset s).Inv := by
  have kept : s.memAfterReset.wf ∧ ∀ c ∈ s.memAfterReset, c.1 < s.config.memSize := by
    unfold State.memAfterReset
    split
    · split
      · exact ⟨Memory.erase_wf _ _ _ hs.memCanonical, Memory.erase_below _ _ _ _ hs.memInRange⟩
      · exact ⟨hs.memCanonical, hs.memInRange⟩
    · exact ⟨List.Pairwise.nil, nofun⟩
  rw [assertReset_eq s hr]
  exact { resetWith_inv kept.1 kept.2 with resetIdle := fun _ => rfl }

end Sys2Proof.Machine
end

section
/-! PROOF. Every step keeps the invariant, and MEM_SIZE (10_state.md R30, R60; 70_reset_and_hazards.md R270). A step is a completion, whose next
states `CommandNext` lists, or one event from outside. -/

namespace Sys2Proof.Machine

/-- What a step has to keep of the state it starts from. -/
def State.Keeps (s t : State) : Prop := t.Inv ∧ t.config = s.config

variable {s t : State}

/-- A read that answers keeps the invariant, whether or not a command runs. -/
theorem busRead_keeps {w : Width} {a : HostAddr} (hs : s.Inv) (h : busRead s w a = .next t) : s.Keeps t := by
  rcases busRead_cases s w a with ⟨-, e⟩ | ⟨x, -, -, e⟩ | ⟨x, -, -, e⟩ <;> rw [e] at h
  · cases h
  · obtain ⟨v, n, hv⟩ := readBusy_eq s x
    rw [← Host.Outcome.next.inj h, hv]
    exact ⟨hs.withHost _ _ _ _, rfl⟩
  · obtain ⟨v, rfl⟩ := readIdle_next h
    exact ⟨hs.withHost _ _ _ _, rfl⟩

/-- An idle write outside reset keeps the invariant: the map answers MEM only below MEM_SIZE. -/
theorem writeIdle_keeps {w : Width} {a : HostAddr} {x : BusTarget} (hs : s.Inv) (hr : s.resetPin = false) (d : Word)
    (hx : busTarget s.config w a = some x) : s.Keeps (writeIdle s d x) := by
  cases x with
  | reg r => exact ⟨hs.writeReg hr r d, writeReg_config s r d⟩
  | memByte i =>
    have inside : i < s.config.memSize := (busTarget_in_range _ _ _).1 i hx
    exact ⟨hs.writeBytes (bs := [_]) inside, rfl⟩
  | memWord i =>
    have inside : i + 4 ≤ s.config.memSize := (busTarget_in_range _ _ _).2 i hx
    exact ⟨hs.writeBytes inside, rfl⟩

theorem busWrite_keeps {w : Width} {a : HostAddr} {d : Word} (hs : s.Inv) (hr : s.resetPin = false)
    (h : busWrite s w a d = .next t) : s.Keeps t := by
  rcases busWrite_cases s w a d with ⟨-, e⟩ | ⟨x, -, -, e⟩ | ⟨x, hx, -, e⟩ <;> rw [e] at h
  · cases h
  · obtain ⟨z, hz⟩ := writeBusy_eq s d x
    rw [← Host.Outcome.next.inj h, hz]
    exact ⟨hs.withHost _ _ _ _, rfl⟩
  · rw [← Host.Outcome.next.inj h]
    exact writeIdle_keeps hs hr d hx

theorem assertReset_keeps (hs : s.Inv) (hr : s.resetPin = false) : s.Keeps (assertReset s) :=
  ⟨hs.assertReset hr, by rw [assertReset_eq s hr]; rfl⟩

theorem deassertReset_keeps (hs : s.Inv) : s.Keeps (deassertReset s) := ⟨{ hs with resetIdle := nofun }, rfl⟩

theorem pollStatus_keeps (hs : s.Inv) : s.Keeps (pollStatus s) :=
  ⟨hs.pollStatus, by unfold pollStatus; split <;> rfl⟩

/-- Every event outside reset keeps the invariant. -/
theorem hostEvent_keeps {e : HostEvent} (hs : s.Inv) (hr : s.resetPin = false) (h : hostEvent s e = .next t) : s.Keeps t := by
  cases e with
  | read w a => exact busRead_keeps hs h
  | write w a d => exact busWrite_keeps hs hr h
  | idle => rw [← Host.Outcome.next.inj h]; exact ⟨hs, rfl⟩
  | poll => rw [← Host.Outcome.next.inj h]; exact pollStatus_keeps hs
  | assertReset => rw [← Host.Outcome.next.inj h]; exact assertReset_keeps hs hr
  | deassertReset => rw [← Host.Outcome.next.inj h]; exact deassertReset_keeps hs

/-- Reset asserted a second time changes nothing. -/
theorem assertReset_of_asserted (hr : s.resetPin = true) : assertReset s = s := by rw [assertReset, if_pos hr]

/-- Every event while reset is asserted keeps the invariant. -/
theorem eventInReset_keeps {e : HostEvent} (hs : s.Inv) (hr : s.resetPin = true) (h : eventInReset s e = .next t) :
    s.Keeps t := by
  cases e with
  | read | write | poll => cases h
  | idle => rw [← Host.Outcome.next.inj h]; exact ⟨hs, rfl⟩
  | assertReset => rw [← Host.Outcome.next.inj h, assertReset_of_asserted hr]; exact ⟨hs, rfl⟩
  | deassertReset => rw [← Host.Outcome.next.inj h]; exact deassertReset_keeps hs

/-- A cycle in which no command completes keeps the invariant. -/
theorem step_outside_keeps (hs : s.Inv) (hdue : ¬ s.completing) (h : step s = .next t) : s.Keeps t := by
  cases hb : s.bus with
  | nil =>
    have tick : s.tick = s.afterEvent [] := by rw [State.afterEvent, ← hb]; rfl
    rw [step_quiet hdue hb, tick] at h
    rw [← Host.Outcome.next.inj h]
    exact ⟨hs.afterEvent _, rfl⟩
  | cons e rest =>
    cases hr : s.resetPin with
    | false =>
      rw [step_event hdue hr hb] at h
      exact hostEvent_keeps (s := s.afterEvent rest) (hs.afterEvent rest) hr h
    | true =>
      rw [step_event_in_reset hr hb] at h
      exact eventInReset_keeps (s := s.afterEvent rest) (hs.afterEvent rest) hr h

/-- The completion of a command keeps the invariant, and so does that of an illegal word. -/
theorem runCommand_keeps (hs : s.Inv) (hw : s.wait = 0) (h : runCommand s = .next t) : s.Keeps t := by
  rcases runCommand_cases s with ⟨i, -, e⟩ | ⟨-, e⟩ <;> rw [e] at h
  · have next : CommandNext i s t := exec_next h
    exact ⟨next.inv hs hw, next.config_eq⟩
  · rw [← Host.Outcome.next.inj h]
    exact ⟨hs.finished hw _, rfl⟩

/-- Settles O59: a step is the completion of a due command or a cycle of the outside. -/
theorem stepKeepsInvariant : Obligations.StepKeepsInvariant := by
  unfold Obligations.StepKeepsInvariant
  intro s t hs h
  rcases step_cases s with ⟨⟨-, -, hw⟩, e⟩ | ⟨hdue, -⟩
  · exact runCommand_keeps hs hw (e.symm.trans h)
  · exact step_outside_keeps hs hdue h

/-- Settles O60: MEM is empty after reset, on a block of any MEM_SIZE. -/
theorem resetHasInvariant : Obligations.ResetHasInvariant := by
  unfold Obligations.ResetHasInvariant
  have reset (c : Config) : (State.resetWith c []).Inv := resetWith_inv List.Pairwise.nil nofun
  exact ⟨reset Config.examples, reset⟩

end Sys2Proof.Machine
end


section
/-! PROOF. Verification of an inserted checksum, and the accumulator against the checksum engines (43_checksum.md R225, R227). -/

namespace Sys2Proof.Machine

variable {s t : State} {bs : List Byte}

/-- Settles O20: the two halves of the law are `fold_of_inserted_checksum` and `inetChecksum_of_fold`. -/
theorem insertedChecksumVerifies : Obligations.InsertedChecksumVerifies := by
  unfold Obligations.InsertedChecksumVerifies
  intro pre post heven
  have sums := fold_of_inserted_checksum post heven rfl
  exact ⟨sums, inetChecksum_of_fold sums⟩

/-- A checksum is the complement of the words accumulated from 0. -/
theorem inetChecksum_eq_accumulate (bs : List Byte) : inetChecksum bs = ~~~(accumulate 0x0000#16 (words bs)) :=
  inetChecksum_eq_foldl bs

/-- Words accumulated in two parts. -/
theorem accumulate_append (a : Half) (ws vs : List Half) : accumulate a (ws ++ vs) = accumulate (accumulate a ws) vs :=
  List.foldl_append

/-- Settles O21: CSUM_CLR and CSUM_ADDMEM accumulate the region's words from 0, and CSUM_FIN complements them. -/
theorem accumulatorGivesIp4Csum : Obligations.AccumulatorGivesIp4Csum := by
  unfold Obligations.AccumulatorGivesIp4Csum
  intro s bs ho hbs
  have addmem := execCsumAddmem_of_bytes (s := (s.setAcc 0x0000#16).finished .ok) ho hbs
  have checksum := (ip4CsumFollowsItsRule.2 s).2 ho bs hbs
  rw [← inetChecksum_eq_onesResidue] at checksum
  exact ⟨_, _, _, _, rfl, addmem, rfl, checksum, (inetChecksum_eq_accumulate bs).symm, inetChecksum_eq_accumulate bs⟩

/-- CSUM_ADDI for each of a list of words accumulates them, and keeps what CSUM_ADDMEM looks at. -/
theorem execAll_csumAddi (ks : List Half) (is : List Instr) (s : State) :
    ∃ u, execAll (ks.map .csumAddi ++ is) s = execAll is u ∧ u.acc.acc = accumulate s.acc.acc ks ∧
      u.config = s.config ∧ u.opnd = s.opnd ∧ u.mem = s.mem := by
  induction ks generalizing s with
  | nil => exact ⟨s, rfl, rfl, rfl, rfl, rfl⟩
  | cons k ks ih => exact ih ((s.setAcc (onesAdd s.acc.acc k)).finished .ok)

/-- Two bytes next to each other in a word are one field of it. -/
theorem extractLsb'_append_bytes (w : Word) (n : Nat) :
    (w.extractLsb' (n + 8) 8 ++ w.extractLsb' n 8 : Half) = w.extractLsb' n 16 :=
  BitVec.extractLsb'_append_extractLsb'_eq_extractLsb' rfl

/-- The words of the pseudo-header are those `csum.ph` adds (30_encoding.md R124). -/
theorem words_pseudoHeader (src dst : Word) (n : Nat) :
    words (pseudoHeader src dst n) = pseudoWords src dst (BitVec.ofNat 16 n) := by
  rw [pseudoHeader_wire]
  simp only [wirePseudo, words_cons_cons, words_nil, pseudoWords, half_join]
  rw [extractLsb'_append_bytes src 16, extractLsb'_append_bytes src 0, extractLsb'_append_bytes dst 16,
    extractLsb'_append_bytes dst 0]
  rfl

/-- The checksum over a pseudo-header and what follows it, accumulated in two parts. -/
theorem inetChecksum_pseudoHeader (src dst : Word) (n : Nat) (seg : List Byte) :
    inetChecksum (pseudoHeader src dst n ++ seg) =
      ~~~(accumulate (accumulate 0x0000#16 (pseudoWords src dst (BitVec.ofNat 16 n))) (words seg)) := by
  have even : (pseudoHeader src dst n).length % 2 = 0 := by
    have length : (wirePseudo src dst (BitVec.ofNat 16 n)).length = 12 := rfl
    rw [pseudoHeader_wire, length]
  rw [inetChecksum_eq_accumulate, words_append _ _ even, accumulate_append, words_pseudoHeader]

/-- Settles O23: CSUM_ADDMEM goes on from the pseudo-header's words, which `execAll_csumAddi` has accumulated from 0. -/
theorem accumulatorGivesPseudoHeaderChecksum : Obligations.AccumulatorGivesPseudoHeaderChecksum := by
  unfold Obligations.AccumulatorGivesPseudoHeaderChecksum
  intro s src dst seg ho hseg _
  obtain ⟨u, run, acc, config, opnd, mem⟩ := execAll_csumAddi (pseudoWords src dst (BitVec.ofNat 16 s.inSize))
    [.csumAddmem, .csumFin] ((s.setAcc 0x0000#16).finished .ok)
  have ho' : u.inStart + u.inSize ≤ u.config.memSize := by rw [State.inStart, State.inSize, opnd, config]; exact ho
  have hseg' : u.inputBytes = some seg := by rw [State.inputBytes, State.inStart, State.inSize, mem, opnd]; exact hseg
  have addmem : exec .csumAddmem u = .next ((u.setAcc (accumulate u.acc.acc (words seg))).finished .ok) :=
    execCsumAddmem_of_bytes ho' hseg'
  have answer : execAll [.csumAddmem, .csumFin] u =
      exec .csumFin ((u.setAcc (accumulate u.acc.acc (words seg))).finished .ok) := by
    simp only [execAll, addmem]
    rfl
  refine ⟨_, run.trans answer, rfl, mem, ?result⟩
  case result =>
    rw [inetChecksum_pseudoHeader]
    show ~~~(accumulate u.acc.acc (words seg)) = _
    rw [acc]
    rfl

/-- A CSUM_ADDMEM that answers, its region inside MEM, has read the region and added its words. -/
theorem execCsumAddmem_next (h : exec .csumAddmem s = .next t) (ho : s.inStart + s.inSize ≤ s.config.memSize) :
    ∃ bs, s.inputBytes = some bs ∧ t = (s.setAcc (accumulate s.acc.acc (words bs))).finished .ok := by
  rw [exec] at h
  rcases execCsumAddmem_cases s with ⟨hc, _⟩ | ⟨_, _, e⟩ | ⟨_, bs, hbs, e⟩
  · have := not_inputOk hc; omega
  · rw [e] at h; cases h
  · rw [e] at h
    exact ⟨bs, hbs, (Host.Outcome.next.inj h).symm⟩

/-- Settles O24: the bytes of both regions are those of the two one behind the other, and so are the words, the first region being even. -/
theorem adjacentEvenRegionsAddUp : Obligations.AdjacentEvenRegionsAddUp := by
  unfold Obligations.AdjacentEvenRegionsAddUp
  intro s n1 n2 t1 t2 t heven hinside h1 h2 h
  have := (memSize_bounds s.config).2
  have length : (n1 + n2).toNat = n1.toNat + n2.toNat := by rw [BitVec.toNat_add]; omega
  have start : (s.opnd.inOff + n1).toNat = s.inStart + n1.toNat := by
    rw [BitVec.toNat_add, ← State.inStart]
    omega
  obtain ⟨bs1, hbs1, rfl⟩ := execCsumAddmem_next h1 (by show s.inStart + n1.toNat ≤ s.config.memSize; omega)
  obtain ⟨bs2, hbs2, rfl⟩ := execCsumAddmem_next h2
    (by show (s.opnd.inOff + n1).toNat + n2.toNat ≤ s.config.memSize; omega)
  obtain ⟨bs, hbs, rfl⟩ := execCsumAddmem_next h
    (by show s.inStart + (n1 + n2).toNat ≤ s.config.memSize; omega)
  have first : s.mem.readBytes s.inStart n1.toNat = some bs1 := hbs1
  have second : s.mem.readBytes (s.inStart + n1.toNat) n2.toNat = some bs2 := start ▸ hbs2
  have both : s.mem.readBytes s.inStart (n1.toNat + n2.toNat) = some bs := length ▸ hbs
  rw [Memory.readBytes_add, first, Option.bind_some, second, Option.map_some] at both
  have even : bs1.length % 2 = 0 := by rwa [((Memory.readBytes_eq_some _ _ _ _).1 first).1]
  rw [← Option.some.inj both, words_append _ _ even, accumulate_append]
  rfl

end Sys2Proof.Machine
end


section
/-! SUPPORT. The row of each command (30_encoding.md R113): the registers it may write. A command's next state is the old one with its row's
registers changed and the command ended. -/

namespace Sys2Proof.Machine

variable {i : Instr} {s t u : State}

/-- The state `s` with the registers, the VIEWSTAT bits and the MEM of a command's row taken from `u` (30_encoding.md R113). -/
def State.withRow (s u : State) : Instr → State
  | .ethParse => { s with eth := u.eth, view := { s.view with ethValid := u.view.ethValid } }
  | .ip4Parse =>
    { s with
      ip4 := { u.ip4 with csum := s.ip4.csum }
      view := { s.view with ip4Valid := u.view.ip4Valid, ip4Poor := u.view.ip4Poor } }
  | .tcpParse =>
    { s with
      tcp := { u.tcp with csum := s.tcp.csum, phSrc := s.tcp.phSrc, phDst := s.tcp.phDst }
      view := { s.view with tcpValid := u.view.tcpValid, tcpPoor := u.view.tcpPoor } }
  | .ethBuild | .ip4Build | .tcpBuild => { s with mem := u.mem, outLen := u.outLen }
  | .tcpBuildCsum => { s with mem := u.mem, outLen := u.outLen, tcp := { s.tcp with csum := u.tcp.csum } }
  | .ip4Csum => { s with ip4 := { s.ip4 with csum := u.ip4.csum } }
  | .csumClr | .csumAddi _ | .csumAddmem => s.setAcc u.acc.acc
  | .csumFin => s.setRes u.acc.res

@[simp] theorem withRow_config (s u : State) (i : Instr) : (s.withRow u i).config = s.config := by cases i <;> rfl
@[simp] theorem withRow_eng (s u : State) (i : Instr) : (s.withRow u i).eng = s.eng := by cases i <;> rfl
@[simp] theorem withRow_haz (s u : State) (i : Instr) : (s.withRow u i).haz = s.haz := by cases i <;> rfl
@[simp] theorem withRow_opnd (s u : State) (i : Instr) : (s.withRow u i).opnd = s.opnd := by cases i <;> rfl
@[simp] theorem withRow_resetPin (s u : State) (i : Instr) : (s.withRow u i).resetPin = s.resetPin := by cases i <;> rfl
@[simp] theorem withRow_bus (s u : State) (i : Instr) : (s.withRow u i).bus = s.bus := by cases i <;> rfl
@[simp] theorem withRow_lastRead (s u : State) (i : Instr) : (s.withRow u i).lastRead = s.lastRead := by cases i <;> rfl
@[simp] theorem withRow_wait (s u : State) (i : Instr) : (s.withRow u i).wait = s.wait := by cases i <;> rfl
@[simp] theorem withRow_draws (s u : State) (i : Instr) : (s.withRow u i).draws = s.draws := by cases i <;> rfl
@[simp] theorem withRow_phSrc (s u : State) (i : Instr) : (s.withRow u i).tcp.phSrc = s.tcp.phSrc := by cases i <;> rfl
@[simp] theorem withRow_phDst (s u : State) (i : Instr) : (s.withRow u i).tcp.phDst = s.tcp.phDst := by cases i <;> rfl

/-- Only a build writes OUT_LEN and MEM. -/
theorem withRow_output (s u : State) (h : i ∉ [Instr.ethBuild, .ip4Build, .tcpBuild, .tcpBuildCsum]) :
    (s.withRow u i).outLen = s.outLen ∧ (s.withRow u i).mem = s.mem := by
  cases i with
  | ethBuild | ip4Build | tcpBuild | tcpBuildCsum => simp at h
  | _ => exact ⟨rfl, rfl⟩

/-- Only ETH_PARSE writes the Ethernet registers and ETH_VALID. -/
theorem withRow_ethernet (s u : State) (h : i ≠ .ethParse) :
    (s.withRow u i).eth = s.eth ∧ (s.withRow u i).view.ethValid = s.view.ethValid := by
  cases i with
  | ethParse => exact absurd rfl h
  | _ => exact ⟨rfl, rfl⟩

/-- Only IP4_PARSE writes the IPv4 registers but IP4_CSUM, and the two IPv4 bits. -/
theorem withRow_ipv4 (s u : State) (h : i ≠ .ip4Parse) :
    (s.withRow u i).ip4 = { s.ip4 with csum := (s.withRow u i).ip4.csum } ∧
    (s.withRow u i).view.ip4Valid = s.view.ip4Valid ∧ (s.withRow u i).view.ip4Poor = s.view.ip4Poor := by
  cases i with
  | ip4Parse => exact absurd rfl h
  | _ => exact ⟨rfl, rfl, rfl⟩

theorem withRow_ip4Csum (s u : State) (h : i ≠ .ip4Csum) : (s.withRow u i).ip4.csum = s.ip4.csum := by
  cases i with
  | ip4Csum => exact absurd rfl h
  | _ => rfl

/-- Only TCP_PARSE writes the TCP registers but TCP_CSUM, and the two TCP bits. -/
theorem withRow_tcp (s u : State) (h : i ≠ .tcpParse) :
    (s.withRow u i).tcp = { s.tcp with csum := (s.withRow u i).tcp.csum } ∧
    (s.withRow u i).view.tcpValid = s.view.tcpValid ∧ (s.withRow u i).view.tcpPoor = s.view.tcpPoor := by
  cases i with
  | tcpParse => exact absurd rfl h
  | _ => exact ⟨rfl, rfl, rfl⟩

theorem withRow_tcpCsum (s u : State) (h : i ≠ .tcpBuildCsum) : (s.withRow u i).tcp.csum = s.tcp.csum := by
  cases i with
  | tcpBuildCsum => exact absurd rfl h
  | _ => rfl

/-- Only CSUM_CLR, CSUM_ADDI and CSUM_ADDMEM write CSUM_ACC, and only CSUM_FIN writes CSUM_RES. -/
theorem withRow_acc (s u : State) (hi : ∀ k, i ≠ .csumAddi k) (hc : i ≠ .csumClr) (hm : i ≠ .csumAddmem) :
    (s.withRow u i).acc.acc = s.acc.acc := by
  cases i with
  | csumAddi k => exact absurd rfl (hi k)
  | csumClr => exact absurd rfl hc
  | csumAddmem => exact absurd rfl hm
  | _ => rfl

theorem withRow_res (s u : State) (h : i ≠ .csumFin) : (s.withRow u i).acc.res = s.acc.res := by
  cases i with
  | csumFin => exact absurd rfl h
  | _ => rfl

/-- A written frame and its length are the row of a build without a checksum. -/
theorem withRow_emit (s : State) (frame : List Byte) (hi : i = .ethBuild ∨ i = .ip4Build ∨ i = .tcpBuild) :
    s.withRow (s.emit frame) i = s.emit frame := by
  rcases hi with rfl | rfl | rfl <;> rfl

/-- A next state differs from the old one in the command's row, in the result code and in the busy bit alone. -/
theorem CommandNext.withRow (h : CommandNext i s t) : ∃ u c, t = (s.withRow u i).finished c := by
  cases h with
  | ethRange | ethShort => exact ⟨s.setEthValid false, _, rfl⟩
  | ip4Range | ip4Short | ip4Version => exact ⟨s.setIp4Valid false, _, rfl⟩
  | tcpRange | tcpShort => exact ⟨s.setTcpValid false, _, rfl⟩
  | ethOk _ x => exact ⟨(s.latchEth x).setEthValid true, _, rfl⟩
  | ip4Ok _ b x => exact ⟨(s.latchIp4 b x).setIp4Valid true, _, rfl⟩
  | tcpOk _ x => exact ⟨(s.latchTcp x).setTcpValid true, _, rfl⟩
  | sumRange _ _ hi => rcases hi with rfl | rfl <;> exact ⟨s, _, rfl⟩
  | buildRange _ _ _ hi => rcases hi with ⟨rfl, -⟩ | ⟨rfl | rfl | rfl, -⟩ <;> exact ⟨s, _, rfl⟩
  | tcpLong => exact ⟨s, _, rfl⟩
  | ethFrame | ip4Frame | tcpFrame => exact ⟨_, _, by rw [withRow_emit s _ (by simp)]⟩
  | tcpSealed _ pay => exact ⟨s.emitTcpCsum pay, .ok, by simp only [State.withRow, State.emitTcpCsum]⟩
  | summed _ bs => exact ⟨{ s with ip4 := { s.ip4 with csum := inetChecksum bs } }, _, rfl⟩
  | accSummed _ bs => exact ⟨s.setAcc (accumulate s.acc.acc (words bs)), _, rfl⟩
  | accCleared => exact ⟨s.setAcc 0x0000#16, _, rfl⟩
  | accAdded k => exact ⟨s.setAcc (onesAdd s.acc.acc k), _, rfl⟩
  | accFinished => exact ⟨s.setRes (~~~s.acc.acc), _, rfl⟩

/-- A frame of `n` bytes at OUT_OFF leaves the bytes outside it. -/
theorem read_outside_frame {n a : Nat} {frame : List Byte} (hlen : frame.length = n) (ha : ¬ inRegion a s.outStart n) :
    (s.mem.writeBytes s.outStart frame).read a = s.mem.read a := by
  rw [inRegion] at ha
  exact Memory.read_writeBytes_outside _ _ _ _ (by omega)

/-- MEM outside the write region is as before: a build writes a frame of its row's length at OUT_OFF. -/
theorem CommandNext.mem_outside (h : CommandNext i s t) (a : Nat) (ha : ¬ s.writes i a) : t.mem.read a = s.mem.read a := by
  cases h with
  | ethFrame _ pay hb hp | ip4Frame _ pay hb hp | tcpFrame _ pay hb hp =>
    rw [finished_mem, emit_mem]
    exact read_outside_frame (by simp [payload_length hp, writeSize]) ha
  | tcpSealed _ pay hb _ hp =>
    rw [finished_mem, emitTcpCsum_mem]
    exact read_outside_frame (by simp [payload_length hp, writeSize]) ha
  | _ => rfl

end Sys2Proof.Machine
end

section
/-! PROOF. What no command writes (30_encoding.md R113), and the VIEWSTAT bits (10_state.md R38). -/

namespace Sys2Proof.Machine

variable {i : Instr} {s t : State}

/-- Settles O34: what `State.withRow` leaves alone, and MEM outside the write region. -/
theorem commandsWriteOnlyTheirRow : Obligations.CommandsWriteOnlyTheirRow := by
  unfold Obligations.CommandsWriteOnlyTheirRow
  intro i s t h
  have outside := (exec_next h).mem_outside
  obtain ⟨u, c, rfl⟩ := (exec_next h).withRow
  exact ⟨withRow_opnd s u i, withRow_haz s u i, rfl, by rw [finished_eng, withRow_eng], withRow_config s u i,
    withRow_resetPin s u i, withRow_bus s u i, withRow_lastRead s u i, withRow_wait s u i, withRow_draws s u i,
    withRow_output s u, fun hi => (withRow_ethernet s u hi).1,
    fun hi => (withRow_ipv4 s u hi).1, withRow_ip4Csum s u,
    fun hi => (withRow_tcp s u hi).1, withRow_tcpCsum s u,
    withRow_phSrc s u i, withRow_phDst s u i,
    fun hi => (withRow_ethernet s u hi).2, fun hi => (withRow_ipv4 s u hi).2, fun hi => (withRow_tcp s u hi).2,
    withRow_acc s u, withRow_res s u, outside⟩

/-- VIEWSTAT with each bit at its place. -/
theorem viewWord_eq (v : ViewStat) : v.word =
    (if v.ethValid then 0x001#32 else 0#32) ||| (if v.ip4Valid then 0x002#32 else 0#32) |||
    (if v.tcpValid then 0x004#32 else 0#32) ||| (if v.ip4Poor then 0x100#32 else 0#32) |||
    (if v.tcpPoor then 0x200#32 else 0#32) := by
  obtain ⟨ethValid, ip4Valid, tcpValid, ip4Poor, tcpPoor⟩ := v
  revert ethValid ip4Valid tcpValid ip4Poor tcpPoor
  decide

/-- Every completion of ETH_PARSE writes whether it ended OK into ETH_VALID. -/
theorem CommandNext.ethValid (h : CommandNext .ethParse s t) : t.view.ethValid = decide (t.err = .ok) := by
  cases h with
  | ethRange | ethShort | ethOk => rfl
  | sumRange _ _ hi => simp at hi
  | buildRange _ _ _ hi => simp at hi

/-- Every completion of IP4_PARSE writes IP4_VALID; a successful one writes whether the header is longer than the region into IP4_POOR. -/
theorem CommandNext.ip4Bits (h : CommandNext .ip4Parse s t) :
    t.view.ip4Valid = decide (t.err = .ok) ∧
    t.view.ip4Poor = if t.err = .ok then decide (s.inSize < t.ip4.hlen.toNat) else s.view.ip4Poor := by
  cases h with
  | ip4Range | ip4Short | ip4Version => exact ⟨rfl, rfl⟩
  | ip4Ok _ b x ho =>
    have hlen := (payloadWindow_toNat ((inputOk_iff s).1 ho) (ip4HeaderLen_le b)).1
    refine ⟨rfl, (payloadWindow_registers s (ip4HeaderLen b)).2.2.trans ?_⟩
    simp [hlen]
  | sumRange _ _ hi => simp at hi
  | buildRange _ _ _ hi => simp at hi

/-- The same of TCP_PARSE. -/
theorem CommandNext.tcpBits (h : CommandNext .tcpParse s t) :
    t.view.tcpValid = decide (t.err = .ok) ∧
    t.view.tcpPoor = if t.err = .ok then decide (s.inSize < t.tcp.hlen.toNat) else s.view.tcpPoor := by
  cases h with
  | tcpRange | tcpShort => exact ⟨rfl, rfl⟩
  | tcpOk _ x ho =>
    have hlen := (payloadWindow_toNat ((inputOk_iff s).1 ho) (tcpHeaderLen_le x.b12)).1
    refine ⟨rfl, (payloadWindow_registers s (tcpHeaderLen x.b12)).2.2.trans ?_⟩
    simp [hlen]
  | sumRange _ _ hi => simp at hi
  | buildRange _ _ _ hi => simp at hi

/-- Settles O33: a layer's own parse writes its bits as above, and they are in no other command's row (`commandsWriteOnlyTheirRow`). -/
theorem viewBitsFollowTheirParse : Obligations.ViewBitsFollowTheirParse := by
  unfold Obligations.ViewBitsFollowTheirParse
  refine ⟨fun s => viewWord_eq s.view, fun i s t h => ?_⟩
  obtain ⟨u, c, row⟩ := (exec_next h).withRow
  have eth : i ≠ .ethParse → t.view.ethValid = s.view.ethValid := fun hi => row ▸ (withRow_ethernet s u hi).2
  have ip4 : i ≠ .ip4Parse → t.view.ip4Valid = s.view.ip4Valid ∧ t.view.ip4Poor = s.view.ip4Poor :=
    fun hi => row ▸ (withRow_ipv4 s u hi).2
  have tcp : i ≠ .tcpParse → t.view.tcpValid = s.view.tcpValid ∧ t.view.tcpPoor = s.view.tcpPoor :=
    fun hi => row ▸ (withRow_tcp s u hi).2
  cases i with
  | ethParse => simp [(exec_next h).ethValid, ip4, tcp]
  | ip4Parse => simp [(exec_next h).ip4Bits, eth, tcp]
  | tcpParse => simp [(exec_next h).tcpBits, eth, ip4]
  | _ => simp [eth, ip4, tcp]

end Sys2Proof.Machine
end


section
/-! PROOF. When a command completes and when it stops (30_encoding.md R113; 70_reset_and_hazards.md R272, R274): a command whose read set has been
written completes, and one that has no cause to fail and completes has read its whole read set. -/

namespace Sys2Proof.Machine

variable {i : Instr} {s t : State}

/-- The reads of the commands in terms of their read sets. -/
theorem inputBytes_isSome (s : State) : s.inputBytes.isSome ↔ ∀ a, inRegion a s.inStart s.inSize → (s.mem.read a).isSome := by
  simp [State.inputBytes, Memory.readBytes_isSome, inRegion]

theorem payload_isSome (s : State) : s.payload.isSome ↔ ∀ a, inRegion a s.payStart s.paySize → (s.mem.read a).isSome := by
  simp [State.payload, Memory.readBytes_isSome, inRegion]

/-- IP4_PARSE reads byte 0 and the fields behind it. -/
theorem inputsWritten_ip4Parse (s : State) :
    s.inputsWritten .ip4Parse ↔ (s.mem.read s.inStart).isSome ∧ (readIp4Header s.mem s.inStart).isSome := by
  have one (a o : Nat) : inRegion a o 1 ↔ a = o := by rw [inRegion]; omega
  simp only [State.inputsWritten, reads_ip4Parse, readIp4Header_isSome, one, or_imp, forall_and, forall_eq]

theorem inputsWritten_ethParse (s : State) : s.inputsWritten .ethParse ↔ (readEthHeader s.mem s.inStart).isSome := by
  simp only [State.inputsWritten, reads_ethParse, readEthHeader_isSome]

theorem inputsWritten_tcpParse (s : State) : s.inputsWritten .tcpParse ↔ (readTcpHeader s.mem s.inStart).isSome := by
  simp only [State.inputsWritten, reads_tcpParse, readTcpHeader_isSome]

theorem inputsWritten_of_build (hi : i = .ethBuild ∨ i = .ip4Build ∨ i = .tcpBuild ∨ i = .tcpBuildCsum) :
    s.inputsWritten i ↔ s.payload.isSome := by
  rcases hi with rfl | rfl | rfl | rfl <;>
    simp only [State.inputsWritten, reads_ethBuild, reads_ip4Build, reads_tcpBuild, reads_tcpBuildCsum, payload_isSome]

theorem inputsWritten_of_sum (hi : i = .ip4Csum ∨ i = .csumAddmem) : s.inputsWritten i ↔ s.inputBytes.isSome := by
  rcases hi with rfl | rfl <;> simp only [State.inputsWritten, reads_ip4Csum, reads_csumAddmem, inputBytes_isSome]

/-- A build stops only at an unwritten payload byte. -/
theorem buildFrame_ne_fault {n : Nat} {frame : List Byte → List Byte} (h : s.payload.isSome) (f : Fault) :
    buildFrame s n frame ≠ .fault f := by
  intro hf
  rcases buildFrame_cases s n frame with ⟨_, e⟩ | ⟨_, hp, _⟩ | ⟨_, _, _, e⟩
  · rw [e] at hf; cases hf
  · rw [hp] at h; cases h
  · rw [e] at hf; cases hf

/-- A command whose read set has been written does not stop. -/
theorem exec_ne_fault (h : s.inputsWritten i) (f : Fault) : exec i s ≠ .fault f := by
  intro hf
  cases i with
  | ethParse =>
    rw [inputsWritten_ethParse] at h
    rcases execEthParse_cases s with ⟨_, e⟩ | ⟨_, _, e⟩ | ⟨_, _, hr, _⟩ | ⟨_, _, _, _, e⟩
    case inr.inr.inl => rw [hr] at h; cases h
    all_goals rw [exec, e] at hf; cases hf
  | ip4Parse =>
    obtain ⟨h0, hhdr⟩ := (inputsWritten_ip4Parse s).1 h
    rcases execIp4Parse_cases s with ⟨_, e⟩ | ⟨_, _, e⟩ | ⟨_, _, hr, _⟩ | ⟨_, _, b, _, ⟨_, e⟩ | ⟨_, hr, _⟩ | ⟨_, _, _, e⟩⟩
    case inr.inr.inl => rw [hr] at h0; cases h0
    case inr.inr.inr.inr.inl => rw [hr] at hhdr; cases hhdr
    all_goals rw [exec, e] at hf; cases hf
  | tcpParse =>
    rw [inputsWritten_tcpParse] at h
    rcases execTcpParse_cases s with ⟨_, e⟩ | ⟨_, _, e⟩ | ⟨_, _, hr, _⟩ | ⟨_, _, _, _, e⟩
    case inr.inr.inl => rw [hr] at h; cases h
    all_goals rw [exec, e] at hf; cases hf
  | ethBuild | ip4Build | tcpBuild => exact buildFrame_ne_fault ((inputsWritten_of_build (by simp)).1 h) f hf
  | tcpBuildCsum =>
    rw [inputsWritten_of_build (by simp)] at h
    rcases execTcpBuildCsum_cases s with ⟨_, e⟩ | ⟨_, _, e⟩ | ⟨_, _, hp, _⟩ | ⟨_, _, _, _, e⟩
    case inr.inr.inl => rw [hp] at h; cases h
    all_goals rw [exec, e] at hf; cases hf
  | ip4Csum =>
    rw [inputsWritten_of_sum (by simp)] at h
    rcases execIp4Csum_cases s with ⟨_, e⟩ | ⟨_, hb, _⟩ | ⟨_, _, _, e⟩
    case inr.inl => rw [hb] at h; cases h
    all_goals rw [exec, e] at hf; cases hf
  | csumAddmem =>
    rw [inputsWritten_of_sum (by simp)] at h
    rcases execCsumAddmem_cases s with ⟨_, e⟩ | ⟨_, hb, _⟩ | ⟨_, _, _, e⟩
    case inr.inl => rw [hb] at h; cases h
    all_goals rw [exec, e] at hf; cases hf
  | csumClr | csumAddi _ | csumFin => cases hf

/-- Settles O35: by `exec_cases` a command that does not stop answers a next state, in which it has ended. -/
theorem completesOnceInputsAreWritten : Obligations.CompletesOnceInputsAreWritten := by
  unfold Obligations.CompletesOnceInputsAreWritten
  intro i s h
  rcases exec_cases i s with e | ⟨t, e, next⟩
  · exact absurd e (exec_ne_fault h _)
  · obtain ⟨u, c, rfl⟩ := next.withRow
    exact ⟨_, e, rfl⟩

/-- A command that completes OK has read its whole read set. -/
theorem CommandNext.inputsWritten (h : CommandNext i s t) (hok : t.err = .ok) : s.inputsWritten i := by
  cases h with
  | ethRange | ethShort | ip4Range | ip4Short | ip4Version | tcpRange | tcpShort | sumRange | buildRange | tcpLong =>
    rw [finished_err] at hok
    cases hok
  | ethOk _ x _ _ hr => rw [inputsWritten_ethParse, hr]; rfl
  | ip4Ok _ b x _ _ hb _ hr => rw [inputsWritten_ip4Parse, hb, hr]; exact ⟨rfl, rfl⟩
  | tcpOk _ x _ _ hr => rw [inputsWritten_tcpParse, hr]; rfl
  | ethFrame _ pay _ hp | ip4Frame _ pay _ hp | tcpFrame _ pay _ hp => rw [inputsWritten_of_build (by simp), hp]; rfl
  | tcpSealed _ pay _ _ hp => rw [inputsWritten_of_build (by simp), hp]; rfl
  | summed _ bs _ hb | accSummed _ bs _ hb => rw [inputsWritten_of_sum (by simp), hb]; rfl
  | accCleared | accAdded | accFinished =>
    rintro a ⟨r, hr, -⟩
    simp [readRegions] at hr

/-- A command with no cause to fail stops at an unwritten byte of its read set. -/
theorem exec_of_unwritten (hcause : NoCause i s) (hu : ∃ a, s.reads i a ∧ s.mem.read a = none) :
    exec i s = .fault .unwrittenRead := by
  obtain ⟨a, hreads, hnone⟩ := hu
  rcases exec_cases i s with e | ⟨t, -, next⟩
  · exact e
  · rcases next.ends with ⟨c, hf, -⟩ | ⟨-, hok⟩
    · cases hf with
      | range h => exact absurd h hcause.range
      | short _ h => exact absurd h hcause.short
      | long _ h => exact absurd h hcause.long
      | version _ _ h => exact absurd h hcause.version
    · have written := next.inputsWritten hok a hreads
      rw [hnone] at written
      cases written

/-- A command that stops has met an unwritten byte of its read set. -/
theorem unwritten_of_fault {f : Fault} (h : exec i s = .fault f) :
    f = .unwrittenRead ∧ ∃ a, s.reads i a ∧ s.mem.read a = none := by
  refine ⟨?fault, ?unwritten⟩
  case fault =>
    rcases exec_cases i s with e | ⟨t, e, -⟩ <;> rw [h] at e <;> cases e
    rfl
  case unwritten =>
    by_contra hall
    push Not at hall
    exact exec_ne_fault (fun a ha => Option.isSome_iff_ne_none.2 (hall a ha)) f h

/-- Settles O36: `unwritten_of_fault` for the stops there are, `exec_of_unwritten` for the stops there must be. -/
theorem onlyUnwrittenReadsFault : Obligations.OnlyUnwrittenReadsFault := by
  unfold Obligations.OnlyUnwrittenReadsFault
  intro i s
  refine ⟨fun r hr => ?refused, fun f => unwritten_of_fault, fun hi hr hs hl hu => ?named, fun hr hs => ⟨fun h0 => ?byte0, ?fields⟩⟩
  case refused => rcases exec_cases i s with e | ⟨t, e, -⟩ <;> rw [hr] at e <;> cases e
  case named =>
    have version : ¬ s.wrongVersion i := not_wrongVersion s (by rintro rfl; simp at hi)
    exact exec_of_unwritten ⟨hr, hs, hl, version⟩ hu
  case byte0 =>
    have version : ¬ s.wrongVersion .ip4Parse := by
      rintro ⟨-, b, hb, -⟩
      rw [h0] at hb
      cases hb
    exact exec_of_unwritten ⟨hr, hs, not_tooLong s nofun, version⟩ ⟨s.inStart, by simp [inRegion], h0⟩
  case fields =>
    intro b0 hb hv hu
    have version : ¬ s.wrongVersion .ip4Parse := fun h => (wrongVersion_iff hb).1 h ((ip4Version_eq_four b0).2 hv)
    exact exec_of_unwritten ⟨hr, hs, not_tooLong s nofun, version⟩ hu

end Sys2Proof.Machine
end

section
/-! PROOF. A command's answer depends on no MEM byte outside its read set (20_memory.md R91; 30_encoding.md R113). -/

namespace Sys2Proof.Machine

variable {i : Instr} {s t : State} {m : Memory} {x : Result}

/-- The state with another MEM. -/
def State.withMem (s : State) (m : Memory) : State := { s with mem := m }

/-- Two answers of the command `i` from `s`, the second from a state with another MEM: both stop alike, or both answer states that differ in
MEM alone, whose write region reads alike where the command ended OK. -/
def AnswersAlike (i : Instr) (s : State) (x y : Result) : Prop :=
  (∀ f, x = .fault f ↔ y = .fault f) ∧
  ∀ t, x = .next t → ∃ t', y = .next t' ∧ t'.withMem t.mem = t ∧
    ∀ a, t.err = .ok → s.writes i a → t'.mem.read a = t.mem.read a

section
variable (s : State) (m : Memory)

@[simp] theorem withMem_mem : (s.withMem m).mem = m := rfl
theorem withMem_restore : (s.withMem m).withMem s.mem = s := rfl
@[simp] theorem withMem_inStart : (s.withMem m).inStart = s.inStart := rfl
@[simp] theorem withMem_inSize : (s.withMem m).inSize = s.inSize := rfl
@[simp] theorem withMem_paySize : (s.withMem m).paySize = s.paySize := rfl
@[simp] theorem withMem_inputOk : (s.withMem m).inputOk = s.inputOk := rfl
@[simp] theorem withMem_buildOk (n : Nat) : (s.withMem m).buildOk n = s.buildOk n := rfl
@[simp] theorem withMem_acc : (s.withMem m).acc = s.acc := rfl
@[simp] theorem withMem_finished (c : ResultCode) : (s.withMem m).finished c = (s.finished c).withMem m := rfl
@[simp] theorem withMem_setEthValid (v : Bool) : (s.withMem m).setEthValid v = (s.setEthValid v).withMem m := rfl
@[simp] theorem withMem_setIp4Valid (v : Bool) : (s.withMem m).setIp4Valid v = (s.setIp4Valid v).withMem m := rfl
@[simp] theorem withMem_setTcpValid (v : Bool) : (s.withMem m).setTcpValid v = (s.setTcpValid v).withMem m := rfl
@[simp] theorem withMem_latchEth (h : EthHeader) : (s.withMem m).latchEth h = (s.latchEth h).withMem m := rfl
@[simp] theorem withMem_latchIp4 (b : Byte) (h : Ip4Header) : (s.withMem m).latchIp4 b h = (s.latchIp4 b h).withMem m := rfl
@[simp] theorem withMem_latchTcp (h : TcpHeader) : (s.withMem m).latchTcp h = (s.latchTcp h).withMem m := rfl
@[simp] theorem withMem_setAcc (a : Half) : (s.withMem m).setAcc a = (s.setAcc a).withMem m := rfl

end

theorem answersAlike_of_fault (i : Instr) (s : State) (f : Fault) : AnswersAlike i s (.fault f) (.fault f) :=
  ⟨fun _ => Iff.rfl, fun _ h => by cases h⟩

theorem answersAlike_of_next {u : State} (hregs : u.withMem t.mem = t)
    (hmem : t.err = .ok → ∀ a, s.writes i a → u.mem.read a = t.mem.read a) : AnswersAlike i s (.next t) (.next u) := by
  refine ⟨fun f => ⟨?_, ?_⟩, fun t' h => ⟨u, rfl, ?_⟩⟩
  · intro h; cases h
  · intro h; cases h
  obtain rfl : t = t' := Host.Outcome.next.inj h
  exact ⟨hregs, fun a hok ha => hmem hok a ha⟩

/-- A command that writes no MEM leaves the other MEM as it is. -/
theorem answersAlike_of_mapNext (hw : writeSize i s = 0) (hx : ∀ r, x ≠ .refused r) :
    AnswersAlike i s x (mapNext (·.withMem m) x) := by
  cases x with
  | refused r => exact absurd rfl (hx r)
  | fault f => exact answersAlike_of_fault i s f
  | next t =>
    refine answersAlike_of_next rfl fun _ a ha => ?_
    simp only [State.writes, inRegion, hw] at ha
    omega

/-- The same frame written over two memories reads alike where it stands. -/
theorem read_inside_frame {a o : Nat} {frame : List Byte} (ha : inRegion a o frame.length) (m m' : Memory) :
    (m.writeBytes o frame).read a = (m'.writeBytes o frame).read a := by
  rw [inRegion] at ha
  rw [Memory.read_writeBytes, Memory.read_writeBytes, if_pos ha, if_pos ha]

/-- A build reads MEM in its payload alone and writes a frame as long as its write region. -/
theorem answersAlike_of_buildFrame {n : Nat} {frame : List Byte → List Byte} (hp : (s.withMem m).payload = s.payload)
    (hlen : ∀ pay, s.payload = some pay → (frame pay).length = writeSize i s) :
    AnswersAlike i s (buildFrame s n frame) (buildFrame (s.withMem m) n frame) := by
  unfold buildFrame
  rw [withMem_buildOk, hp]
  split
  · cases hpay : s.payload with
    | none => exact answersAlike_of_fault i s _
    | some pay =>
      refine answersAlike_of_next rfl fun _ a ha => ?_
      rw [State.writes, ← hlen pay hpay] at ha
      exact read_inside_frame ha _ _
  · exact answersAlike_of_next rfl fun hok => by cases hok

/-- TCP_BUILD_CSUM emits the same sealed segment and the same checksum over any MEM. -/
theorem withMem_emitTcpCsum (s : State) (m : Memory) (pay : List Byte) :
    (s.withMem m).emitTcpCsum pay = (s.emitTcpCsum pay).withMem (m.writeBytes s.outStart (s.sealedSegment pay)) := by
  simp only [State.emitTcpCsum, State.sealedSegment, State.withMem, State.outStart]

theorem answersAlike_tcpBuildCsum (hp : (s.withMem m).payload = s.payload) :
    AnswersAlike .tcpBuildCsum s (execTcpBuildCsum s) (execTcpBuildCsum (s.withMem m)) := by
  rw [execTcpBuildCsum_eq, execTcpBuildCsum_eq, withMem_buildOk, withMem_paySize, hp]
  split
  · exact answersAlike_of_next rfl fun hok => by cases hok
  · split
    · exact answersAlike_of_next rfl fun hok => by cases hok
    · cases hpay : s.payload with
      | none => exact answersAlike_of_fault _ s _
      | some pay =>
        rw [withRead_some, withRead_some, withMem_emitTcpCsum, withMem_finished]
        refine answersAlike_of_next (withMem_restore _ _) fun _ a ha => ?_
        rw [writes_tcpBuildCsum, ← payload_length hpay, ← sealedSegment_length s pay] at ha
        rw [withMem_mem, finished_mem, emitTcpCsum_mem]
        exact read_inside_frame ha _ _

/-- Memories that agree on a region have the same value there. -/
theorem Memory.readBE_congr {m m' : Memory} {a n : Nat} (h : ∀ c, a ≤ c → c < a + n → m'.read c = m.read c) :
    m'.readBE a n = m.readBE a n := by
  rw [Memory.readBE, Memory.readBytes_congr m m' n a h, Memory.readBE]

/-- Memories that agree on the header bytes a parse reads have the same header. -/
theorem readEthHeader_congr {m m' : Memory} {o : Nat} (h : ∀ a, inRegion a o 14 → m'.read a = m.read a) :
    readEthHeader m' o = readEthHeader m o := by
  have part (p n : Nat) (hpn : p + n ≤ 14) : m'.readBE (o + p) n = m.readBE (o + p) n :=
    Memory.readBE_congr fun c h1 h2 => h c ⟨by omega, by omega⟩
  have first := part 0 6 (by omega)
  rw [Nat.add_zero] at first
  rw [readEthHeader, first, part 6 6 (by omega), part 12 2 (by omega), readEthHeader]

theorem readIp4Header_congr {m m' : Memory} {o : Nat}
    (h : ∀ a, inRegion a (o + 9) 1 ∨ inRegion a (o + 12) 8 → m'.read a = m.read a) :
    readIp4Header m' o = readIp4Header m o := by
  have proto : m'.readBE (o + 9) 1 = m.readBE (o + 9) 1 := Memory.readBE_congr fun c h1 h2 => h c (.inl ⟨h1, h2⟩)
  have src : m'.readBE (o + 12) 4 = m.readBE (o + 12) 4 :=
    Memory.readBE_congr fun c h1 h2 => h c (.inr ⟨by omega, by omega⟩)
  have dst : m'.readBE (o + 16) 4 = m.readBE (o + 16) 4 :=
    Memory.readBE_congr fun c h1 h2 => h c (.inr ⟨by omega, by omega⟩)
  rw [readIp4Header, proto, src, dst, readIp4Header]

theorem readTcpHeader_congr {m m' : Memory} {o : Nat} (h : ∀ a, inRegion a o 16 → m'.read a = m.read a) :
    readTcpHeader m' o = readTcpHeader m o := by
  have part (p n : Nat) (hpn : p + n ≤ 16) : m'.readBE (o + p) n = m.readBE (o + p) n :=
    Memory.readBE_congr fun c h1 h2 => h c ⟨by omega, by omega⟩
  have byte (p : Nat) (hp : p < 16) : m'.read (o + p) = m.read (o + p) := h _ ⟨by omega, by omega⟩
  have first := part 0 2 (by omega)
  rw [Nat.add_zero] at first
  rw [readTcpHeader, first, part 2 2 (by omega), part 4 4 (by omega), part 8 4 (by omega), byte 12 (by omega),
    byte 13 (by omega), part 14 2 (by omega), readTcpHeader]

section
variable (hm : ∀ a, s.reads i a → m.read a = s.mem.read a)
include hm

theorem withMem_payload (hi : i = .ethBuild ∨ i = .ip4Build ∨ i = .tcpBuild ∨ i = .tcpBuildCsum) :
    (s.withMem m).payload = s.payload := by
  refine Memory.readBytes_congr s.mem m _ _ fun c h1 h2 => hm c ?_
  have region : inRegion c s.payStart s.paySize := ⟨h1, h2⟩
  rcases hi with rfl | rfl | rfl | rfl <;> simpa using region

theorem withMem_inputBytes (hi : i = .ip4Csum ∨ i = .csumAddmem) : (s.withMem m).inputBytes = s.inputBytes := by
  refine Memory.readBytes_congr s.mem m _ _ fun c h1 h2 => hm c ?_
  have region : inRegion c s.inStart s.inSize := ⟨h1, h2⟩
  rcases hi with rfl | rfl <;> simpa using region

end

/-- A command that writes no MEM answers over another MEM that reads alike on its read set as it does over the old one. -/
theorem exec_withMem (hw : writeSize i s = 0) (hm : ∀ a, s.reads i a → m.read a = s.mem.read a) :
    exec i (s.withMem m) = mapNext (·.withMem m) (exec i s) := by
  cases i with
  | ethBuild | ip4Build | tcpBuild | tcpBuildCsum => simp [writeSize] at hw
  | ethParse =>
    have header := readEthHeader_congr fun a ha => hm a ((reads_ethParse s a).2 ha)
    simp only [exec, execEthParse, mapNext_ite, mapNext_withRead, complete_eq, raiseError_eq, mapNext_next, withMem_inputOk,
      withMem_inSize, withMem_inStart, withMem_mem, withMem_latchEth, withMem_setEthValid, withMem_finished, header]
  | ip4Parse =>
    have byte0 := hm s.inStart ((reads_ip4Parse s _).2 (.inl (by simp [inRegion])))
    have header := readIp4Header_congr fun a ha => hm a ((reads_ip4Parse s a).2 (.inr ha))
    simp only [exec, execIp4Parse, mapNext_ite, mapNext_withRead, complete_eq, raiseError_eq, mapNext_next, withMem_inputOk,
      withMem_inSize, withMem_inStart, withMem_mem, withMem_latchIp4, withMem_setIp4Valid, withMem_finished, byte0, header]
  | tcpParse =>
    have header := readTcpHeader_congr fun a ha => hm a ((reads_tcpParse s a).2 ha)
    simp only [exec, execTcpParse, mapNext_ite, mapNext_withRead, complete_eq, raiseError_eq, mapNext_next, withMem_inputOk,
      withMem_inSize, withMem_inStart, withMem_mem, withMem_latchTcp, withMem_setTcpValid, withMem_finished, header]
  | ip4Csum =>
    have bytes := withMem_inputBytes hm (by simp)
    simp only [exec, execIp4Csum, mapNext_ite, mapNext_withRead, complete_eq, raiseError_eq, mapNext_next, withMem_inputOk, bytes]
    rfl
  | csumAddmem =>
    have bytes := withMem_inputBytes hm (by simp)
    simp only [exec, execCsumAddmem, mapNext_ite, mapNext_withRead, complete_eq, raiseError_eq, mapNext_next, withMem_inputOk,
      withMem_acc, withMem_setAcc, withMem_finished, bytes]
  | csumClr | csumAddi _ | csumFin => rfl

/-- Settles O37: a build reads its payload alone, and any other command writes no MEM. -/
theorem readsOnlyItsReadSet : Obligations.ReadsOnlyItsReadSet := by
  unfold Obligations.ReadsOnlyItsReadSet
  intro i s m hm
  show AnswersAlike i s (exec i s) (exec i (s.withMem m))
  cases i with
  | ethBuild | ip4Build | tcpBuild =>
    exact answersAlike_of_buildFrame (withMem_payload hm (by simp)) fun pay hp => by simp [payload_length hp, writeSize]
  | tcpBuildCsum => exact answersAlike_tcpBuildCsum (withMem_payload hm (by simp))
  | ethParse | ip4Parse | ip4Csum | tcpParse | csumClr | csumAddi _ | csumAddmem | csumFin =>
    rw [exec_withMem rfl hm]
    exact answersAlike_of_mapNext rfl fun r => (onlyUnwrittenReadsFault _ s).1 r

end Sys2Proof.Machine
end


section
/-! SUPPORT. What a read of each register shows, in numbers (10_state.md R34 to R58). -/

namespace Sys2Proof.Machine

/-- STATUS is the sum of its three fields. -/
theorem statusWord_eq_ofNat (s : State) : s.statusWord =
    BitVec.ofNat 32 (bitWeight s.eng.busy 0x1 + 0x100 * errNumber s.err + bitWeight s.haz 0x10000) := by
  rw [State.statusWord]
  cases s.eng.busy <;> cases s.haz <;> cases s.err <;> rfl

/-- VIEWSTAT is the sum of its bits. -/
theorem viewWord_eq_ofNat (v : ViewStat) : v.word = BitVec.ofNat 32 (bitWeight v.ethValid 0x1 + bitWeight v.ip4Valid 0x2 +
    bitWeight v.tcpValid 0x4 + bitWeight v.ip4Poor 0x100 + bitWeight v.tcpPoor 0x200) := by
  obtain ⟨ethValid, ip4Valid, tcpValid, ip4Poor, tcpPoor⟩ := v
  revert ethValid ip4Valid tcpValid ip4Poor tcpPoor
  decide

/-- TCP_FLAGS is the sum of its flags. -/
theorem flagsWord_eq_ofNat (f : TcpFlags) : f.toByte.zeroExtend 32 =
    BitVec.ofNat 32 (bitWeight f.fin 0x01 + bitWeight f.syn 0x02 + bitWeight f.rst 0x04 + bitWeight f.ack 0x10) := by
  obtain ⟨fin, syn, rst, ack⟩ := f
  revert fin syn rst ack
  decide

/-- A field above `n` low bits, as a number. -/
theorem append_toNat {m n : Nat} (c : BitVec m) (v : BitVec n) : (c ++ v).toNat = v.toNat + 2 ^ n * c.toNat := by
  rw [BitVec.toNat_append, ← Nat.shiftLeft_add_eq_or_of_lt v.isLt, Nat.shiftLeft_eq, Nat.mul_comm, Nat.add_comm]

/-- The class of an EtherType, as a number. -/
theorem classifyEtherType_toNat (v : Half) :
    (classifyEtherType v).toNat = if v.toNat = 0x0800 then 1 else if v.toNat = 0x0806 then 2 else 0 := by
  have arp : v = 0x0806#16 ↔ v.toNat = 0x0806 := BitVec.toNat_inj.symm
  have ipv4 : v = 0x0800#16 ↔ v.toNat = 0x0800 := BitVec.toNat_inj.symm
  unfold classifyEtherType
  simp only [ipv4, arp]
  split_ifs <;> rfl

/-- The class of a protocol, as a number. -/
theorem classifyProtocol_toNat (v : Byte) : (classifyProtocol v).toNat =
    if v.toNat = 1 then 1 else if v.toNat = 6 then 2 else if v.toNat = 17 then 3 else 0 := by
  have icmp : v = 1#8 ↔ v.toNat = 1 := BitVec.toNat_inj.symm
  have tcp : v = 6#8 ↔ v.toNat = 6 := BitVec.toNat_inj.symm
  have udp : v = 17#8 ↔ v.toNat = 17 := BitVec.toNat_inj.symm
  unfold classifyProtocol
  simp only [icmp, tcp, udp]
  split_ifs <;> rfl

/-- ETH_TYPE is VALUE and the class of VALUE above it. -/
theorem ethTypeWord_eq_ofNat (v : Half) : (0#14 ++ classifyEtherType v ++ v : Word) = BitVec.ofNat 32 (v.toNat +
    0x10000 * (if v.toNat = 0x0800 then 1 else if v.toNat = 0x0806 then 2 else 0)) := by
  rw [ethType_eq_zeroExtend, ← classifyEtherType_toNat]
  exact (BitVec.ofNat_toNat 32 _).symm.trans (congrArg (BitVec.ofNat 32) (append_toNat _ v))

/-- IP4_PROTO is VALUE and the class of VALUE above it. -/
theorem ip4ProtoWord_eq_ofNat (v : Byte) : (0#21 ++ classifyProtocol v ++ v : Word) = BitVec.ofNat 32 (v.toNat +
    0x100 * (if v.toNat = 1 then 1 else if v.toNat = 6 then 2 else if v.toNat = 17 then 3 else 0)) := by
  rw [ip4Proto_eq_zeroExtend, ← classifyProtocol_toNat]
  exact (BitVec.ofNat_toNat 32 _).symm.trans (congrArg (BitVec.ofNat 32) (append_toNat _ v))

/-- A read of any register shows what it holds. -/
theorem readReg_eq_shown (s : State) (r : Reg) : s.readReg r = s.shown r := by
  cases r with
  | id | cmd => rfl
  | status => exact statusWord_eq_ofNat s
  | viewstat => exact viewWord_eq_ofNat s.view
  | tcpFlags => exact flagsWord_eq_ofNat s.tcp.flags
  | ethType => exact ethTypeWord_eq_ofNat s.eth.etype
  | ip4Proto => exact ip4ProtoWord_eq_ofNat s.ip4.proto
  | ethDstHi | ethSrcHi | tcpSport | tcpDport | tcpWin | ip4Csum | tcpCsum | csumAcc | csumRes | ip4Hlen | tcpHlen =>
    exact (BitVec.ofNat_toNat 32 _).symm
  | inOff | inLen | outOff | payOff | payLen | outLen | ethDstLo | ethSrcLo | ethPoff | ethPlen
  | ip4Src | ip4Dst | ip4Poff | ip4Plen | tcpSeq | tcpAck | tcpPoff | tcpPlen | tcpPhSrc | tcpPhDst =>
    exact ((BitVec.ofNat_toNat 32 _).trans (BitVec.setWidth_eq _)).symm

/-- A field at bit 0, zero-extended, is the word under the mask of the field. -/
theorem zeroExtend_extractLsb' (w : Word) (n : Nat) : (w.extractLsb' 0 n).zeroExtend 32 = w &&& (BitVec.allOnes n).zeroExtend 32 := by
  ext i hi
  simp only [BitVec.zeroExtend, BitVec.getElem_setWidth, BitVec.getLsbD_extractLsb', BitVec.getElem_and,
    BitVec.getLsbD_allOnes, Nat.zero_add, BitVec.getLsbD_eq_getElem hi]
  exact Bool.and_comm _ _

/-- TCP_FLAGS after a host write: bits 0, 1, 2 and 4 of the data. -/
theorem flagsWord_ofByte (w : Word) :
    (TcpFlags.ofByte (w.extractLsb' 0 8)).toByte.zeroExtend 32 = w &&& 0x17#32 := by
  have low : (BitVec.allOnes 8).zeroExtend 32 &&& (0x17#8).zeroExtend 32 = 0x17#32 := by decide
  have split : (w.extractLsb' 0 8 &&& 0x17#8).zeroExtend 32 = (w.extractLsb' 0 8).zeroExtend 32 &&& (0x17#8).zeroExtend 32 :=
    BitVec.setWidth_and
  rw [toByte_ofByte, split, zeroExtend_extractLsb', BitVec.and_assoc, low]

end Sys2Proof.Machine
end

section
/-! PROOF. The fields of STATUS, the CLASS fields and TCP_FLAGS (10_state.md R36, R43, R46, R53). -/

namespace Sys2Proof.Machine

/-- Settles O48, by the two flags and the six codes. -/
theorem statusFields : Obligations.StatusFields := by
  unfold Obligations.StatusFields
  refine ⟨⟨rfl, rfl, rfl, rfl, rfl, rfl⟩, fun s => ⟨?word, ?bound, fun w => rfl⟩⟩
  case word =>
    rw [State.readReg, State.statusWord]
    cases s.eng.busy <;> cases s.haz <;> cases s.err <;> rfl
  case bound => cases s.err <;> decide

/-- Settles O49: the two words as numbers, and the low bits a host write stores. -/
theorem classFollowsValue : Obligations.ClassFollowsValue := by
  unfold Obligations.ClassFollowsValue
  intro s w
  exact ⟨ethTypeWord_eq_ofNat s.eth.etype, BitVec.extractLsb'_toNat 0 16 w, ip4ProtoWord_eq_ofNat s.ip4.proto,
    BitVec.extractLsb'_toNat 0 8 w⟩

/-- Settles O50: `flagsWord_ofByte` for what is read back, `tcpFlags_toByte` for any flags. -/
theorem tcpFlagsWriteMask : Obligations.TcpFlagsWriteMask := by
  unfold Obligations.TcpFlagsWriteMask
  intro s v
  refine ⟨flagsWord_ofByte v, ?wire, ?bits⟩
  case wire => rw [State.readReg, (tcpFlags_toByte s.tcp.flags).1]
  case bits => simp [State.writeReg, TcpFlags.ofByte]

end Sys2Proof.Machine
end

section
/-! PROOF. The register file of an idle block (10_state.md R33 to R58; 20_memory.md R89). -/

namespace Sys2Proof.Machine

variable {s : State} {r : Reg}

/-- The address the map lists for a register is its host address. -/
theorem mapAddress_eq_hostAddr (r : Reg) : mapAddress r = hostAddr r := by cases r <;> rfl

/-- A host write leaves its data in the RW bits of the register. -/
theorem readReg_writeReg_writable (s : State) (w : Word) (hr : r ≠ .cmd) :
    (s.writeReg r w).readReg r &&& writableBits r = w &&& writableBits r := by
  cases r with
  | cmd => exact absurd rfl hr
  | id | status | viewstat | outLen | ethPoff | ethPlen | ip4Hlen | ip4Poff | ip4Plen | ip4Csum
  | tcpHlen | tcpPoff | tcpPlen | tcpCsum | csumRes =>
    exact BitVec.and_zero.trans BitVec.and_zero.symm
  | inOff | inLen | outOff | payOff | payLen | ethDstLo | ethSrcLo
  | ip4Src | ip4Dst | tcpSeq | tcpAck | tcpPhSrc | tcpPhDst => rfl
  | ethDstHi | ethSrcHi | tcpSport | tcpDport | tcpWin | csumAcc =>
    show (w.extractLsb' 0 16).zeroExtend 32 &&& (BitVec.allOnes 16).zeroExtend 32 = w &&& (BitVec.allOnes 16).zeroExtend 32
    rw [zeroExtend_extractLsb', BitVec.and_assoc, BitVec.and_self]
  | ethType =>
    show _ ++ w.extractLsb' 0 16 &&& (BitVec.allOnes 16).zeroExtend 32 = w &&& (BitVec.allOnes 16).zeroExtend 32
    rw [← zeroExtend_extractLsb', ← zeroExtend_extractLsb', BitVec.extractLsb'_append_eq_right]
  | ip4Proto =>
    show _ ++ w.extractLsb' 0 8 &&& (BitVec.allOnes 8).zeroExtend 32 = w &&& (BitVec.allOnes 8).zeroExtend 32
    rw [← zeroExtend_extractLsb', ← zeroExtend_extractLsb', BitVec.extractLsb'_append_eq_right]
  | tcpFlags =>
    show (TcpFlags.ofByte (w.extractLsb' 0 8)).toByte.zeroExtend 32 &&& 0x17#32 = w &&& 0x17#32
    rw [flagsWord_ofByte, BitVec.and_assoc, BitVec.and_self]

/-- A host write to a register but CMD leaves what every other register holds. -/
theorem held_writeReg_other (s : State) (w : Word) {q : Reg} (hr : r ≠ .cmd) (hq : q ≠ r) :
    (s.writeReg r w).held q = s.held q := by
  cases r with
  | cmd => exact absurd rfl hr
  | id | viewstat | outLen | ethPoff | ethPlen | ip4Hlen | ip4Poff | ip4Plen | ip4Csum
  | tcpHlen | tcpPoff | tcpPlen | tcpCsum | csumRes => rfl
  | status | inOff | inLen | outOff | payOff | payLen | ethDstHi | ethDstLo | ethSrcHi | ethSrcLo | ethType
  | ip4Src | ip4Dst | ip4Proto | tcpSport | tcpDport | tcpSeq | tcpAck | tcpFlags | tcpWin | tcpPhSrc | tcpPhDst | csumAcc =>
    cases q <;> first | rfl | exact absurd rfl hq

/-- A register without RW bits is read-only, but for STATUS and CMD. -/
theorem writeReg_of_readOnly (s : State) (w : Word) (hr : r ≠ .cmd) (hs : r ≠ .status) (h0 : writableBits r = 0#32) :
    s.writeReg r w = s := by
  cases r with
  | cmd => exact absurd rfl hr
  | status => exact absurd rfl hs
  | id | viewstat | outLen | ethPoff | ethPlen | ip4Hlen | ip4Poff | ip4Plen | ip4Csum
  | tcpHlen | tcpPoff | tcpPlen | tcpCsum | csumRes => rfl
  | _ => exact absurd h0 (by decide)

/-- A host write to a register but CMD touches the host's registers and HAZ alone. -/
theorem writeReg_frame (s : State) (w : Word) (hr : r ≠ .cmd) :
    s.writeReg r w = { s with
      opnd := (s.writeReg r w).opnd, eth := (s.writeReg r w).eth, ip4 := (s.writeReg r w).ip4, tcp := (s.writeReg r w).tcp
      acc := (s.writeReg r w).acc, haz := (s.writeReg r w).haz } := by
  cases r with
  | cmd => exact absurd rfl hr
  | _ => rfl

/-- A 32-bit read of a register of an idle block. -/
theorem step_read_reg {rest : List HostEvent} (h : s.idle) (hb : s.bus = .read .w32 (mapAddress r) :: rest) :
    step s = .next { s.afterEvent rest with lastRead := some (s.shown r) } := by
  rw [mapAddress_eq_hostAddr] at hb
  rw [step_event_of_idle_or_running (.inl h) hb, hostEvent, busRead_reg, afterEvent_eng, h.2, ← readReg_eq_shown]
  cases r <;> rfl

/-- A 32-bit write to a register of an idle block. -/
theorem step_write_reg {rest : List HostEvent} {w : Word} (h : s.idle) (hb : s.bus = .write .w32 (mapAddress r) w :: rest) :
    step s = .next ((s.afterEvent rest).writeReg r w) := by
  rw [mapAddress_eq_hostAddr] at hb
  rw [step_event_of_idle_or_running (.inl h) hb, hostEvent, busWrite_reg, afterEvent_eng, h.2]
  rfl

/-- A pass of the polling loop reads STATUS, and comes again from the next cycle on while a command runs. -/
theorem step_poll {rest : List HostEvent} (h : s.idle ∨ s.running) (hb : s.bus = .poll :: rest) :
    step s = .next { s.afterEvent (if s.eng.busy then .poll :: rest else rest) with lastRead := some (s.shown .status) } := by
  rw [step_event_of_idle_or_running h hb, hostEvent, pollStatus, afterEvent_eng, ← readReg_eq_shown]
  split <;> rfl

/-- A cycle in which nothing comes counts the latency down. -/
theorem step_idle_event {rest : List HostEvent} (h : s.idle ∨ s.running) (hb : s.bus = .idle :: rest) :
    step s = .next (s.afterEvent rest) := by
  rw [step_event_of_idle_or_running h hb, hostEvent]

theorem step_no_event (h : s.idle ∨ s.running) (hb : s.bus = []) : step s = .next (s.afterEvent []) := by
  have hdue : ¬ s.completing := h.elim idle_not_completing running_not_completing
  rw [step_quiet hdue hb, State.afterEvent, ← hb, State.tick]

/-- What holds of a register does not depend on the events left and the latency. -/
theorem held_afterEvent (s : State) (rest : List HostEvent) (q : Reg) : (s.afterEvent rest).held q = s.held q := by
  cases q <;> rfl

/-- Settles O46: `readReg_eq_shown` for the fields, then one of the lemmas above for each event. -/
theorem idleRegisterAccesses : Obligations.IdleRegisterAccesses := by
  unfold Obligations.IdleRegisterAccesses
  refine ⟨readReg_eq_shown, fun s h => ⟨fun r rest => ⟨step_read_reg h, fun w hr hb => ?write⟩, fun rest hb => ?poll,
    fun rest => step_idle_event (.inl h), step_no_event (.inl h)⟩⟩
  case write =>
    refine ⟨_, step_write_reg h hb, ?stored, fun q hq => ?others, fun hs h0 => ?readOnly, ?status, writeReg_frame _ w hr⟩
    case stored =>
      rw [← readReg_eq_shown]
      exact readReg_writeReg_writable _ w hr
    case others => rw [held_writeReg_other _ w hr hq, held_afterEvent]
    case readOnly => exact writeReg_of_readOnly _ w hr hs h0
    case status =>
      rintro rfl
      rfl
  case poll =>
    have once := step_poll (.inl h) hb
    rwa [h.2] at once

end Sys2Proof.Machine
end


section
/-! PROOF. Acceptance and the hazards of a running command (10_state.md R70, R71; 70_reset_and_hazards.md R280, R281, R284). -/

namespace Sys2Proof.Machine

variable {s : State} {rest : List HostEvent}

/-- Settles O40: a write to CMD is `acceptCommand`, whatever the word. -/
theorem idleCmdWriteIsAccepted : Obligations.IdleCmdWriteIsAccepted := by
  unfold Obligations.IdleCmdWriteIsAccepted
  intro s w rest h hb
  exact ⟨_, step_write_reg (r := .cmd) h hb⟩

theorem busy_of_running (h : s.running) : s.eng.busy = true := h.2.1

/-- A running block answers a read that reaches something as `readBusy` says. -/
theorem step_busy_read {w : Width} {a : HostAddr} {t : BusTarget} (h : s.running) (hb : s.bus = .read w a :: rest)
    (ht : busTarget s.config w a = some t) : step s = .next (readBusy (s.afterEvent rest) t) := by
  rw [step_event_of_idle_or_running (.inr h) hb]
  simp [hostEvent, busRead, ht, busy_of_running h]

/-- A running block takes a write that reaches something as `writeBusy` says. -/
theorem step_busy_write {w : Width} {a : HostAddr} {d : Word} {t : BusTarget} (h : s.running) (hb : s.bus = .write w a d :: rest)
    (ht : busTarget s.config w a = some t) : step s = .next (writeBusy (s.afterEvent rest) d t) := by
  rw [step_event_of_idle_or_running (.inr h) hb]
  simp [hostEvent, busWrite, ht, busy_of_running h]

/-- An access allowed at a register's address reaches that register. -/
theorem busTarget_of_hostAddr {c : Config} {w : Width} {r : Reg} (h : busTarget c w (hostAddr r) ≠ none) :
    busTarget c w (hostAddr r) = some (.reg r) := by
  have low : (hostAddr r).toNat < 0x1000 := by rw [hostAddr_toNat]; exact regAddr_lt r
  rw [busTarget_low low] at h ⊢
  by_cases hw : w = .w32
  · rw [if_pos hw, hostAddr_toNat, regAt_regAddr, Option.map_some]
  · exact absurd (if_neg hw) h

/-- A busy write to anything but STATUS is dropped and sets HAZ. -/
theorem writeBusy_of_ne_status {t : BusTarget} (s : State) (d : Word) (ht : t ≠ .reg .status) :
    writeBusy s d t = { s with haz := true } := by
  cases t with
  | memByte i | memWord i => rfl
  | reg r =>
    cases r with
    | status => exact absurd rfl ht
    | _ => rfl

/-- Settles O42: the three cases of R280. -/
theorem busyWriteIsDropped : Obligations.BusyWriteIsDropped := by
  unfold Obligations.BusyWriteIsDropped
  intro s w a d rest h hb
  simp only [allowedAccess_iff, not_not]
  refine ⟨(step_write_busError_iff (.inr h) hb).2, fun hallowed ha => ?dropped, fun hallowed ha => ?status⟩
  case dropped =>
    obtain ⟨t, ht⟩ := Option.ne_none_iff_exists'.1 hallowed
    have other : t ≠ .reg .status := by
      rintro rfl
      exact ha (busTarget_reg.1 ht).2
    rw [step_busy_write h hb ht, writeBusy_of_ne_status _ d other]
  case status =>
    have addr : a = hostAddr .status := ha
    rw [addr] at hb hallowed
    rw [step_busy_write h hb (busTarget_of_hostAddr hallowed)]
    rfl

/-- What a busy read of a register answers: ID, STATUS and CMD true, any other a free value. -/
theorem readBusy_reg (s : State) (r : Reg) : ∃ v n, readBusy s (.reg r) = { s with lastRead := some v, draws := n } ∧
    (r = .id → v = idValue) ∧ (r = .status → v = s.statusWord) ∧ (r = .cmd → v = 0#32) := by
  cases r with
  | id => exact ⟨idValue, s.draws, rfl, fun _ => rfl, nofun, nofun⟩
  | status => exact ⟨s.statusWord, s.draws, rfl, nofun, fun _ => rfl, nofun⟩
  | cmd => exact ⟨0#32, s.draws, rfl, nofun, nofun, fun _ => rfl⟩
  | _ => exact ⟨_, _, rfl, nofun, nofun, nofun⟩

/-- Registers at one address are the same. -/
theorem hostAddr_injective {r q : Reg} (h : hostAddr r = hostAddr q) : r = q := by
  have addr : regAddr r = regAddr q := by rw [← hostAddr_toNat, h, hostAddr_toNat]
  exact Option.some.inj ((regAt_regAddr r).symm.trans (addr ▸ regAt_regAddr q))

/-- An address in the window is no register's. -/
theorem ne_hostAddr {a : HostAddr} {i : Nat} (ha : a.toNat = 0x10000 + i) (r : Reg) : a ≠ hostAddr r := by
  rintro rfl
  have := regAddr_lt r
  rw [hostAddr_toNat] at ha
  omega

/-- Bit 0 of STATUS is BUSY. -/
theorem statusWord_busy (s : State) : s.statusWord.getLsbD 0 = s.eng.busy := by
  rw [State.statusWord]
  cases s.eng.busy <;> cases s.haz <;> cases s.err <;> rfl

/-- A value drawn for an access of `n` bits fits it. -/
theorem setWidth_lt (v : Word) (n : Nat) : ((v.setWidth n).setWidth 32).toNat < 2 ^ n := by
  rw [BitVec.toNat_setWidth]
  exact (Nat.mod_le _ _).trans_lt (v.setWidth n).isLt

/-- A read allowed on a running block answers a value of its width, which is true for ID, STATUS and CMD, and has no side effect. -/
theorem step_busy_read_value {w : Width} {a : HostAddr} (h : s.running) (hb : s.bus = .read w a :: rest)
    (hallowed : busTarget s.config w a ≠ none) :
    ∃ v n, step s = .next { s.afterEvent rest with lastRead := some v, draws := n } ∧ v.toNat < 2 ^ w.bits ∧
      (a = hostAddr .id → v = idValue) ∧ (a = hostAddr .status → v = s.statusWord) ∧ (a = hostAddr .cmd → v = 0#32) := by
  obtain ⟨t, ht⟩ := Option.ne_none_iff_exists'.1 hallowed
  rw [step_busy_read h hb ht]
  cases t with
  | reg r =>
    obtain ⟨rfl, rfl⟩ := busTarget_reg.1 ht
    obtain ⟨v, n, e, hid, hstatus, hcmd⟩ := readBusy_reg (s.afterEvent rest) r
    exact ⟨v, n, congrArg _ e, v.isLt, fun ha => hid (hostAddr_injective ha), fun ha => hstatus (hostAddr_injective ha),
      fun ha => hcmd (hostAddr_injective ha)⟩
  | memByte i =>
    obtain ⟨rfl, ha, -⟩ := busTarget_memByte.1 ht
    exact ⟨_, _, rfl, setWidth_lt _ 8, fun e => absurd e (ne_hostAddr ha _), fun e => absurd e (ne_hostAddr ha _),
      fun e => absurd e (ne_hostAddr ha _)⟩
  | memWord i =>
    obtain ⟨rfl, ha, -⟩ := busTarget_memWord.1 ht
    exact ⟨_, _, rfl, setWidth_lt _ 32, fun e => absurd e (ne_hostAddr ha _), fun e => absurd e (ne_hostAddr ha _),
      fun e => absurd e (ne_hostAddr ha _)⟩

/-- Settles O43: `step_busy_read_value` for a read, and the quiet events as on an idle block. -/
theorem busyReadsHaveNoEffect : Obligations.BusyReadsHaveNoEffect := by
  unfold Obligations.BusyReadsHaveNoEffect
  intro s h
  refine ⟨fun w a rest hb hallowed => ?read, fun rest hb => ?poll, fun rest => step_idle_event (.inr h), step_no_event (.inr h)⟩
  case read =>
    obtain ⟨v, n, e, hv, hid, hstatus, hcmd⟩ := step_busy_read_value h hb (allowedAccess_iff.1 hallowed)
    refine ⟨v, n, e, hv, hid, fun ha => ?_, hcmd⟩
    rw [hstatus ha]
    exact ⟨readReg_eq_shown s .status, (statusWord_busy s).trans (busy_of_running h)⟩
  case poll =>
    have again := step_poll (.inr h) hb
    rwa [busy_of_running h] at again

/-- A cycle of a running block that is not disturbed: the latency goes down by one, and of the block HAZ alone can change. -/
theorem step_of_orderly (h : s.running) (ho : ∀ e ∈ s.bus, orderly s.config e) :
    ∃ z b l n, step s = .next { s with haz := z, bus := b, lastRead := l, draws := n, wait := s.wait - 1 } ∧
      ∀ e ∈ b, e ∈ s.bus := by
  cases hb : s.bus with
  | nil => exact ⟨_, _, _, _, step_no_event (.inr h) hb, nofun⟩
  | cons e rest =>
    have fewer : ∀ e' ∈ rest, e' ∈ e :: rest := fun e' => List.mem_cons_of_mem e
    have first : orderly s.config e := ho e (by simp [hb])
    cases e with
    | idle => exact ⟨_, _, _, _, step_idle_event (.inr h) hb, fewer⟩
    | poll =>
      have again := step_poll (.inr h) hb
      rw [busy_of_running h] at again
      exact ⟨_, _, _, _, again, fun _ he => he⟩
    | read w a =>
      obtain ⟨v, n, answer, -⟩ := step_busy_read_value h hb first
      exact ⟨_, _, _, _, answer, fewer⟩
    | write w a d =>
      obtain ⟨t, ht⟩ := Option.ne_none_iff_exists'.1 first
      obtain ⟨z, hz⟩ := writeBusy_eq (s.afterEvent rest) d t
      exact ⟨_, _, _, _, (step_busy_write h hb ht).trans (congrArg _ hz), fewer⟩
    | assertReset => exact first.elim
    | deassertReset =>
      have same : deassertReset (s.afterEvent rest) = s.afterEvent rest := by
        rw [deassertReset, ← h.1]
        rfl
      have quiet := step_event_of_idle_or_running (.inr h) hb
      rw [hostEvent, same] at quiet
      exact ⟨_, _, _, _, quiet, fewer⟩

/-- A run goes on from the state its first step answers. -/
theorem run_succ {u : State} (k : Nat) (h : step s = .next u) :
    Host.Core.run Sys2Proof.core (k + 1) s = Host.Core.run Sys2Proof.core k u := by
  have first : Sys2Proof.core.step s = .next u := h
  simp only [Host.Core.run, first]

/-- A running block with `n` outstanding cycles is due after `n` orderly ones. -/
theorem run_until_due (n : Nat) (s : State) (hw : s.wait = n) (hr : s.resetPin = false) (hb : s.eng.busy = true)
    (ho : ∀ e ∈ s.bus, orderly s.config e) :
    ∃ u, Host.Core.run Sys2Proof.core n s = .next u ∧ u.completing ∧
      u = { s with haz := u.haz, bus := u.bus, lastRead := u.lastRead, draws := u.draws, wait := 0 } := by
  induction n generalizing s with
  | zero => exact ⟨s, rfl, ⟨hr, hb, hw⟩, by rw [← hw]⟩
  | succ n ih =>
    obtain ⟨z, b, l, d, first, hsub⟩ := step_of_orderly ⟨hr, hb, by omega⟩ ho
    obtain ⟨u, run, hdue, hu⟩ := ih { s with haz := z, bus := b, lastRead := l, draws := d, wait := s.wait - 1 }
      (by show s.wait - 1 = n; omega) hr hb fun e he => ho e (hsub e he)
    exact ⟨u, (run_succ n first).trans run, hdue, hu⟩

/-- Settles O41, by induction on the outstanding cycles. -/
theorem runningCommandBecomesDue : Obligations.RunningCommandBecomesDue := by
  unfold Obligations.RunningCommandBecomesDue
  exact fun s hr hb ho => run_until_due s.wait s rfl hr hb ho

end Sys2Proof.Machine
end

section
/-! PROOF. Narrow writes, mixed-width views, and reads of unwritten bytes (20_memory.md R83, R87; 70_reset_and_hazards.md R272). -/

namespace Sys2Proof.Machine

variable {s : State}

/-- Settles O52: `step_write_memByte` for data of any width. -/
theorem byteWriteUsesLowBits : Obligations.ByteWriteUsesLowBits := by
  unfold Obligations.ByteWriteUsesLowBits
  exact fun s a i d rest h ha hi hb => step_write_memByte h ha hi hb

/-- An 8-bit read in the window of a block that runs no command answers a written byte of MEM. -/
theorem byte_of_busRead {a : HostAddr} {i : Nat} {v : Word} (hb : s.eng.busy = false) (ha : a.toNat = 0x10000 + i)
    (h : busRead s .w8 a = .next (s.answer v)) : i < s.config.memSize ∧ ∃ b, s.mem.read i = some b ∧ v = b.zeroExtend 32 := by
  rcases busRead_cases s .w8 a with ⟨-, e⟩ | ⟨t, -, hbusy, -⟩ | ⟨t, ht, -, e⟩
  · rw [e] at h; cases h
  · rw [hb] at hbusy; cases hbusy
  · rw [e] at h
    cases t with
    | reg r => cases (busTarget_reg.1 ht).1
    | memWord k => cases (busTarget_memWord.1 ht).1
    | memByte k =>
      obtain ⟨-, hk, hlt⟩ := busTarget_memByte.1 ht
      obtain rfl : i = k := by omega
      obtain ⟨b, hread, hnext⟩ := withRead_next h
      have answered := congrArg State.lastRead (Host.Outcome.next.inj hnext)
      exact ⟨hlt, b, hread, (Option.some.inj answered).symm⟩

/-- Four bytes joined, as shifts of 32-bit words. -/
theorem join_eq_shifts (b0 b1 b2 b3 : Byte) : (b0 ++ b1 ++ b2 ++ b3 : Word) =
    b0.zeroExtend 32 <<< 24 ||| b1.zeroExtend 32 <<< 16 ||| b2.zeroExtend 32 <<< 8 ||| b3.zeroExtend 32 := by
  ext i hi
  simp only [BitVec.getElem_append, BitVec.getElem_or, BitVec.getElem_shiftLeft, BitVec.zeroExtend, BitVec.getElem_setWidth]
  grind

/-- Settles O53: the four bytes read are those of the word, and `join_eq_shifts` joins them. -/
theorem mixedWidthReadsAgree : Obligations.MixedWidthReadsAgree := by
  unfold Obligations.MixedWidthReadsAgree
  intro s a v0 v1 v2 v3 hb hwindow h4 h0 h1 h2 h3
  have := a.isLt
  obtain ⟨i, hi⟩ : ∃ i, a.toNat = 0x10000 + i := ⟨a.toNat - 0x10000, by omega⟩
  have behind (k : Nat) (hk : k < 4) : (a + BitVec.ofNat 17 k).toNat = 0x10000 + (i + k) := by
    rw [BitVec.toNat_add, BitVec.toNat_ofNat]
    omega
  obtain ⟨hlt, b0, r0, rfl⟩ := byte_of_busRead hb hi h0
  obtain ⟨-, b1, r1, rfl⟩ := byte_of_busRead hb (behind 1 (by omega)) h1
  obtain ⟨-, b2, r2, rfl⟩ := byte_of_busRead hb (behind 2 (by omega)) h2
  obtain ⟨-, b3, r3, rfl⟩ := byte_of_busRead hb (behind 3 (by omega)) h3
  have bytes : s.mem.readBytes i 4 = some [b0, b1, b2, b3] := by simp [Memory.readBytes, r0, r1, r2, r3]
  have target : busTarget s.config .w32 a = some (.memWord i) := busTarget_memWord.2 ⟨rfl, hi, hlt, by omega⟩
  rw [busRead, target, ← join_eq_shifts]
  simp only [hb]
  exact readIdle_memWord bytes

/-- Settles O54: the byte, or one of the four, is missing, so nothing is read. -/
theorem unwrittenHostReadFaults : Obligations.UnwrittenHostReadFaults := by
  unfold Obligations.UnwrittenHostReadFaults
  intro s a i rest h ha hi
  refine ⟨fun hb hnone => ?byte, fun hb h4 hnone => ?word⟩
  case byte =>
    rw [step_read_of_busTarget h hb (busTarget_memByte.2 ⟨rfl, ha, hi⟩), readIdle, afterEvent_mem, hnone, withRead_none]
  case word =>
    obtain ⟨k, hk, hnone⟩ := hnone
    have missing : s.mem.readBytes i 4 = none := by
      by_contra hsome
      have written := (Memory.readBytes_isSome s.mem 4 i).1 (Option.isSome_iff_ne_none.2 hsome) (i + k) (by omega) (by omega)
      rw [hnone] at written
      cases written
    rw [step_read_of_busTarget h hb (busTarget_memWord.2 ⟨rfl, ha, hi, h4⟩), readIdle, afterEvent_mem, Memory.readBE, missing,
      Option.map_none, withRead_none]

end Sys2Proof.Machine
end

section
/-! PROOF. The reset input (70_reset_and_hazards.md R270 to R273). -/

namespace Sys2Proof.Machine

variable {s : State} {rest : List HostEvent}

/-- Settles O58: while reset is asserted an access is a fault whatever the map says. -/
theorem accessDuringResetFaults : Obligations.AccessDuringResetFaults := by
  unfold Obligations.AccessDuringResetFaults
  intro s w a d rest hr
  exact ⟨step_event_in_reset hr, step_event_in_reset hr, step_event_in_reset hr⟩

/-- The state a reset assertion leaves: the reset values on MEM `m`, reset asserted, and what is the host's. -/
def State.heldInReset (s : State) (m : Memory) : State :=
  { State.resetWith s.config m with resetPin := true, bus := s.bus, lastRead := s.lastRead, draws := s.draws }

/-- A reset asserted on a block that is idle, or runs a command not due. -/
theorem step_assertReset (h : s.idle ∨ s.running) (hb : s.bus = .assertReset :: rest) :
    step s = .next ((s.afterEvent rest).heldInReset (s.afterEvent rest).memAfterReset) := by
  have hr : (s.afterEvent rest).resetPin = false := h.elim (·.1) (·.1)
  rw [step_event_of_idle_or_running h hb, hostEvent, assertReset_eq _ hr, State.heldInReset]

/-- Every register but ID reads 0 while reset is asserted. -/
theorem readReg_heldInReset (s : State) (m : Memory) (r : Reg) :
    (s.heldInReset m).readReg r = if r = .id then 0x434C4231#32 else 0#32 := by
  rw [← readReg_resetWith s.config m r]
  cases r <;> rfl

/-- The next event while reset is asserted: there is no latency to count down. -/
theorem step_heldInReset (s : State) (m : Memory) (e : HostEvent) (rest : List HostEvent) :
    step { s.heldInReset m with bus := e :: rest } = eventInReset { s.heldInReset m with bus := rest } e :=
  step_event_in_reset rfl rfl

/-- Settles O56: the registers are those of `readReg_resetWith`, and no latency is outstanding, so a quiet cycle changes nothing. -/
theorem assertedResetClearsRegisters : Obligations.AssertedResetClearsRegisters := by
  unfold Obligations.AssertedResetClearsRegisters
  intro s rest h hb
  refine ⟨_, step_assertReset h hb, rfl, rfl, rfl, rfl, readReg_heldInReset _ _, ?quiet, fun rest' => ⟨?idle, ?again, ?deassert⟩⟩
  case quiet => exact step_quiet (fun hdue => by cases hdue.1) rfl
  case idle => exact step_heldInReset _ _ .idle rest'
  case again => exact (step_heldInReset _ _ .assertReset rest').trans (congrArg _ (assertReset_of_asserted rfl))
  case deassert => exact step_heldInReset _ _ .deassertReset rest'

/-- Settles O57: the three cases of `State.memAfterReset`, a byte in the write region being erased. -/
theorem resetMakesMemoryUnspecified : Obligations.ResetMakesMemoryUnspecified := by
  unfold Obligations.ResetMakesMemoryUnspecified
  intro s rest hb
  refine ⟨fun h => ⟨_, step_assertReset (.inl h) hb, fun a => ?idle⟩,
    fun i h hi => ⟨_, step_assertReset (.inr h) hb, fun a => ?running⟩, fun h hw => ⟨_, step_assertReset (.inr h) hb, ?illegal⟩⟩
  case idle =>
    show (s.afterEvent rest).memAfterReset.read a = none
    rw [State.memAfterReset, afterEvent_eng, h.2]
    rfl
  case running =>
    have erased : (s.afterEvent rest).memAfterReset = s.mem.erase s.outStart (writeSize i s) := by
      rw [State.memAfterReset, afterEvent_eng, busy_of_running h, hi]
      rfl
    show (s.writes i a → (s.afterEvent rest).memAfterReset.read a = none) ∧
      (¬ s.writes i a → (s.afterEvent rest).memAfterReset.read a = s.mem.read a)
    rw [erased, Memory.read_erase]
    exact ⟨fun ha => if_pos ha, fun ha => if_neg ha⟩
  case illegal =>
    show (s.afterEvent rest).memAfterReset = s.mem
    rw [State.memAfterReset, afterEvent_eng, busy_of_running h, if_pos rfl]
    cases hword : decodeWord s.eng.cmd with
    | ok i => exact absurd hword (hw i)
    | error e => rfl

end Sys2Proof.Machine
end
